-- ==== Sys2Proof/Word.lean ====
section
/-! DEFINITION. The two word types of the spec: 8-bit bytes of buffer memory (R22) and the 32-bit unsigned fields of the
command and response packets (R50, R51), which are also the width of a MessageId (R19), a RouteId (R18) and a buffer
address (R22). All values are unsigned (R8, R100). -/

namespace Sys2Proof

/-- One byte of buffer memory (R22). Bit `i` is the bit of weight `2^i` (R7, convention 2). -/
abbrev Byte := BitVec 8

/-- A 32-bit unsigned field of a packet (R50, R51). Bit `i` is the bit of weight `2^i` (R7, convention 2). -/
abbrev Word := BitVec 32

end Sys2Proof
end

