-- ==== Sys2Proof/Syntax.lean ====
section
/-! DEFINITION. The commands of the block (R53) as terms, the packet they travel in (R50), and the lines of the spec's
assembler syntax (R60, R61). -/

namespace Sys2Proof

/-- The command packet (R50): three 32-bit fields carried as integers (R48). -/
structure Packet where
  cmd : Word
  arg0 : Word
  arg1 : Word
  deriving DecidableEq, Repr

/-- A buffer reference (R30): the address of the buffer's first byte, or `none` for the absent ("null") buffer, `BP = 0`.
Every address, 0 among them, is an ordinary one. -/
abbrev BufferRef := Option Word

/-- The seven fields of the primary header, in the order of R34's table (which is also the selector's order, R53). -/
inductive HeaderField where
  | version
  | type
  | secHdr
  | apid
  | segFlag
  | seqCnt
  | size
  deriving DecidableEq, Repr

/-- The twenty commands (R53), one constructor per row of spec/opcode_table.json, with the operands R55 gives them. The
packet fields a command ignores (R55) are no operand of it (log 14). `out` is the out-reference-present flag `OP` (R52). -/
inductive Instr where
  | getVersion (buf : BufferRef) (out : Bool)
  | getType (buf : BufferRef) (out : Bool)
  | getSecHdr (buf : BufferRef) (out : Bool)
  | getApid (buf : BufferRef) (out : Bool)
  | getSegFlag (buf : BufferRef) (out : Bool)
  | getSeqCnt (buf : BufferRef) (out : Bool)
  | getSize (buf : BufferRef) (out : Bool)
  | getMsgId (buf : BufferRef) (out : Bool)
  | setVersion (buf : BufferRef) (v : Word)
  | setType (buf : BufferRef) (v : Word)
  | setSecHdr (buf : BufferRef) (v : Word)
  | setApid (buf : BufferRef) (v : Word)
  | setSegFlag (buf : BufferRef) (v : Word)
  | setSeqCnt (buf : BufferRef) (v : Word)
  | setSize (buf : BufferRef) (n : Word)
  | rtInit
  | rtGet (m : Word)
  | rtSet (m : Word) (r : Word)
  | rtDereg (r : Word)
  | rtIter (c : Word)
  deriving DecidableEq, Repr

/-- One line of the assembler syntax (R60): a command, the pseudo-instruction `RT_FIRST` (R61), or a raw packet. -/
inductive AsmLine where
  | command (i : Instr)
  | rtFirst
  | word (cmd arg0 arg1 : Word)
  deriving DecidableEq, Repr

end Sys2Proof
end

