-- ==== Sys2Proof/WellFormed.lean ====
section
/-! DEFINITION. Which command packets are legal: the fields of the command word (R52) and the four causes that make a word
illegal, as R57 lists them. It is written apart from the decoder. An `Instr` term needs no check of its own: its constructors
hold exactly the operands R55 gives the command, each at every value of its type, so every term stands for a legal packet. -/

namespace Sys2Proof

/-- `OPC`, bits 7:0 of the command word (R52). -/
def Packet.opc (p : Packet) : Nat := p.cmd.toNat % 2 ^ 8

/-- `BP`, bit 8 of the command word (R52): a buffer reference is present. -/
def Packet.bp (p : Packet) : Bool := p.cmd.getLsbD 8

/-- `OP`, bit 9 of the command word (R52): an out reference is present. -/
def Packet.op (p : Packet) : Bool := p.cmd.getLsbD 9

/-- `RSV`, bits 31:10 of the command word (R52). -/
def Packet.rsv (p : Packet) : Nat := p.cmd.toNat / 2 ^ 10

/-- `OPC[7:4]`, the group (R52). -/
def Packet.group (p : Packet) : Nat := p.opc / 16

/-- R57 cause 1: a reserved bit is set. -/
def Packet.reservedBitSet (p : Packet) : Bool := p.rsv != 0

/-- R57 cause 2: the opcode is not one of the twenty. -/
def Packet.reservedOpcode (p : Packet) : Bool :=
  !((0x10 ≤ p.opc && p.opc ≤ 0x17) || (0x20 ≤ p.opc && p.opc ≤ 0x26) || (0x30 ≤ p.opc && p.opc ≤ 0x34))

/-- R57 cause 3: a Set with an out reference. -/
def Packet.setWithOut (p : Packet) : Bool := p.group == 2 && p.op

/-- R57 cause 4: a route command with a buffer or an out reference. -/
def Packet.routeWithRef (p : Packet) : Bool := p.group == 3 && (p.bp || p.op)

/-- The packet is illegal (R57): any of the four causes holds. -/
def Packet.illegal (p : Packet) : Bool :=
  p.reservedBitSet || p.reservedOpcode || p.setWithOut || p.routeWithRef

/-- The packet is one of the twenty commands (R57). -/
def Packet.wellFormed (p : Packet) : Bool := !p.illegal

end Sys2Proof
end

