-- ==== Sys2Proof/Decode.lean ====
section
/-! DEFINITION. The decoder (R52 to R57), total on any packet, and the encoder, written from the same tables. -/

namespace Sys2Proof

/-- The buffer reference of a codec command (R30, R54): `ARG1` when `BP = 1`; when `BP = 0` the value of `ARG1` is ignored. -/
def bufferRef (bp : Bool) (arg1 : Word) : BufferRef := if bp then some arg1 else none

/-- The Get group, `OPC[7:4] = 1` (R53): every value of `BP` and `OP` is a legal encoding (R54). -/
def decodeGet (sel : BitVec 4) (buf : BufferRef) (out : Bool) : Option Instr :=
  match sel with
  | 0x0#4 => some (.getVersion buf out)
  | 0x1#4 => some (.getType buf out)
  | 0x2#4 => some (.getSecHdr buf out)
  | 0x3#4 => some (.getApid buf out)
  | 0x4#4 => some (.getSegFlag buf out)
  | 0x5#4 => some (.getSeqCnt buf out)
  | 0x6#4 => some (.getSize buf out)
  | 0x7#4 => some (.getMsgId buf out)
  | _ => none

/-- The Set group, `OPC[7:4] = 2` (R53): `OP` must be 0 (R54, R57 cause 3). -/
def decodeSet (sel : BitVec 4) (buf : BufferRef) (out : Bool) (v : Word) : Option Instr :=
  if out then none
  else
    match sel with
    | 0x0#4 => some (.setVersion buf v)
    | 0x1#4 => some (.setType buf v)
    | 0x2#4 => some (.setSecHdr buf v)
    | 0x3#4 => some (.setApid buf v)
    | 0x4#4 => some (.setSegFlag buf v)
    | 0x5#4 => some (.setSeqCnt buf v)
    | 0x6#4 => some (.setSize buf v)
    | _ => none

/-- The route group, `OPC[7:4] = 3` (R53): `BP` and `OP` must be 0 (R54, R57 cause 4); operands as in R55. -/
def decodeRoute (sel : BitVec 4) (bp out : Bool) (arg0 arg1 : Word) : Option Instr :=
  if bp || out then none
  else
    match sel with
    | 0x0#4 => some .rtInit
    | 0x1#4 => some (.rtGet arg0)
    | 0x2#4 => some (.rtSet arg0 arg1)
    | 0x3#4 => some (.rtDereg arg1)
    | 0x4#4 => some (.rtIter arg0)
    | _ => none

/-- The decoder (R52, R53, R57): the command the packet stands for, `none` for an illegal command word. Only `CMD` takes
part in selecting the operation (R50). -/
def decode (p : Packet) : Option Instr :=
  let bp := p.cmd.getLsbD 8
  let out := p.cmd.getLsbD 9
  let sel := p.cmd.extractLsb' 0 4
  if p.cmd.extractLsb' 10 22 ≠ 0 then none
  else
    match p.cmd.extractLsb' 4 4 with
    | 0x1#4 => decodeGet sel (bufferRef bp p.arg1) out
    | 0x2#4 => decodeSet sel (bufferRef bp p.arg1) out p.arg0
    | 0x3#4 => decodeRoute sel bp out p.arg0 p.arg1
    | _ => none

/-- The packet as one fixed-width pattern (R50): `CMD ‖ ARG0 ‖ ARG1`, `CMD` most significant. -/
def Packet.pattern (p : Packet) : BitVec 96 := p.cmd ++ p.arg0 ++ p.arg1

/-- The packet of a fixed-width pattern (R50). -/
def Packet.ofPattern (b : BitVec 96) : Packet :=
  { cmd := b.extractLsb' 64 32, arg0 := b.extractLsb' 32 32, arg1 := b.extractLsb' 0 32 }

/-- The command a fixed-width pattern stands for (R50, R57). -/
def decodePattern (b : BitVec 96) : Option Instr := decode (Packet.ofPattern b)

/-- The `j`-th 32-bit word of a number that counts its words from the least significant one. -/
def tableField (v j : Nat) : Word := BitVec.ofNat 32 (v / 2 ^ (32 * j))

/-- The packet of a word of spec/opcode_table.json. The table numbers the bits of the first field, `CMD`, only (R50); a number
with more bits counts on with those of the second field and the third, and every bit from `nbits` on is 0. Only the numbering
of `w` is so (log 8): the pattern put together from the three fields is R50's. -/
def packetOfBits (nbits w : Nat) : Packet :=
  let v := w % 2 ^ nbits
  Packet.ofPattern (tableField v 0 ++ tableField v 1 ++ tableField v 2)

/-- What the decoder reads from the packet whose bits, numbered as spec/opcode_table.json numbers them, are `w`. -/
def decodeTableWord (nbits w : Nat) : Option Instr := decode (packetOfBits nbits w)

/-- `CMD = zext_32(OPC) | (BP << 8) | (OP << 9)` (R52). -/
def commandWord (opc : Byte) (bp out : Bool) : Word :=
  opc.setWidth 32 ||| ((BitVec.ofBool bp).setWidth 32 <<< 8) ||| ((BitVec.ofBool out).setWidth 32 <<< 9)

/-- The opcode of each command (R53). -/
def opcode (i : Instr) : Byte :=
  match i with
  | .getVersion _ _ => 0x10
  | .getType _ _ => 0x11
  | .getSecHdr _ _ => 0x12
  | .getApid _ _ => 0x13
  | .getSegFlag _ _ => 0x14
  | .getSeqCnt _ _ => 0x15
  | .getSize _ _ => 0x16
  | .getMsgId _ _ => 0x17
  | .setVersion _ _ => 0x20
  | .setType _ _ => 0x21
  | .setSecHdr _ _ => 0x22
  | .setApid _ _ => 0x23
  | .setSegFlag _ _ => 0x24
  | .setSeqCnt _ _ => 0x25
  | .setSize _ _ => 0x26
  | .rtInit => 0x30
  | .rtGet _ => 0x31
  | .rtSet _ _ => 0x32
  | .rtDereg _ => 0x33
  | .rtIter _ => 0x34

/-- A Get's packet (R54, R55): `ARG0` is ignored, and `ARG1` too when the buffer is absent. -/
def encodeGet (opc : Byte) (buf : BufferRef) (out : Bool) : Packet :=
  { cmd := commandWord opc buf.isSome out, arg0 := 0, arg1 := buf.getD 0 }

/-- A Set's packet (R54, R55). -/
def encodeSet (opc : Byte) (buf : BufferRef) (v : Word) : Packet :=
  { cmd := commandWord opc buf.isSome false, arg0 := v, arg1 := buf.getD 0 }

/-- A route command's packet (R54, R55). -/
def encodeRoute (opc : Byte) (arg0 arg1 : Word) : Packet :=
  { cmd := commandWord opc false false, arg0 := arg0, arg1 := arg1 }

/-- The packet of a command (R50 to R55), with 0 in every ignored field, as the assembler puts it (R60). -/
def encode (i : Instr) : Packet :=
  match i with
  | .getVersion buf out => encodeGet (opcode i) buf out
  | .getType buf out => encodeGet (opcode i) buf out
  | .getSecHdr buf out => encodeGet (opcode i) buf out
  | .getApid buf out => encodeGet (opcode i) buf out
  | .getSegFlag buf out => encodeGet (opcode i) buf out
  | .getSeqCnt buf out => encodeGet (opcode i) buf out
  | .getSize buf out => encodeGet (opcode i) buf out
  | .getMsgId buf out => encodeGet (opcode i) buf out
  | .setVersion buf v => encodeSet (opcode i) buf v
  | .setType buf v => encodeSet (opcode i) buf v
  | .setSecHdr buf v => encodeSet (opcode i) buf v
  | .setApid buf v => encodeSet (opcode i) buf v
  | .setSegFlag buf v => encodeSet (opcode i) buf v
  | .setSeqCnt buf v => encodeSet (opcode i) buf v
  | .setSize buf n => encodeSet (opcode i) buf n
  | .rtInit => encodeRoute (opcode i) 0 0
  | .rtGet m => encodeRoute (opcode i) m 0
  | .rtSet m r => encodeRoute (opcode i) m r
  | .rtDereg r => encodeRoute (opcode i) 0 r
  | .rtIter c => encodeRoute (opcode i) c 0

/-- The fixed-width pattern of a command (R50). -/
def encodePattern (i : Instr) : BitVec 96 := (encode i).pattern

/-- The packet of an assembler line (R60, R61). -/
def assemble (l : AsmLine) : Packet :=
  match l with
  | .command i => encode i
  | .rtFirst => encode (.rtIter 0)
  | .word cmd arg0 arg1 => { cmd := cmd, arg0 := arg0, arg1 := arg1 }

end Sys2Proof
end

