-- ==== Sys2Proof/Config.lean ====
section
/-! DEFINITION. The parameters of one instance of the block (R5) and of the platform it sits on (R32), as plain data,
and the free values the spec leaves open. A model takes every OPEN parameter as an argument (R5, R10): the machine carries
`Params` in its state, no step changes it, and a statement about every state is a statement about every parameter. The
reset state takes the parameters from the opaque constants below (logs 1, 2, 3). -/

namespace Sys2Proof

/-- What an address is when it is not plain memory (R39(b), R39(c), U3): nothing there, memory that can be read but not
written, or a device register whose accesses have effects of their own. -/
inductive RegionKind where
  | absent
  | readOnly
  | device
  deriving DecidableEq, Repr

/-- A range of addresses that is not plain memory; which ones exist is the platform's (R32, log 5). -/
structure Region where
  base : Nat
  size : Nat
  kind : RegionKind
  deriving DecidableEq, Repr

/-- The parameters of R5, and the platform's memory map of R32. -/
structure Params where
  /-- `SIZE_OFFSET` (R5, U9). -/
  sizeOffset : Nat
  /-- `MAX_ROUTES` (R5, U10). -/
  maxRoutes : Nat
  /-- `HASH` (R5, R110, U11) by its finite graph: the MessageIds on which it differs from the default `HASH_MOD`, each
  with its value (log 2). The empty table is `HASH_MOD`. -/
  hashTable : List (Word × Nat)
  /-- The addresses that are not plain memory (R32, R39, log 5). -/
  regions : List Region
  deriving DecidableEq, Repr

/-- The constraints R5 puts on the parameters. (`HASH` below `MAX_ROUTES` needs no constraint: see `homeSlot`.) -/
def Params.legal (p : Params) : Bool :=
  decide (1 ≤ p.sizeOffset) && decide (p.sizeOffset ≤ 2 ^ 32 - 0x10000)
    && decide (1 ≤ p.maxRoutes) && decide (p.maxRoutes ≤ 2 ^ 32 - 2)

/-- Free value: picks `SIZE_OFFSET` (U9, log 1). -/
opaque Config.rawSizeOffset : Nat

/-- Free value: picks `MAX_ROUTES` (U10, log 1). -/
opaque Config.rawMaxRoutes : Nat

/-- Free value: picks `HASH` (U11, log 2). -/
opaque Config.hashTable : List (Word × Nat)

/-- Free value: the contents of slot `i` after the `n`-th reset (R23, U5, log 3), a MessageId and a RouteId if the slot
holds a pair. -/
opaque Config.resetSlot : (n i : Nat) → Option (Word × Word)

/-- `SIZE_OFFSET` of the instance: every number R5 allows is reached by some free value, and no other. -/
def Config.sizeOffset : Nat := 1 + Config.rawSizeOffset % (2 ^ 32 - 0x10000)

/-- `MAX_ROUTES` of the instance: every number R5 allows is reached by some free value, and no other. -/
def Config.maxRoutes : Nat := 1 + Config.rawMaxRoutes % (2 ^ 32 - 2)

/-- The parameters the reset state holds. No address is set apart (R32: "There are no reserved address ranges, no I/O
regions"; DESIGN CHOICE, unsafe, log 5). -/
def Config.params : Params :=
  { sizeOffset := Config.sizeOffset
    maxRoutes := Config.maxRoutes
    hashTable := Config.hashTable
    regions := [] }

end Sys2Proof
end

