-- ==== Sys2Proof/Machine/State.lean ====
section
/-! DEFINITION. The state of the machine: the block's own state (R10), the buffer memory it reaches (R22), the parameters
of the instance (R5), and what stands at its command port (R50, R51, R150). Plain data. -/

namespace Sys2Proof.Machine

/-- The four statuses a response can carry (R140); their numbers are in Flags.lean. -/
inductive Status where
  | success
  | badArgument
  | capacityExceeded
  | duplicateRegistration
  deriving DecidableEq, Repr

/-- The response packet (R51). -/
structure Response where
  status : Status
  res0 : Word
  res1 : Word
  res2 : Word
  deriving DecidableEq, Repr

/-- What a live slot holds (R15): the owning MessageId and the RouteId registered for it. -/
structure RouteEntry where
  msgid : Word
  routeid : Word
  deriving DecidableEq, Repr

/-- A route slot (R15): `none` is a free slot (`live = 0`), whose other fields hold no value. -/
abbrev Slot := Option RouteEntry

/-- Buffer memory (R22, R30): address and byte pairs, strictly rising, none equal to what an unlisted address reads as
(Ops.lean: `unlistedByte`, `Memory.wf`). -/
abbrev Memory := List Host.Cell

/-- One access of the block to buffer memory (R36): always a single byte. -/
inductive Access where
  | read (a : Nat) (v : Byte)
  | write (a : Nat) (v : Byte)
  deriving DecidableEq, Repr

/-- What happens next at the block's boundary. The list `State.events` is the command order (R42, R43) with the acts of the
outside between the commands; the spec does not determine it, and every list is a legal one (U8, log 7). -/
inductive Event where
  /-- Issuer `k` sends a command; it waits behind those `k` has sent before (R43(a), R150(b)). -/
  | send (k : Nat) (p : Packet)
  /-- The port takes the oldest command issuer `k` has sent, and the block executes it and sends the response (R42,
  R43(a), R51). -/
  | command (k : Nat)
  /-- Issuer `k` receives the oldest response sent to it that it has not received (R46, R150(b)). -/
  | receive (k : Nat)
  /-- An agent stores a byte to buffer memory (R150(b)). -/
  | store (a : Word) (v : Byte)
  /-- An agent loads a byte of buffer memory (R150(b)). -/
  | load (a : Word)
  /-- Reset is asserted and released with no command in progress (R160). -/
  | reset
  /-- Reset is asserted while the oldest command of issuer `k` is in progress, and released; `done` says, write by write
  in the order of R38, which of its byte writes had been performed (R160, U7). -/
  | resetDuring (k : Nat) (done : List Bool)
  deriving DecidableEq, Repr

/-- The machine. `rtInited` and `slots` are the block's whole state (R10); the other fields are the rest of R10's step
function: parameters, buffer memory, commands and response, and the model's own record of accesses and resets. -/
structure State where
  /-- The parameters of the instance and the platform (R5, R32). No step changes them. -/
  params : Params
  /-- `rt_inited` (R17). -/
  rtInited : Bool
  /-- `slot[0 .. MAX_ROUTES-1]` (R15). -/
  slots : List Slot
  /-- Buffer memory (R22), the host's. -/
  mem : Memory
  /-- The commands each issuer has sent and the port has not taken, oldest first (R43(a), R150(b)); `Event.send` adds to
  them. -/
  queues : List (List Packet)
  /-- The responses sent to each issuer and not received, oldest first, each with the command it answers (R51, R150(b)); the
  window of R45(b) and R164 is open until then. `Event.receive` takes from them. -/
  inboxes : List (List (Packet × Response))
  /-- What happens next, in order (log 7). -/
  events : List Event
  /-- The response the last step sent (R51), `none` if it sent none (log 9). -/
  response : Option Response
  /-- The byte accesses the last step's command made, oldest first (R36 to R38, log 10). -/
  accesses : List Access
  /-- How many resets have happened: the index of the free slot contents (U5, log 3). -/
  resets : Nat
  deriving DecidableEq, Repr

/-- The reasons the machine stops with a fault: none. The block has no traps (R142), no interrupts (R143) and no halt or
wait state (93_implementation_defined.md part 1), so no step faults (log 12). -/
inductive Fault where
  deriving DecidableEq, Repr

/-- The situations to which the spec gives no meaning and which a model must refuse (93_implementation_defined.md). Each is
safe: where the hardware goes on, the model stops. -/
inductive Refusal where
  /-- An instruction with no meaning yet: raised by `exec`'s refused arms only. Safe. -/
  | notModelled (mnemonic : String)
  /-- U1: `RT_GET`, `RT_SET`, `RT_DEREG` or `RT_ITER` while `rt_inited = 0` (R121); raised by those four. Safe. -/
  | routeTableNotInitialised
  /-- U2: a codec command whose window `base .. base + 5` runs past the last address (R39(a)); raised by every Get and
  Set that names a buffer. Safe. -/
  | windowWraps
  /-- U3: a touched byte is not readable (for a Set, not writable) plain memory (R39(b), R39(c)); raised by every Get and
  Set that names a buffer, and by an agent's own access to such an address (log 13). Safe. -/
  | notPlainMemory
  /-- U4: an agent writes a touched byte of a codec command whose response is not received, or reads one of such a Set
  (R45(b), R164); raised by the events `store` and `load`. Safe. -/
  | dataRace
  deriving DecidableEq, Repr

/-- The contents of the slots after the `n`-th reset: unspecified (R23, U5), the free value of log 3. -/
def resetSlots (maxRoutes n : Nat) : List Slot :=
  (List.range maxRoutes).map fun i => (Config.resetSlot n i).map fun e => { msgid := e.1, routeid := e.2 }

/-- The machine right after reset (R23, R160): `rt_inited = 0`, the slots unspecified, the parameters at their configured
values, no command in progress, no response sent; nothing has been sent to the block (log 8). -/
def State.reset : State :=
  { params := Config.params
    rtInited := false
    slots := resetSlots Config.params.maxRoutes 0
    mem := []
    queues := []
    inboxes := []
    events := []
    response := none
    accesses := []
    resets := 0 }

end Sys2Proof.Machine
end

