-- ==== Sys2Proof/Machine/Flags.lean ====
section
/-! DEFINITION. The hardware has no flags and no condition codes (R13): the outcome of a command is the `STATUS` of its own
response. This file has the statuses' numbers (R140) and the range checks of the value operand of a Set (R90 to R97, R56),
which compare the whole 32-bit operand (R100). -/

namespace Sys2Proof.Machine

/-- The number in the `STATUS` field (R140). -/
def Status.code (st : Status) : Word :=
  match st with
  | .success => 0
  | .badArgument => 1
  | .capacityExceeded => 2
  | .duplicateRegistration => 3

/-- The four 32-bit fields of the response packet as they stand on the port (R51). -/
def Response.words (r : Response) : List Word := [r.status.code, r.res0, r.res1, r.res2]

/-! The named constants of R59. -/

def typeTlm : Word := 0
def typeCmd : Word := 1
def segContinuation : Word := 0
def segFirst : Word := 1
def segLast : Word := 2
def segUnsegmented : Word := 3
def secHdrAbsent : Word := 0
def secHdrPresent : Word := 1
def routeInvalid : Word := 0

/-- R91: 0 to 7. -/
def versionInRange (v : Word) : Bool := v ≤ 7

/-- R92: Telemetry or Command; every other operand is the "invalid" sentinel (R59). -/
def typeInRange (v : Word) : Bool := v == typeTlm || v == typeCmd

/-- R93: false or true; no other operand is read as true. -/
def secHdrInRange (v : Word) : Bool := v == secHdrAbsent || v == secHdrPresent

/-- R94: 0 to 0x7FF. -/
def apidInRange (v : Word) : Bool := v ≤ 0x7FF

/-- R95: one of the four codes. -/
def segFlagInRange (v : Word) : Bool :=
  v == segContinuation || v == segFirst || v == segLast || v == segUnsegmented

/-- R96: 0 to 0x3FFF. -/
def seqCntInRange (v : Word) : Bool := v ≤ 0x3FFF

/-- R97: the comparisons are on integers, with no wrap. -/
def sizeInRange (sizeOffset : Nat) (n : Word) : Bool :=
  decide (sizeOffset ≤ n.toNat) && decide (n.toNat ≤ sizeOffset + 0xFFFF)

/-- The legal RouteIds are `1 .. MAX_ROUTES` (R18). -/
def routeIdLegal (maxRoutes : Nat) (r : Word) : Bool := r != routeInvalid && decide (r.toNat ≤ maxRoutes)

end Sys2Proof.Machine
end

