-- ==== Sys2Proof/Machine/Operands.lean ====
section
/-! DEFINITION. Operand forms. The one addressing mode of the codec (base address plus constant byte offset, R31), the
touched bytes and masks of each header field (R34), what kind of address a byte of the platform is (R39), the word and bit
views of the header (R9, R33, R35), and the hash and probe sequence of the route table (R110, R111). -/

namespace Sys2Proof.Machine

/-! ## The header window -/

/-- The length of the primary header in bytes, `HDR_LEN` (R5). -/
def hdrLen : Nat := 6

/-- The address of `B[k]` (R31). -/
def headerAddr (base : Word) (k : Nat) : Nat := base.toNat + k

/-- R39(a): the window `base .. base + 5` does not run past the last address. -/
def windowFits (base : Word) : Bool := decide (base.toNat + hdrLen ≤ 2 ^ 32)

/-- What the platform has at an address, if not plain memory (R32, log 5). -/
def regionKind (p : Params) (a : Nat) : Option RegionKind :=
  (p.regions.find? fun r => decide (r.base ≤ a) && decide (a < r.base + r.size)).map Region.kind

/-- R39(b), R39(c): reading the byte gives the value last written and has no side effect. -/
def readable (p : Params) (a : Nat) : Bool :=
  match regionKind p a with
  | none => true
  | some .readOnly => true
  | some .absent => false
  | some .device => false

/-- R39(b), R39(c): writing the byte stores it and does nothing else. -/
def writable (p : Params) (a : Nat) : Bool :=
  match regionKind p a with
  | none => true
  | some .readOnly => false
  | some .absent => false
  | some .device => false

/-! ## Header fields -/

/-- The bytes of the header that hold a bit of the field, ascending, each with its mask (R34). -/
def fieldBytes (f : HeaderField) : List (Nat × Byte) :=
  match f with
  | .version => [(0, 0xE0)]
  | .type => [(0, 0x10)]
  | .secHdr => [(0, 0x08)]
  | .apid => [(0, 0x07), (1, 0xFF)]
  | .segFlag => [(2, 0xC0)]
  | .seqCnt => [(2, 0x3F), (3, 0xFF)]
  | .size => [(4, 0xFF), (5, 0xFF)]

/-- The touched bytes of a field, ascending (R34). -/
def touchedBytes (f : HeaderField) : List Nat := (fieldBytes f).map Prod.fst

/-- The touched bytes of `GET_MSGID` (R78). -/
def msgIdBytes : List Nat := [0, 1]

/-- `off(F)`, the header bit number of the field's most significant bit (R9, R34). -/
def fieldOffset (f : HeaderField) : Nat :=
  match f with
  | .version => 0
  | .type => 3
  | .secHdr => 4
  | .apid => 5
  | .segFlag => 16
  | .seqCnt => 18
  | .size => 32

/-- `w(F)`, the field's width in bits (R9, R34). -/
def fieldWidth (f : HeaderField) : Nat :=
  match f with
  | .version => 3
  | .type => 1
  | .secHdr => 1
  | .apid => 11
  | .segFlag => 2
  | .seqCnt => 14
  | .size => 16

/-- `hb[i]`: header bit `i`, counted from the most significant bit of `B[0]` (R7, R33). -/
def headerBit (B : Nat → Byte) (i : Nat) : Bool := (B (i / 8)).getLsbD (7 - i % 8)

/-- `H48`, the six header bytes as one integer, `B[0]` most significant (R9). -/
def header48 (B : Nat → Byte) : Nat :=
  (((((B 0).toNat * 256 + (B 1).toNat) * 256 + (B 2).toNat) * 256 + (B 3).toNat) * 256 + (B 4).toNat) * 256
    + (B 5).toNat

/-- `raw(F)` by the general formula of R9. -/
def rawField (f : HeaderField) (B : Nat → Byte) : Nat :=
  header48 B / 2 ^ (48 - fieldOffset f - fieldWidth f) % 2 ^ fieldWidth f

/-- `W0`, `W1`, `W2`: the big-endian 16-bit words of the header (R35). -/
def headerWord (B : Nat → Byte) (j : Nat) : BitVec 16 := B (2 * j) ++ B (2 * j + 1)

/-- `swap16` (R35): what a little-endian 16-bit load of the same two bytes gives. -/
def swap16 (w : BitVec 16) : BitVec 16 := w.extractLsb' 0 8 ++ w.extractLsb' 8 8

/-- The value a Set writes to a touched byte: `(old & ~mask) | (new & mask)` (R38, R90). -/
def mergeBits (mask old new : Byte) : Byte := (old &&& ~~~mask) ||| (new &&& mask)

/-! ## Hash and probe -/

/-- `HASH(m)`, the home slot (R110). The table gives the values, `HASH_MOD` the rest; taking the result modulo `MAX_ROUTES`
leaves every value below `MAX_ROUTES` as it is (log 2). -/
def homeSlot (p : Params) (m : Word) : Nat := ((p.hashTable.lookup m).getD m.toNat) % p.maxRoutes

/-- `p(m, k) = (HASH(m) + k) mod MAX_ROUTES` (R111). -/
def probe (p : Params) (m : Word) (k : Nat) : Nat := (homeSlot p m + k) % p.maxRoutes

end Sys2Proof.Machine
end

