-- ==== Sys2Proof/Machine/Ops.lean ====
section
/-! DEFINITION. The named operations over buffer memory, the response port, the header bytes and the slot array, which the
meanings of the commands share; taking an error (`State.raise`), the only exception the hardware has (R8, R145; there is no
return from one, R146); and reset (R160). -/

namespace Sys2Proof.Machine

/-- What a step or a meaning answers. -/
abbrev Answer := Host.Outcome State Fault Refusal

/-- An answer with its next state changed by `f`. -/
def mapNext (f : State → State) (a : Answer) : Answer :=
  match a with
  | .next t => .next (f t)
  | .fault e => .fault e
  | .refused r => .refused r

/-! ## Buffer memory -/

/-- What a byte of buffer memory that nothing has written reads as (DESIGN CHOICE, unsafe, log 4). -/
def unlistedByte : Byte := 0

/-- The canonical form: addresses strictly rising and inside the address space, no entry equal to what an unlisted address
reads as. -/
abbrev Memory.wf (m : Memory) : Prop :=
  m.Pairwise (fun c d => c.1 < d.1) ∧ ∀ c ∈ m, c.1 < 2 ^ 32 ∧ c.2 ≠ unlistedByte

/-- `MemRead(a, 1)` (R8): the byte last written (R39(c)). -/
def Memory.read (m : Memory) (a : Nat) : Byte :=
  match m with
  | [] => unlistedByte
  | (b, w) :: rest => if a = b then w else Memory.read rest a

/-- `MemWrite(a, 1, v)` (R8), in canonical form. -/
def Memory.write (m : Memory) (a : Nat) (v : Byte) : Memory :=
  match m with
  | [] => if v = unlistedByte then [] else [(a, v)]
  | (b, w) :: rest =>
    if a < b then (if v = unlistedByte then (b, w) :: rest else (a, v) :: (b, w) :: rest)
    else if a = b then (if v = unlistedByte then rest else (a, v) :: rest)
    else (b, w) :: Memory.write rest a v

/-- The block reads a byte (R36), and the access is recorded (log 10). -/
def State.memRead (s : State) (a : Nat) : Byte × State :=
  (s.mem.read a, { s with accesses := s.accesses ++ [.read a (s.mem.read a)] })

/-- The block writes a byte (R36), and the access is recorded (log 10). -/
def State.memWrite (s : State) (a : Nat) (v : Byte) : State :=
  { s with mem := s.mem.write a v, accesses := s.accesses ++ [.write a v] }

/-! ## The response -/

/-- `respond(st, r0, r1, r2)` (R8, R51). -/
def State.respond (s : State) (st : Status) (r0 r1 r2 : Word) : State :=
  { s with response := some { status := st, res0 := r0, res1 := r1, res2 := r2 } }

/-- Taking an error: `raise <Status>` is `respond(<Status>, 0, 0, 0)` and nothing else (R8, R145, R147). -/
def State.raise (s : State) (st : Status) : State := s.respond st 0 0 0

/-- What answers an illegal command word (R58). -/
def State.answerIllegal (s : State) : State := s.raise .badArgument

/-! ## The header codec -/

/-- The header byte `B[k]` of the buffer at `base`, as memory holds it (R8). -/
def headerByte (m : Memory) (base : Word) (k : Nat) : Byte := m.read (headerAddr base k)

/-- Reads the bytes `B[k]`, each `k` of the list once and in its order (R37, R38); answers each `k` with its byte. -/
def State.readHeader (s : State) (base : Word) (ks : List Nat) : List (Nat × Byte) × State :=
  match ks with
  | [] => ([], s)
  | k :: rest =>
    let (b, s1) := s.memRead (headerAddr base k)
    let (bs, s2) := s1.readHeader base rest
    ((k, b) :: bs, s2)

/-- The header bytes that were read, as the function `B` of the spec's formulas; a byte that was not read is no part of any
formula. -/
def bytesRead (bs : List (Nat × Byte)) (k : Nat) : Byte := (bs.lookup k).getD 0

/-- Writes the bytes `B[k]`, in the order of the list (R38). -/
def State.writeHeader (s : State) (base : Word) (ws : List (Nat × Byte)) : State :=
  match ws with
  | [] => s
  | (k, v) :: rest => (s.memWrite (headerAddr base k) v).writeHeader base rest

/-- R39: why a Get of these bytes has no meaning, if it has none (log 6). -/
def readPrecondition (p : Params) (base : Word) (ks : List Nat) : Option Refusal :=
  if windowFits base then
    if ks.all fun k => readable p (headerAddr base k) then none else some .notPlainMemory
  else some .windowWraps

/-- R39: why a Set of these bytes has no meaning, if it has none (log 6). -/
def writePrecondition (p : Params) (base : Word) (ks : List Nat) : Option Refusal :=
  if windowFits base then
    if ks.all fun k => writable p (headerAddr base k) then none else some .notPlainMemory
  else some .windowWraps

/-- The common contract of the Gets (R70): both references present, the touched bytes read once and ascending (R37), and
the value `decode_F(raw_F(B))` answered. -/
def codecGet (touched : List Nat) (value : (Nat → Byte) → Word) (buf : BufferRef) (out : Bool) (s : State) : Answer :=
  match buf with
  | none => .next (s.raise .badArgument)
  | some base =>
    match readPrecondition s.params base touched with
    | some r => .refused r
    | none =>
      if out then
        let (bs, s1) := s.readHeader base touched
        .next (s1.respond .success (value (bytesRead bs)) 0 0)
      else .next (s.raise .badArgument)

/-- The bytes a Set writes: for each touched byte, ascending, the old byte with the field's bits replaced (R38, R90).
`bits` holds `bits_F(e, k)` for the touched bytes in the same order. -/
def mergeField (masks : List (Nat × Byte)) (bits : List Byte) (B : Nat → Byte) : List (Nat × Byte) :=
  match masks, bits with
  | (k, mask) :: ms, b :: bs => (k, mergeBits mask (B k) b) :: mergeField ms bs B
  | _, _ => []

/-- The common contract of the Sets (R90): the buffer present and the value in range, checked before any access; then all
touched bytes read, then all of them written, ascending (R38). -/
def codecSet (f : HeaderField) (inRange : Bool) (bits : List Byte) (buf : BufferRef) (s : State) : Answer :=
  match buf with
  | none => .next (s.raise .badArgument)
  | some base =>
    match writePrecondition s.params base (touchedBytes f) with
    | some r => .refused r
    | none =>
      if inRange then
        let (old, s1) := s.readHeader base (touchedBytes f)
        .next ((s1.writeHeader base (mergeField (fieldBytes f) bits (bytesRead old))).respond .success 0 0 0)
      else .next (s.raise .badArgument)

/-! ## The route table -/

/-- The slot is live and holds the MessageId (R113). -/
def holdsMsg (m : Word) (sl : Slot) : Bool :=
  match sl with
  | some e => e.msgid == m
  | none => false

/-- The slot is live and holds the RouteId (R116). -/
def holdsRoute (r : Word) (sl : Slot) : Bool :=
  match sl with
  | some e => e.routeid == r
  | none => false

/-- GetRouteId: the RouteId of the live slot that holds the MessageId, over all live slots, or the invalid route (R113).
The slot is unique by INV1; where that is broken, the lowest one (log 16). -/
def routeOf (slots : List Slot) (m : Word) : Word :=
  match slots.find? (holdsMsg m) with
  | some (some e) => e.routeid
  | _ => routeInvalid

/-- The least `k` with `slot[p(m, k)]` free (R114), `none` if every slot of the probe sequence is live. The sequence visits
every slot (R111), so `none` is check (3) of R114, "for all s: slot[s].live = 1". -/
def firstFree (p : Params) (slots : List Slot) (m : Word) : Option Nat :=
  (List.range p.maxRoutes).find? fun k => slots[probe p m k]? == some none

/-- The least slot index `s ≥ c` that is live, with what it holds (R117); `i` is the index of the list's first slot. -/
def nextLive (slots : List Slot) (i c : Nat) : Option (Nat × RouteEntry) :=
  match slots with
  | [] => none
  | none :: rest => nextLive rest (i + 1) c
  | some e :: rest => if c ≤ i then some (i, e) else nextLive rest (i + 1) c

/-- R121: the route commands other than `RT_INIT` have no meaning while `rt_inited = 0`. -/
def whenInited (s : State) (answer : Answer) : Answer :=
  if s.rtInited then answer else .refused .routeTableNotInitialised

/-! ## The command port, other agents and reset -/

/-- What every step does first: the response and the accesses of the step before are over. -/
def State.quiet (s : State) : State := { s with response := none, accesses := [] }

/-- The oldest command issuer `k` has sent, taken off its queue (R43(a)). -/
def State.takeCommand (s : State) (k : Nat) : Option (Packet × State) :=
  match s.queues[k]? with
  | some (p :: rest) => some (p, { s with queues := s.queues.set k rest })
  | _ => none

/-- The commands issuer `k` has sent and the port has not taken, oldest first; none if `k` has sent none. -/
def State.pending (s : State) (k : Nat) : List Packet := (s.queues[k]?).getD []

/-- The responses sent to issuer `k` and not received, oldest first, each with its command. -/
def State.inbox (s : State) (k : Nat) : List (Packet × Response) := (s.inboxes[k]?).getD []

/-- The commands sent whose responses are not received: those that wait at the port, and those that are answered (R45(b),
R164). -/
def State.outstanding (s : State) : List Packet := s.queues.flatten ++ s.inboxes.flatten.map Prod.fst

/-- The issuers' queues with `x` put last in issuer `k`'s; an issuer the list does not reach has an empty queue. -/
def sendTo {α : Type} (queues : List (List α)) (k : Nat) (x : α) : List (List α) :=
  match queues, k with
  | [], 0 => [[x]]
  | [], k + 1 => [] :: sendTo [] k x
  | q :: rest, 0 => (q ++ [x]) :: rest
  | q :: rest, k + 1 => q :: sendTo rest k x

/-- Issuer `k` sends a command (R150(b)): it waits at the port, and nothing else changes. -/
def State.send (s : State) (k : Nat) (p : Packet) : State := { s with queues := sendTo s.queues k p }

/-- The response that stands on the response port goes to issuer `k`, as the answer to the packet (R51, R151). -/
def State.deliver (s : State) (k : Nat) (p : Packet) : State :=
  match s.response with
  | some r => { s with inboxes := sendTo s.inboxes k (p, r) }
  | none => s

/-- Issuer `k` receives the oldest response sent to it (R46, R150(b)); if there is none, nothing happens (log 7). -/
def State.receive (s : State) (k : Nat) : State := { s with inboxes := s.inboxes.modify k List.tail }

/-- Reset (R160, R23): `rt_inited = 0`, the slots unspecified (log 3), no response; parameters and buffer memory stay, and
so do the commands the port has not taken and the responses sent before (log 11). -/
def State.resetBlock (s : State) : State :=
  { s with
    rtInited := false
    slots := resetSlots s.params.maxRoutes (s.resets + 1)
    resets := s.resets + 1
    response := none }

/-- The writes among some accesses, in order. -/
def writesOf (as : List Access) : List (Nat × Byte) :=
  as.filterMap fun
    | .read _ _ => none
    | .write a v => some (a, v)

/-- Performs those of the writes that `done` marks (U7: a touched byte is either old or new); a write past the end of
`done` is not performed. -/
def performMarked (m : Memory) (ws : List (Nat × Byte)) (done : List Bool) : Memory :=
  match ws, done with
  | (a, v) :: ws, true :: ds => performMarked (m.write a v) ws ds
  | _ :: ws, false :: ds => performMarked m ws ds
  | _, _ => m

end Sys2Proof.Machine
end

