-- ==== Sys2Proof/Machine/CodecGet.lean ====
section
/-! DEFINITION. The eight Get commands (spec/40_codec_get.md), one definition each over `codecGet` (R70). Each value is the
formula of the command's own rule over the header bytes `B`. -/

namespace Sys2Proof.Machine

/-- `GET_VERSION` (R71): `B[0][7:5]`. -/
def execGetVersion (buf : BufferRef) (out : Bool) (s : State) : Answer :=
  codecGet (touchedBytes .version) (fun B => ((B 0).extractLsb' 5 3).setWidth 32) buf out s

/-- `GET_TYPE` (R72): `B[0][4]`. -/
def execGetType (buf : BufferRef) (out : Bool) (s : State) : Answer :=
  codecGet (touchedBytes .type) (fun B => ((B 0).extractLsb' 4 1).setWidth 32) buf out s

/-- `GET_SECHDR` (R73): `B[0][3]`. -/
def execGetSecHdr (buf : BufferRef) (out : Bool) (s : State) : Answer :=
  codecGet (touchedBytes .secHdr) (fun B => ((B 0).extractLsb' 3 1).setWidth 32) buf out s

/-- `GET_APID` (R74): `B[0][2:0] ‖ B[1]`. -/
def execGetApid (buf : BufferRef) (out : Bool) (s : State) : Answer :=
  codecGet (touchedBytes .apid) (fun B => ((B 0).extractLsb' 0 3 ++ B 1).setWidth 32) buf out s

/-- `GET_SEGFLAG` (R75): `B[2][7:6]`. -/
def execGetSegFlag (buf : BufferRef) (out : Bool) (s : State) : Answer :=
  codecGet (touchedBytes .segFlag) (fun B => ((B 2).extractLsb' 6 2).setWidth 32) buf out s

/-- `GET_SEQCNT` (R76): `B[2][5:0] ‖ B[3]`. -/
def execGetSeqCnt (buf : BufferRef) (out : Bool) (s : State) : Answer :=
  codecGet (touchedBytes .seqCnt) (fun B => ((B 2).extractLsb' 0 6 ++ B 3).setWidth 32) buf out s

/-- `GET_SIZE` (R77): `(B[4] ‖ B[5]) + SIZE_OFFSET`, an integer sum that R5's constraint keeps inside 32 bits. -/
def execGetSize (buf : BufferRef) (out : Bool) (s : State) : Answer :=
  codecGet (touchedBytes .size) (fun B => BitVec.ofNat 32 ((B 4 ++ B 5).toNat + s.params.sizeOffset)) buf out s

/-- `GET_MSGID` (R78): `(B[0] ‖ B[1]) & 0xF7FF`. -/
def execGetMsgId (buf : BufferRef) (out : Bool) (s : State) : Answer :=
  codecGet msgIdBytes (fun B => ((B 0 ++ B 1) &&& 0xF7FF#16).setWidth 32) buf out s

end Sys2Proof.Machine
end

