-- ==== Sys2Proof/Machine/CodecSet.lean ====
section
/-! DEFINITION. The seven Set commands (spec/41_codec_set.md), one definition each over `codecSet` (R90). Each gives its range
check and, for the touched bytes in ascending order, the byte that has the encoded value's bits at their header positions. -/

namespace Sys2Proof.Machine

/-- `SET_VERSION` (R91): `v << 5` in `B[0]`. -/
def execSetVersion (buf : BufferRef) (v : Word) (s : State) : Answer :=
  codecSet .version (versionInRange v) [v.setWidth 8 <<< 5] buf s

/-- `SET_TYPE` (R92): `v << 4` in `B[0]`. -/
def execSetType (buf : BufferRef) (v : Word) (s : State) : Answer :=
  codecSet .type (typeInRange v) [v.setWidth 8 <<< 4] buf s

/-- `SET_SECHDR` (R93): `v << 3` in `B[0]`. -/
def execSetSecHdr (buf : BufferRef) (v : Word) (s : State) : Answer :=
  codecSet .secHdr (secHdrInRange v) [v.setWidth 8 <<< 3] buf s

/-- `SET_APID` (R94): `v[10:8]` in `B[0]`, `v[7:0]` in `B[1]`. -/
def execSetApid (buf : BufferRef) (v : Word) (s : State) : Answer :=
  codecSet .apid (apidInRange v) [(v.extractLsb' 8 3).setWidth 8, v.extractLsb' 0 8] buf s

/-- `SET_SEGFLAG` (R95): `v << 6` in `B[2]`. -/
def execSetSegFlag (buf : BufferRef) (v : Word) (s : State) : Answer :=
  codecSet .segFlag (segFlagInRange v) [v.setWidth 8 <<< 6] buf s

/-- `SET_SEQCNT` (R96): `v[13:8]` in `B[2]`, `v[7:0]` in `B[3]`. -/
def execSetSeqCnt (buf : BufferRef) (v : Word) (s : State) : Answer :=
  codecSet .seqCnt (seqCntInRange v) [(v.extractLsb' 8 6).setWidth 8, v.extractLsb' 0 8] buf s

/-- `SET_SIZE` (R97): with `s = n - SIZE_OFFSET`, which is used only when `n >= SIZE_OFFSET`, `s[15:8]` in `B[4]` and
`s[7:0]` in `B[5]`. -/
def execSetSize (buf : BufferRef) (n : Word) (s : State) : Answer :=
  let sizeField := n.toNat - s.params.sizeOffset
  codecSet .size (sizeInRange s.params.sizeOffset n) [BitVec.ofNat 8 (sizeField / 2 ^ 8), BitVec.ofNat 8 sizeField] buf s

end Sys2Proof.Machine
end

