-- ==== Sys2Proof/Machine/Route.lean ====
section
/-! DEFINITION. The five route-table commands (spec/42_route_table.md), one definition each. -/

namespace Sys2Proof.Machine

/-- `RT_INIT` (R112): every slot free, `rt_inited` set. -/
def execRtInit (s : State) : Answer :=
  .next ({ s with slots := List.replicate s.params.maxRoutes none, rtInited := true }.respond .success 0 0 0)

/-- `RT_GET` (R113): the registered RouteId, or 0, and always `SUCCESS`. -/
def execRtGet (m : Word) (s : State) : Answer :=
  whenInited s (.next (s.respond .success (routeOf s.slots m) 0 0))

/-- `RT_SET` (R114): the four checks in their order, then the first free slot of the probe sequence; the answer is the
collision count (R115). Check (3) is `firstFree = none`. -/
def execRtSet (m r : Word) (s : State) : Answer :=
  whenInited s (
    if !routeIdLegal s.params.maxRoutes r then .next (s.raise .badArgument)
    else if s.slots.any (holdsMsg m) then .next (s.raise .duplicateRegistration)
    else
      match firstFree s.params s.slots m with
      | none => .next (s.raise .capacityExceeded)
      | some k =>
        if s.slots.any (holdsRoute r) then .next (s.raise .badArgument)
        else
          .next ({ s with slots := s.slots.set (probe s.params m k) (some { msgid := m, routeid := r }) }.respond
            .success (BitVec.ofNat 32 k) 0 0))

/-- `RT_DEREG` (R116): the slot that holds the RouteId becomes free. It is unique by INV2; where that is broken, the lowest
one (log 16). -/
def execRtDereg (r : Word) (s : State) : Answer :=
  whenInited s (
    if !routeIdLegal s.params.maxRoutes r then .next (s.raise .badArgument)
    else
      match s.slots.findIdx? (holdsRoute r) with
      | none => .next (s.raise .badArgument)
      | some i => .next ({ s with slots := s.slots.set i none }.respond .success 0 0 0))

/-- `RT_ITER` (R117): the first live pair at or after the cursor and the next cursor, or the end response. -/
def execRtIter (c : Word) (s : State) : Answer :=
  whenInited s (
    match nextLive s.slots 0 c.toNat with
    | some (i, e) => .next (s.respond .success e.msgid e.routeid (BitVec.ofNat 32 (i + 1)))
    | none => .next (s.respond .success 0 0 (BitVec.ofNat 32 s.params.maxRoutes)))

end Sys2Proof.Machine
end

