-- ==== Sys2Proof/Machine/Dispatch.lean ====
section
/-! DEFINITION. Which meaning each command has: one arm per constructor, one direct call each. -/

namespace Sys2Proof.Machine

-- Executes one decoded command, atomically (R42).
def exec (i : Instr) (s : State) : Host.Outcome State Fault Refusal :=
  match i with
  -- spec/40_codec_get.md
  | .getVersion buf out => Sys2Proof.Machine.execGetVersion buf out s
  | .getType buf out => Sys2Proof.Machine.execGetType buf out s
  | .getSecHdr buf out => Sys2Proof.Machine.execGetSecHdr buf out s
  | .getApid buf out => Sys2Proof.Machine.execGetApid buf out s
  | .getSegFlag buf out => Sys2Proof.Machine.execGetSegFlag buf out s
  | .getSeqCnt buf out => Sys2Proof.Machine.execGetSeqCnt buf out s
  | .getSize buf out => Sys2Proof.Machine.execGetSize buf out s
  | .getMsgId buf out => Sys2Proof.Machine.execGetMsgId buf out s
  -- spec/41_codec_set.md
  | .setVersion buf v => Sys2Proof.Machine.execSetVersion buf v s
  | .setType buf v => Sys2Proof.Machine.execSetType buf v s
  | .setSecHdr buf v => Sys2Proof.Machine.execSetSecHdr buf v s
  | .setApid buf v => Sys2Proof.Machine.execSetApid buf v s
  | .setSegFlag buf v => Sys2Proof.Machine.execSetSegFlag buf v s
  | .setSeqCnt buf v => Sys2Proof.Machine.execSetSeqCnt buf v s
  | .setSize buf n => Sys2Proof.Machine.execSetSize buf n s
  -- spec/42_route_table.md
  | .rtInit => Sys2Proof.Machine.execRtInit s
  | .rtGet m => Sys2Proof.Machine.execRtGet m s
  | .rtSet m r => Sys2Proof.Machine.execRtSet m r s
  | .rtDereg r => Sys2Proof.Machine.execRtDereg r s
  | .rtIter c => Sys2Proof.Machine.execRtIter c s

end Sys2Proof.Machine
end

