-- ==== Sys2Proof/Machine/Port.lean ====
section
/-! DEFINITION. What happens at the block's boundary in one step: an issuer sends a command (R150), the port takes one
and sends its response (R42, R43, R51, R58), an issuer receives a response (R46), an agent stores or loads a byte of buffer
memory (R45, R150), or the reset pin is asserted (R160). -/

namespace Sys2Proof.Machine

/-- Executes one packet (R57, R58): the command it stands for, or the answer to an illegal word, which is checked before
anything else (R144). -/
def runPacket (p : Packet) (s : State) : Answer :=
  match decode p with
  | some i => exec i s
  | none => .next s.answerIllegal

/-- The port takes the oldest command of issuer `k`, executes it, and sends `k` the response (R42, R43(a), R51). If `k` has sent
none, nothing reaches the block (log 7). -/
def runCommand (k : Nat) (s : State) : Answer :=
  match s.takeCommand k with
  | some (p, s1) => mapNext (fun t => t.deliver k p) (runPacket p s1)
  | none => .next s

/-- The buffer a command names (R45, R164): its base, its touched bytes, and whether it writes them. -/
def namedBuffer (i : Instr) : Option (Word × List Nat × Bool) :=
  match i with
  | .getVersion buf _ => buf.map fun base => (base, touchedBytes .version, false)
  | .getType buf _ => buf.map fun base => (base, touchedBytes .type, false)
  | .getSecHdr buf _ => buf.map fun base => (base, touchedBytes .secHdr, false)
  | .getApid buf _ => buf.map fun base => (base, touchedBytes .apid, false)
  | .getSegFlag buf _ => buf.map fun base => (base, touchedBytes .segFlag, false)
  | .getSeqCnt buf _ => buf.map fun base => (base, touchedBytes .seqCnt, false)
  | .getSize buf _ => buf.map fun base => (base, touchedBytes .size, false)
  | .getMsgId buf _ => buf.map fun base => (base, msgIdBytes, false)
  | .setVersion buf _ => buf.map fun base => (base, touchedBytes .version, true)
  | .setType buf _ => buf.map fun base => (base, touchedBytes .type, true)
  | .setSecHdr buf _ => buf.map fun base => (base, touchedBytes .secHdr, true)
  | .setApid buf _ => buf.map fun base => (base, touchedBytes .apid, true)
  | .setSegFlag buf _ => buf.map fun base => (base, touchedBytes .segFlag, true)
  | .setSeqCnt buf _ => buf.map fun base => (base, touchedBytes .seqCnt, true)
  | .setSize buf _ => buf.map fun base => (base, touchedBytes .size, true)
  | .rtInit => none
  | .rtGet _ => none
  | .rtSet _ _ => none
  | .rtDereg _ => none
  | .rtIter _ => none

/-- The packet names a buffer with a touched byte at address `a`; with `setsOnly`, and is a Set. -/
def touches (setsOnly : Bool) (a : Nat) (p : Packet) : Bool :=
  match (decode p).bind namedBuffer with
  | some (base, ks, isSet) => (isSet || !setsOnly) && ks.any fun k => headerAddr base k == a
  | none => false

/-- A command whose response is not received touches address `a` (R45(b), R164): from the event that sends it to the event that
receives the response. -/
def claimed (setsOnly : Bool) (a : Nat) (s : State) : Bool := s.outstanding.any (touches setsOnly a)

/-- An agent stores a byte (R150(b)): a race if a command whose response is not received touches it (R45(b), U4). -/
def agentStore (a : Word) (v : Byte) (s : State) : Answer :=
  if claimed false a.toNat s then .refused .dataRace
  else if writable s.params a.toNat then .next { s with mem := s.mem.write a.toNat v }
  else .refused .notPlainMemory

/-- An agent loads a byte (R150(b)): a race if a Set whose response is not received touches it (R45(b), U4). -/
def agentLoad (a : Word) (s : State) : Answer :=
  if claimed true a.toNat s then .refused .dataRace
  else if readable s.params a.toNat then .next s
  else .refused .notPlainMemory

/-- Reset while the oldest command of issuer `k` is in progress (R160, U7): the command is abandoned and sends no response,
the block's state is the reset state, and of the command's byte writes those that `done` marks have been performed. A
command the spec gives no meaning to has none here either. -/
def resetDuringCommand (k : Nat) (done : List Bool) (s : State) : Answer :=
  match s.takeCommand k with
  | none => .next s.resetBlock
  | some (p, s1) =>
    match runPacket p s1 with
    | .next t =>
      .next { s1 with mem := performMarked s1.mem (writesOf t.accesses) done }.resetBlock
    | .fault f => .fault f
    | .refused r => .refused r

/-- One event (log 7). -/
def runEvent (e : Event) (s : State) : Answer :=
  match e with
  | .send k p => .next (s.send k p)
  | .command k => runCommand k s
  | .receive k => .next (s.receive k)
  | .store a v => agentStore a v s
  | .load a => agentLoad a s
  | .reset => .next s.resetBlock
  | .resetDuring k done => resetDuringCommand k done s

end Sys2Proof.Machine
end

