-- ==== Sys2Proof/Machine/Step.lean ====
section
/-! DEFINITION. One step of the machine: the next event. -/

namespace Sys2Proof.Machine

/-- One step: what the step before left on the response port and in the record of accesses is over, and the next event
happens. With no event nothing reaches the block and nothing happens (log 7). -/
def step (s : State) : Host.Outcome State Fault Refusal :=
  match s.events with
  | [] => .next s.quiet
  | e :: rest => runEvent e { s with events := rest }.quiet

/-- The packet whose bits are `w` has been sent by an issuer that had sent none (so that no order of R43(a) is broken), and the
port takes it next (log 8). -/
def State.withFetchWord (s : State) (nbits w : Nat) : State :=
  { s.send s.queues.length (packetOfBits nbits w) with events := .command s.queues.length :: s.events }

end Sys2Proof.Machine
end

