-- ==== Sys2Proof/Safety.lean ====
section
/-! DEFINITION. The terms the statements are made in: the invariants of the state (R16 and the model's own), when a codec
command's buffer is as R39 asks, the groups of commands, what a command answers, sequences of commands, and the traffic at the command port. -/

namespace Sys2Proof.Machine

/-! ## Invariants -/

/-- INV1 (R16): no two live slots have equal `msgid`. -/
abbrev keysUnique (slots : List Slot) : Prop :=
  slots.Pairwise fun a b => ∀ e ∈ a, ∀ f ∈ b, e.msgid ≠ f.msgid

/-- INV2 (R16): no two live slots have equal `routeid`. -/
abbrev handlesUnique (slots : List Slot) : Prop :=
  slots.Pairwise fun a b => ∀ e ∈ a, ∀ f ∈ b, e.routeid ≠ f.routeid

/-- INV3 (R16): every live slot has `1 <= routeid <= MAX_ROUTES`. -/
abbrev handlesLegal (maxRoutes : Nat) (slots : List Slot) : Prop :=
  ∀ sl ∈ slots, ∀ e ∈ sl, 1 ≤ e.routeid.toNat ∧ e.routeid.toNat ≤ maxRoutes

/-- The slot invariants of R16. -/
structure SlotInv (maxRoutes : Nat) (slots : List Slot) : Prop where
  keys : keysUnique slots
  handles : handlesUnique slots
  legal : handlesLegal maxRoutes slots

/-- What every reachable state satisfies: legal parameters (R5), exactly `MAX_ROUTES` slots (R15), buffer memory in its
canonical form, and, once `RT_INIT` has run, the slot invariants of R16. -/
structure StateInv (s : State) : Prop where
  params : s.params.legal = true
  slotCount : s.slots.length = s.params.maxRoutes
  mem : s.mem.wf
  table : s.rtInited = true → SlotInv s.params.maxRoutes s.slots

/-- The slot is live with this pair (R15). -/
def LiveAt (s : State) (i : Nat) (m r : Word) : Prop := s.slots[i]? = some (some { msgid := m, routeid := r })

/-! ## Buffers -/

/-- R39 holds for a Get of these bytes: the window does not wrap and each byte is readable plain memory. -/
def CanRead (s : State) (base : Word) (ks : List Nat) : Prop :=
  base.toNat + 5 ≤ 2 ^ 32 - 1 ∧ ∀ k ∈ ks, readable s.params (headerAddr base k) = true

/-- R39 holds for a Set of these bytes: the window does not wrap and each byte is writable plain memory. -/
def CanWrite (s : State) (base : Word) (ks : List Nat) : Prop :=
  base.toNat + 5 ≤ 2 ^ 32 - 1 ∧ ∀ k ∈ ks, writable s.params (headerAddr base k) = true

/-- The reads of these header bytes, in order (R37). -/
def readsOf (m : Memory) (base : Word) (ks : List Nat) : List Access :=
  ks.map fun k => Access.read (headerAddr base k) (headerByte m base k)

/-- The writes of these header bytes with the values memory `m` holds in them, in order (R38). -/
def writesTo (m : Memory) (base : Word) (ks : List Nat) : List Access :=
  ks.map fun k => Access.write (headerAddr base k) (headerByte m base k)

/-! ## Groups of commands -/

/-- The Get of a header field (R53). -/
def getField (f : HeaderField) (buf : BufferRef) (out : Bool) : Instr :=
  match f with
  | .version => .getVersion buf out
  | .type => .getType buf out
  | .secHdr => .getSecHdr buf out
  | .apid => .getApid buf out
  | .segFlag => .getSegFlag buf out
  | .seqCnt => .getSeqCnt buf out
  | .size => .getSize buf out

/-- The Set of a header field (R53). -/
def setField (f : HeaderField) (buf : BufferRef) (v : Word) : Instr :=
  match f with
  | .version => .setVersion buf v
  | .type => .setType buf v
  | .secHdr => .setSecHdr buf v
  | .apid => .setApid buf v
  | .segFlag => .setSegFlag buf v
  | .seqCnt => .setSeqCnt buf v
  | .size => .setSize buf v

/-- The semantic range of a field's operand (R34, R99): `[0, 2^w(F))`, for Size the window of R97. -/
def InRange (p : Params) (f : HeaderField) (v : Word) : Prop :=
  match f with
  | .size => p.sizeOffset ≤ v.toNat ∧ v.toNat ≤ p.sizeOffset + 0xFFFF
  | f => v.toNat < 2 ^ fieldWidth f

/-- A command of the Get group (R52, R53). -/
def isGet (i : Instr) : Bool := (opcode i).toNat / 16 == 1

/-- A command of the Set group (R52, R53). -/
def isSet (i : Instr) : Bool := (opcode i).toNat / 16 == 2

/-- A command of the route group (R52, R53). -/
def isRoute (i : Instr) : Bool := (opcode i).toNat / 16 == 3

/-! ## What commands answer -/

/-- The response a command sends, if it sends one. -/
def answerOf (i : Instr) (s : State) : Option Response :=
  match exec i s with
  | .next t => t.response
  | .fault _ => none
  | .refused _ => none

/-- `RES0` of a command that answers `SUCCESS`. -/
def resultOf (i : Instr) (s : State) : Option Word :=
  (answerOf i s).bind fun r => if r.status = .success then some r.res0 else none

/-- Executes commands one after the other; `none` if one of them gives no next state. -/
def runAll (is : List Instr) (s : State) : Option State :=
  match is with
  | [] => some s
  | i :: rest =>
    match exec i s with
    | .next t => runAll rest t
    | .fault _ => none
    | .refused _ => none

/-- Registers pairs one after the other with `RT_SET`; `none` as soon as one does not answer `SUCCESS`. -/
def registerAll (ps : List (Word × Word)) (s : State) : Option State :=
  match ps with
  | [] => some s
  | (m, r) :: rest =>
    match exec (.rtSet m r) s with
    | .next t =>
      match t.response with
      | some a => if a.status = .success then registerAll rest t else none
      | none => none
    | .fault _ => none
    | .refused _ => none

/-- The iteration protocol of R118 from cursor `c`, with at most `fuel` commands: the pairs emitted. -/
def dump (fuel : Nat) (c : Word) (s : State) : List RouteEntry :=
  match fuel with
  | 0 => []
  | n + 1 =>
    match exec (.rtIter c) s with
    | .next t =>
      match t.response with
      | some a => if a.res1 = 0 then [] else { msgid := a.res0, routeid := a.res1 } :: dump n a.res2 t
      | none => []
    | .fault _ => []
    | .refused _ => []

/-! ## The traffic at the command port -/

/-- What the next step sends for issuer `k`. -/
def sentBy (k : Nat) (s : State) : List Packet :=
  match s.events with
  | .send j p :: _ => if j = k then [p] else []
  | _ => []

/-- What the next step takes from issuer `k`: its oldest command, executed or cut by reset. -/
def takenBy (k : Nat) (s : State) : List Packet :=
  match s.events with
  | .command j :: _ => if j = k then (s.pending k).take 1 else []
  | .resetDuring j _ :: _ => if j = k then (s.pending k).take 1 else []
  | _ => []

/-- `n` steps: the commands of issuer `k` sent in them, those taken, each in order, and the state after them; `none` if a step
gives no next state. -/
def traffic (n k : Nat) (s : State) : Option (List Packet × List Packet × State) :=
  match n with
  | 0 => some ([], [], s)
  | n + 1 =>
    match step s with
    | .next t =>
      match traffic n k t with
      | some (sent, taken, u) => some (sentBy k s ++ sent, takenBy k s ++ taken, u)
      | none => none
    | .fault _ => none
    | .refused _ => none

/-- A codec command whose response is not received touches address `a` (R45(b)). -/
def TouchedByOutstanding (s : State) (a : Nat) : Prop :=
  ∃ p ∈ s.outstanding, ∃ i base ks w, decode p = some i ∧ namedBuffer i = some (base, ks, w) ∧ ∃ k ∈ ks, a = headerAddr base k

/-- A Set whose response is not received touches address `a` (R45(b)). -/
def TouchedByOutstandingSet (s : State) (a : Nat) : Prop :=
  ∃ p ∈ s.outstanding, ∃ i base ks w, decode p = some i ∧ isSet i = true ∧ namedBuffer i = some (base, ks, w) ∧
    ∃ k ∈ ks, a = headerAddr base k

end Sys2Proof.Machine
end

