-- ==== Sys2Proof/Certificates/Slice0/Obligations.lean ====
section
/-! DEFINITION. What is claimed of the machine, for the provers: statements from the numbered rules of spec/, with the
contracts several of them share. A docstring names the rules; where a rule is the spec's own decision or derivation it names
that too, and where a clause rests on a choice of this model it names the log entry. -/

namespace Sys2Proof.Machine

/-! ## Contracts the statements share -/

/-- Everything but the response and the record of accesses is as before. -/
def OnlyAnswers (s t : State) : Prop :=
  t.params = s.params ∧ t.rtInited = s.rtInited ∧ t.slots = s.slots ∧ t.mem = s.mem ∧ t.queues = s.queues ∧
    t.inboxes = s.inboxes ∧ t.events = s.events ∧ t.resets = s.resets

/-- Everything but buffer memory, the response and the record of accesses is as before. -/
def OnlyWritesBuffer (s t : State) : Prop :=
  t.params = s.params ∧ t.rtInited = s.rtInited ∧ t.slots = s.slots ∧ t.queues = s.queues ∧ t.inboxes = s.inboxes ∧
    t.events = s.events ∧ t.resets = s.resets

/-- Everything but the slots, `rt_inited` and the response is as before. -/
def OnlyChangesTable (s t : State) : Prop :=
  t.params = s.params ∧ t.mem = s.mem ∧ t.queues = s.queues ∧ t.inboxes = s.inboxes ∧ t.events = s.events ∧
    t.accesses = s.accesses ∧ t.resets = s.resets

/-- The command answers `SUCCESS` with this result; it reads the bytes `ks` of the buffer at `base`, each once and in this
order, and changes nothing (its reads stand in the model's record of accesses, log 10). -/
def AnswersValue (i : Instr) (s : State) (base : Word) (ks : List Nat) (n : Nat) : Prop :=
  ∃ t r, exec i s = .next t ∧ t.response = some r ∧ r.status = .success ∧ r.res0.toNat = n ∧ r.res1 = 0 ∧ r.res2 = 0 ∧
    OnlyAnswers s t ∧ t.accesses = s.accesses ++ readsOf s.mem base ks

/-- The command answers this error and changes nothing at all but the response (R145, R147). -/
def AnswersError (i : Instr) (s : State) (st : Status) : Prop :=
  exec i s = .next { s with response := some { status := st, res0 := 0, res1 := 0, res2 := 0 } }

/-- The command is encoded by this opcode with any value of `BP` and `OP` (R52, R54), `ARG0` ignored, `ARG1` the base
address when `BP = 1` (R55). -/
def GetEncoding (opc : Nat) (mk : BufferRef → Bool → Instr) : Prop :=
  ∀ (bp out : Bool) (a0 a1 : Word),
    decode { cmd := BitVec.ofNat 32 (opc + (if bp then 2 ^ 8 else 0) + (if out then 2 ^ 9 else 0)), arg0 := a0, arg1 := a1 } =
      some (mk (if bp then some a1 else none) out)

/-- The Get answers `BadArgument` when a reference is absent (R70). -/
def GetFailures (mk : BufferRef → Bool → Instr) (ks : List Nat) : Prop :=
  (∀ s out, AnswersError (mk none out) s .badArgument) ∧
  (∀ s base, CanRead s base ks → AnswersError (mk (some base) false) s .badArgument)

/-- A Get with this opcode, these touched bytes and this value of the header bytes. -/
def GetContract (opc : Nat) (mk : BufferRef → Bool → Instr) (ks : List Nat) (value : (Nat → Byte) → Nat) : Prop :=
  GetEncoding opc mk ∧ GetFailures mk ks ∧
  ∀ s base, CanRead s base ks → AnswersValue (mk (some base) true) s base ks (value (headerByte s.mem base))

/-- A Set with this opcode, these touched bytes, this range of the operand, and for each touched byte this new value from the
old header bytes; it reads the touched bytes and then writes them (on record, log 10). `OP = 1` is no encoding of it (R54). -/
def SetContract (opc : Nat) (mk : BufferRef → Word → Instr) (ks : List Nat) (inRange : Params → Nat → Prop)
    (newByte : Params → (Nat → Byte) → Nat → Nat → Nat) : Prop :=
  (∀ (bp : Bool) (a0 a1 : Word),
    decode { cmd := BitVec.ofNat 32 (opc + (if bp then 2 ^ 8 else 0)), arg0 := a0, arg1 := a1 } =
      some (mk (if bp then some a1 else none) a0)) ∧
  (∀ (bp : Bool) (a0 a1 : Word),
    decode { cmd := BitVec.ofNat 32 (opc + (if bp then 2 ^ 8 else 0) + 2 ^ 9), arg0 := a0, arg1 := a1 } = none) ∧
  (∀ s v, AnswersError (mk none v) s .badArgument) ∧
  (∀ s base v, CanWrite s base ks → ¬ inRange s.params v.toNat → AnswersError (mk (some base) v) s .badArgument) ∧
  ∀ s base v, s.mem.wf → CanWrite s base ks → inRange s.params v.toNat →
    ∃ t, exec (mk (some base) v) s = .next t ∧
      t.response = some { status := .success, res0 := 0, res1 := 0, res2 := 0 } ∧
      (∀ k ∈ ks, (headerByte t.mem base k).toNat = newByte s.params (headerByte s.mem base) v.toNat k) ∧
      (∀ a, (∀ k ∈ ks, a ≠ headerAddr base k) → t.mem.read a = s.mem.read a) ∧
      OnlyWritesBuffer s t ∧ t.accesses = s.accesses ++ readsOf s.mem base ks ++ writesTo t.mem base ks

end Sys2Proof.Machine

open Sys2Proof Sys2Proof.Machine

/-! ## Encoding -/

/-- R50 to R55: no operand of any command is lost by encoding it, as a packet or as R50's 96-bit pattern. -/
def Obligations.DecodeOfEncodeIsTheCommand : Prop :=
  ∀ i : Instr, decode (encode i) = some i ∧ decodePattern (encodePattern i) = some i

/-- R55 with R60: a packet that decodes is the encoding of what it decodes to, but for the ignored fields, which the encoder
puts to 0. -/
def Obligations.EncodeOfDecodedZeroesIgnoredFieldsOnly : Prop :=
  ∀ (p : Packet) (i : Instr), decode p = some i →
    (encode i).cmd = p.cmd ∧
    (encode i).arg0 = (if isGet i || i == .rtInit || (opcode i == 0x33) then 0 else p.arg0) ∧
    (encode i).arg1 =
      (if isRoute i then (if opcode i == 0x32 || opcode i == 0x33 then p.arg1 else 0)
       else if p.bp then p.arg1 else 0)

/-- R57 (the spec's decision D8): the decoder refuses exactly the packets that one of R57's four causes makes illegal. -/
def Obligations.DecoderRefusesExactlyTheIllegalWords : Prop :=
  ∀ p : Packet, decode p = none ↔
    (p.cmd.toNat / 2 ^ 10 ≠ 0 ∨
      ¬ ((0x10 ≤ p.opc ∧ p.opc ≤ 0x17) ∨ (0x20 ≤ p.opc ∧ p.opc ≤ 0x26) ∨ (0x30 ≤ p.opc ∧ p.opc ≤ 0x34)) ∨
      (p.opc / 16 = 2 ∧ p.op = true) ∨
      (p.opc / 16 = 3 ∧ (p.bp = true ∨ p.op = true)))

/-- The rows of spec/opcode_table.json, match and mask over the command word (R50, R53): a word that matches a row decodes to
that row's command, and a word that decodes matches its command's row. -/
def Obligations.DecoderAgreesWithOpcodeTable : Prop :=
  ∀ (p : Packet) (row : Word × Word),
    row ∈ [(0x00000010#32, 0xFFFFFCFF#32), (0x00000011#32, 0xFFFFFCFF#32), (0x00000012#32, 0xFFFFFCFF#32),
        (0x00000013#32, 0xFFFFFCFF#32), (0x00000014#32, 0xFFFFFCFF#32), (0x00000015#32, 0xFFFFFCFF#32),
        (0x00000016#32, 0xFFFFFCFF#32), (0x00000017#32, 0xFFFFFCFF#32), (0x00000020#32, 0xFFFFFEFF#32),
        (0x00000021#32, 0xFFFFFEFF#32)] ++
      [(0x00000022#32, 0xFFFFFEFF#32), (0x00000023#32, 0xFFFFFEFF#32), (0x00000024#32, 0xFFFFFEFF#32),
        (0x00000025#32, 0xFFFFFEFF#32), (0x00000026#32, 0xFFFFFEFF#32), (0x00000030#32, 0xFFFFFFFF#32),
        (0x00000031#32, 0xFFFFFFFF#32), (0x00000032#32, 0xFFFFFFFF#32), (0x00000033#32, 0xFFFFFFFF#32),
        (0x00000034#32, 0xFFFFFFFF#32)] →
      (p.cmd &&& row.2 = row.1 ↔ ∃ i, decode p = some i ∧ (opcode i).setWidth 32 = row.1)

/-- The encoding examples of 30_encoding.md section 7, word by word, decode to the commands they stand for; and so do two of
them as R50's 96-bit pattern, `CMD` most significant. -/
def Obligations.EncodingExamplesDecode : Prop :=
  decode ⟨0x00000313, 0, 0x1000⟩ = some (.getApid (some 0x1000) true) ∧
  decode ⟨0x00000113, 0, 0x1000⟩ = some (.getApid (some 0x1000) false) ∧
  decode ⟨0x00000213, 0, 0⟩ = some (.getApid none true) ∧
  decode ⟨0x00000123, 0x7FF, 0x1000⟩ = some (.setApid (some 0x1000) 0x7FF) ∧
  decode ⟨0x00000026, 0x10, 0⟩ = some (.setSize none 16) ∧
  decode ⟨0x00000030, 0, 0⟩ = some .rtInit ∧
  decode ⟨0x00000032, 0x1006, 1⟩ = some (.rtSet 0x1006 1) ∧
  decode ⟨0x00000034, 0, 0⟩ = some (.rtIter 0) ∧
  decode ⟨0x00000323, 5, 0x1000⟩ = none ∧
  decodePattern 0x000001230000_07FF00001000#96 = some (.setApid (some 0x1000) 0x7FF) ∧
  decodePattern 0x000000320000_100600000001#96 = some (.rtSet 0x1006 1)

/-! ## The command port -/

/-- R42, R43(a): a step whose event is a command takes the issuer's oldest command off its queue and executes exactly it, on
the state with the event and the command gone and the last response and record of accesses cleared; the response goes to that
issuer (logs 7, 9, 10). -/
def Obligations.StepExecutesTheDecodedCommand : Prop :=
  ∀ (s : State) (k : Nat) (es : List Event) (p : Packet) (rest : List Packet) (i : Instr),
    s.events = .command k :: es → s.queues[k]? = some (p :: rest) → decode p = some i →
      step s = mapNext (fun t => t.deliver k p)
        (exec i { s with events := es, queues := s.queues.set k rest, response := none, accesses := [] })

/-- R43(a) (the spec's decision D29): over any number of steps, the commands an issuer had waiting followed by those it sends
are those the port takes from it followed by those that wait at the end: the port takes each issuer's commands in the order it
sent them, none before it is sent and none twice. Sending changes nothing but that issuer's queue, receiving a response nothing but
that issuer's inbox, and both always complete. Sending, taking and receiving are events of the model (log 7). -/
def Obligations.CommandsOfAnIssuerAreTakenInTheOrderSent : Prop :=
  (∀ (n k : Nat) (s t : State) (sent taken : List Packet), traffic n k s = some (sent, taken, t) →
    s.pending k ++ sent = taken ++ t.pending k) ∧
  (∀ (s : State) (k : Nat) (p : Packet) (es : List Event), s.events = .send k p :: es →
    ∃ t, step s = .next t ∧ t.pending k = s.pending k ++ [p] ∧ (∀ j, j ≠ k → t.pending j = s.pending j) ∧
      t = { s with events := es, queues := t.queues, response := none, accesses := [] }) ∧
  ∀ (s : State) (k : Nat) (es : List Event), s.events = .receive k :: es →
    ∃ t, step s = .next t ∧ t.inbox k = (s.inbox k).tail ∧ (∀ j, j ≠ k → t.inbox j = s.inbox j) ∧
      t = { s with events := es, inboxes := t.inboxes, response := none, accesses := [] }

/-- R58 (the spec's decision D8): an illegal command is answered `BAD_ARGUMENT` with zeros; it changes no state, reads no
buffer byte and writes none, whatever `rt_inited` is. The step's own bookkeeping is that of logs 7, 9 and 10. -/
def Obligations.IllegalCommandIsAnsweredBadArgument : Prop :=
  ∀ (s : State) (k : Nat) (es : List Event) (p : Packet) (rest : List Packet),
    s.events = .command k :: es → s.queues[k]? = some (p :: rest) → p.illegal = true →
      step s = .next
        { s with
          events := es
          queues := s.queues.set k rest
          inboxes := sendTo s.inboxes k (p, { status := .badArgument, res0 := 0, res1 := 0, res2 := 0 })
          response := some { status := .badArgument, res0 := 0, res1 := 0, res2 := 0 }
          accesses := [] }

/-- R51: every command that completes sends exactly one response; on an error its results are 0, and `RES1`, `RES2` are 0
but for `RT_ITER`; and the step sends it to the issuer of the command, as its last response not received, and none to any other
(R151). A model's choice: where the response stands, log 9. -/
def Obligations.EveryCompletedCommandSendsOneResponse : Prop :=
  (∀ (p : Packet) (s t : State), runPacket p s = .next t →
    ∃ r, t.response = some r ∧
      (r.status ≠ .success → r.res0 = 0 ∧ r.res1 = 0 ∧ r.res2 = 0) ∧
      ((∀ c, decode p ≠ some (.rtIter c)) → r.res1 = 0 ∧ r.res2 = 0)) ∧
  ∀ (s t : State) (k : Nat) (es : List Event) (p : Packet) (rest : List Packet),
    s.events = .command k :: es → s.queues[k]? = some (p :: rest) → step s = .next t →
      ∃ r, t.response = some r ∧ t.inbox k = s.inbox k ++ [(p, r)] ∧ ∀ j, j ≠ k → t.inbox j = s.inbox j

/-- R147 (derived in the spec): a command whose `STATUS` is not `SUCCESS` has changed no route slot, not `rt_inited`, no byte
of any buffer, and has made no buffer access: nothing but the response is changed. -/
def Obligations.ErrorChangesNothing : Prop :=
  ∀ (p : Packet) (s t : State) (r : Response), runPacket p s = .next t → t.response = some r → r.status ≠ .success →
    t = { s with response := some r }

/-- R140 (numbers by the spec's decision D6): the four codes, and no other, appear in `STATUS`. -/
def Obligations.StatusCodesAreTheFour : Prop :=
  (∀ r : Response, r.words = [r.status.code, r.res0, r.res1, r.res2]) ∧
  Status.code .success = 0 ∧ Status.code .badArgument = 1 ∧ Status.code .capacityExceeded = 2 ∧
    Status.code .duplicateRegistration = 3 ∧ ∀ st : Status, (st.code).toNat < 4

/-- R2: no codec command reads or writes route-table state, and no route-table command reads or writes a message buffer. -/
def Obligations.UnitsAreIndependent : Prop :=
  (∀ (i : Instr) (s : State) (inited : Bool) (slots : List Slot), isGet i || isSet i →
    exec i { s with rtInited := inited, slots := slots } =
      mapNext (fun t => { t with rtInited := inited, slots := slots }) (exec i s)) ∧
  ∀ (i : Instr) (s : State) (m : Memory), isRoute i →
    exec i { s with mem := m } = mapNext (fun t => { t with mem := m }) (exec i s)

/-! ## The Get commands -/

/-- R71, in the contract of R70; its encoding is the spec's decisions D4 and D5, the order of its reads D14 (on record,
log 10). -/
def Obligations.GetVersionAnswersBits7to5OfByte0 : Prop :=
  GetContract 0x10 .getVersion [0] fun B => (B 0).toNat / 2 ^ 5

/-- R72, in the contract of R70; its encoding is the spec's decisions D4 and D5, the order of its reads D14 (on record,
log 10). -/
def Obligations.GetTypeAnswersBit4OfByte0 : Prop :=
  GetContract 0x11 .getType [0] fun B => (B 0).toNat / 2 ^ 4 % 2

/-- R73, in the contract of R70; its encoding is the spec's decisions D4 and D5, the order of its reads D14 (on record,
log 10). -/
def Obligations.GetSecHdrAnswersBit3OfByte0 : Prop :=
  GetContract 0x12 .getSecHdr [0] fun B => (B 0).toNat / 2 ^ 3 % 2

/-- R74, in the contract of R70; its encoding is the spec's decisions D4 and D5, the order of its reads D14 (on record,
log 10). -/
def Obligations.GetApidAnswersLow3BitsOfByte0ThenByte1 : Prop :=
  GetContract 0x13 .getApid [0, 1] fun B => (B 0).toNat % 2 ^ 3 * 2 ^ 8 + (B 1).toNat

/-- R75, in the contract of R70; its encoding is the spec's decisions D4 and D5, the order of its reads D14 (on record,
log 10). -/
def Obligations.GetSegFlagAnswersBits7to6OfByte2 : Prop :=
  GetContract 0x14 .getSegFlag [2] fun B => (B 2).toNat / 2 ^ 6

/-- R76, in the contract of R70; its encoding is the spec's decisions D4 and D5, the order of its reads D14 (on record,
log 10). -/
def Obligations.GetSeqCntAnswersLow6BitsOfByte2ThenByte3 : Prop :=
  GetContract 0x15 .getSeqCnt [2, 3] fun B => (B 2).toNat % 2 ^ 6 * 2 ^ 8 + (B 3).toNat

/-- R77, in the contract of R70 (decisions D4, D5 and D14, log 10): the sum is computed without wrap-around; the parameters'
constraint of R5 is the one hypothesis beyond R39. -/
def Obligations.GetSizeAnswersSizeFieldPlusOffset : Prop :=
  GetEncoding 0x16 .getSize ∧ GetFailures .getSize [4, 5] ∧
  ∀ s base, s.params.legal = true → CanRead s base [4, 5] →
    AnswersValue (.getSize (some base) true) s base [4, 5]
      ((headerByte s.mem base 4).toNat * 2 ^ 8 + (headerByte s.mem base 5).toNat + s.params.sizeOffset)

/-- R78 (the combination is the spec's decision D17), in the contract of R70 (decisions D4, D5 and D14, log 10):
Version at [15:13], Type at [12], 0 at [11], ApplicationId at [10:0]. -/
def Obligations.GetMsgIdAnswersVersionTypeAndApid : Prop :=
  GetContract 0x17 .getMsgId [0, 1] fun B =>
    (B 0).toNat / 2 ^ 5 * 2 ^ 13 + (B 0).toNat / 2 ^ 4 % 2 * 2 ^ 12 + ((B 0).toNat % 2 ^ 3 * 2 ^ 8 + (B 1).toNat)

/-- R78: two headers have equal MessageId exactly when their Version, Type and ApplicationId are all equal. -/
def Obligations.MsgIdsAgreeExactlyWhenTheirFieldsDo : Prop :=
  ∀ (s : State) (b1 b2 : Word), CanRead s b1 [0, 1] → CanRead s b2 [0, 1] →
    (resultOf (.getMsgId (some b1) true) s = resultOf (.getMsgId (some b2) true) s ↔
      resultOf (.getVersion (some b1) true) s = resultOf (.getVersion (some b2) true) s ∧
      resultOf (.getType (some b1) true) s = resultOf (.getType (some b2) true) s ∧
      resultOf (.getApid (some b1) true) s = resultOf (.getApid (some b2) true) s) ∧
    ∃ v, resultOf (.getMsgId (some b1) true) s = some v ∧ v.getLsbD 11 = false ∧ v.toNat ≤ 0xF7FF

/-- R41, R70: the frame of all eight Gets. A Get changes nothing but the response and the record of accesses; every byte of
buffer memory reads as before. -/
def Obligations.GetChangesOnlyTheResponse : Prop :=
  ∀ (i : Instr) (s t : State), isGet i → exec i s = .next t →
    OnlyAnswers s t ∧ ∀ a, t.mem.read a = s.mem.read a

/-- R79 (derived in the spec): the result of a Get depends only on the header bits of its field. -/
def Obligations.GetDependsOnlyOnItsFieldsBits : Prop :=
  ∀ (f : HeaderField) (s1 s2 : State) (b1 b2 : Word), s1.params = s2.params →
    CanRead s1 b1 (touchedBytes f) → CanRead s2 b2 (touchedBytes f) →
    (∀ i, fieldOffset f ≤ i → i < fieldOffset f + fieldWidth f →
      headerBit (headerByte s1.mem b1) i = headerBit (headerByte s2.mem b2) i) →
    ∃ r, answerOf (getField f (some b1) true) s1 = some r ∧ answerOf (getField f (some b2) true) s2 = some r ∧
      r.status = .success

/-- R9, R34, R35 (derived in the spec): every Get answers the raw value by the one general formula over the 48-bit header
(for Size, plus the offset of R77), and the slice of the big-endian 16-bit word view; a little-endian load gives that word
swapped. -/
def Obligations.GetAnswersTheGeneralRawValueAndTheWordSlice : Prop :=
  (∀ (f : HeaderField) (s : State) (base : Word), CanRead s base (touchedBytes f) →
    resultOf (getField f (some base) true) s =
        some (BitVec.ofNat 32 (rawField f (headerByte s.mem base) + if f = .size then s.params.sizeOffset else 0)) ∧
      rawField f (headerByte s.mem base) =
        match f with
        | .version => ((headerWord (headerByte s.mem base) 0).extractLsb' 13 3).toNat
        | .type => ((headerWord (headerByte s.mem base) 0).extractLsb' 12 1).toNat
        | .secHdr => ((headerWord (headerByte s.mem base) 0).extractLsb' 11 1).toNat
        | .apid => ((headerWord (headerByte s.mem base) 0).extractLsb' 0 11).toNat
        | .segFlag => ((headerWord (headerByte s.mem base) 1).extractLsb' 14 2).toNat
        | .seqCnt => ((headerWord (headerByte s.mem base) 1).extractLsb' 0 14).toNat
        | .size => (headerWord (headerByte s.mem base) 2).toNat) ∧
  ∀ (B : Nat → Byte) (j : Nat), swap16 (headerWord B j) = B (2 * j + 1) ++ B (2 * j)

/-! ## The Set commands -/

/-- R91, in the contract of R90; its encoding is the spec's decisions D4, D5 and D8, the order of its accesses D14 (on record,
log 10). -/
def Obligations.SetVersionReplacesBits7to5OfByte0 : Prop :=
  SetContract 0x20 .setVersion [0] (fun _ v => v ≤ 7) fun _ B v _ => (B 0).toNat % 2 ^ 5 + v * 2 ^ 5

/-- R92, in the contract of R90; its encoding is the spec's decisions D4, D5 and D8, the order of its accesses D14 (on record,
log 10). -/
def Obligations.SetTypeReplacesBit4OfByte0 : Prop :=
  SetContract 0x21 .setType [0] (fun _ v => v = 0 ∨ v = 1) fun _ B v _ =>
    (B 0).toNat / 2 ^ 5 * 2 ^ 5 + v * 2 ^ 4 + (B 0).toNat % 2 ^ 4

/-- R93 (which operands are booleans is the spec's decision D10), in the contract of R90 (decisions D4, D5, D8 and D14,
log 10). -/
def Obligations.SetSecHdrReplacesBit3OfByte0 : Prop :=
  SetContract 0x22 .setSecHdr [0] (fun _ v => v = 0 ∨ v = 1) fun _ B v _ =>
    (B 0).toNat / 2 ^ 4 * 2 ^ 4 + v * 2 ^ 3 + (B 0).toNat % 2 ^ 3

/-- R94, in the contract of R90; its encoding is the spec's decisions D4, D5 and D8, the order of its accesses D14 (on record,
log 10). -/
def Obligations.SetApidReplacesLow3BitsOfByte0AndByte1 : Prop :=
  SetContract 0x23 .setApid [0, 1] (fun _ v => v ≤ 0x7FF) fun _ B v k =>
    if k = 0 then (B 0).toNat / 2 ^ 3 * 2 ^ 3 + v / 2 ^ 8 else v % 2 ^ 8

/-- R95, in the contract of R90; its encoding is the spec's decisions D4, D5 and D8, the order of its accesses D14 (on record,
log 10). -/
def Obligations.SetSegFlagReplacesBits7to6OfByte2 : Prop :=
  SetContract 0x24 .setSegFlag [2] (fun _ v => v ≤ 3) fun _ B v _ => (B 2).toNat % 2 ^ 6 + v * 2 ^ 6

/-- R96, in the contract of R90; its encoding is the spec's decisions D4, D5 and D8, the order of its accesses D14 (on record,
log 10). -/
def Obligations.SetSeqCntReplacesLow6BitsOfByte2AndByte3 : Prop :=
  SetContract 0x25 .setSeqCnt [2, 3] (fun _ v => v ≤ 0x3FFF) fun _ B v k =>
    if k = 2 then (B 2).toNat / 2 ^ 6 * 2 ^ 6 + v / 2 ^ 8 else v % 2 ^ 8

/-- R97, in the contract of R90 (decisions D4, D5, D8 and D14, log 10): the window is
`[SIZE_OFFSET, SIZE_OFFSET + 0xFFFF]`, compared without wrap, and 0 is outside it (R5). -/
def Obligations.SetSizeWritesTotalLengthMinusOffset : Prop :=
  SetContract 0x26 .setSize [4, 5] (fun p n => p.sizeOffset ≤ n ∧ n ≤ p.sizeOffset + 0xFFFF)
    (fun p _ n k => if k = 4 then (n - p.sizeOffset) / 2 ^ 8 else (n - p.sizeOffset) % 2 ^ 8) ∧
  ∀ s base, s.params.legal = true → CanWrite s base [4, 5] → AnswersError (.setSize (some base) 0) s .badArgument

/-- R36, R37, R38 (the spec's decision D14): the byte accesses of a successful codec command. A Get reads each touched byte
exactly once, in ascending order, and writes nothing; a Set reads each touched byte once, ascending, and then writes each once,
ascending. The model's record of accesses is log 10. -/
def Obligations.CodecAccessesAreTheTouchedBytesInOrder : Prop :=
  (∀ (f : HeaderField) (s : State) (base : Word), CanRead s base (touchedBytes f) →
    ∃ t, exec (getField f (some base) true) s = .next t ∧
      t.accesses = s.accesses ++ readsOf s.mem base (touchedBytes f)) ∧
  (∀ (s : State) (base : Word), CanRead s base [0, 1] →
    ∃ t, exec (.getMsgId (some base) true) s = .next t ∧ t.accesses = s.accesses ++ readsOf s.mem base [0, 1]) ∧
  (∀ (f : HeaderField) (s : State) (base v : Word), s.mem.wf → CanWrite s base (touchedBytes f) → InRange s.params f v →
    ∃ t, exec (setField f (some base) v) s = .next t ∧
      t.accesses = s.accesses ++ readsOf s.mem base (touchedBytes f) ++ writesTo t.mem base (touchedBytes f)) ∧
  ∀ f : HeaderField, (touchedBytes f).Pairwise (· < ·)

/-- R31, R38, R90: the frame of all seven Sets. A Set changes nothing but buffer memory, the response and the record of
accesses, and in buffer memory only the touched bytes of the buffer it names. -/
def Obligations.SetChangesOnlyItsTouchedBytes : Prop :=
  ∀ (i : Instr) (s t : State), isSet i → exec i s = .next t →
    OnlyWritesBuffer s t ∧
    ∀ a, (∀ base ks w, namedBuffer i = some (base, ks, w) → ∀ k ∈ ks, a ≠ headerAddr base k) →
      t.mem.read a = s.mem.read a

/-- R98 (derived in the spec): after a successful Set of one field every other field's Get answers as before, every header
bit outside the field's range is as before, every other byte is as before, and the MessageId changes exactly when Version,
Type or ApplicationId does. -/
def Obligations.SetLeavesEveryOtherFieldAlone : Prop :=
  ∀ (f : HeaderField) (s : State) (base v : Word), s.mem.wf → CanWrite s base (touchedBytes f) → InRange s.params f v →
    ∃ t, exec (setField f (some base) v) s = .next t ∧
      t.response = some { status := .success, res0 := 0, res1 := 0, res2 := 0 } ∧
      (∀ g, g ≠ f → resultOf (getField g (some base) true) t = resultOf (getField g (some base) true) s) ∧
      (∀ i < 48, i < fieldOffset f ∨ fieldOffset f + fieldWidth f ≤ i →
        headerBit (headerByte t.mem base) i = headerBit (headerByte s.mem base) i) ∧
      (∀ a, (∀ k ∈ touchedBytes f, a ≠ headerAddr base k) → t.mem.read a = s.mem.read a) ∧
      (CanRead s base [0, 1] →
        (resultOf (.getMsgId (some base) true) t = resultOf (.getMsgId (some base) true) s ↔
          ∀ g ∈ [HeaderField.version, .type, .apid],
            resultOf (getField g (some base) true) t = resultOf (getField g (some base) true) s))

/-- R99 (its second half is derived in the spec): a Set in range followed by the Get of the same field answers the value set;
a Set out of range leaves the Get's answer and all of memory as they were; and setting a field to what its Get answers always
succeeds and leaves buffer memory as it was. -/
def Obligations.GetAndSetRoundTrip : Prop :=
  (∀ (f : HeaderField) (s : State) (base v : Word), s.mem.wf → CanWrite s base (touchedBytes f) → InRange s.params f v →
    ∃ t, exec (setField f (some base) v) s = .next t ∧
      t.response = some { status := .success, res0 := 0, res1 := 0, res2 := 0 } ∧
      resultOf (getField f (some base) true) t = some v) ∧
  (∀ (f : HeaderField) (s : State) (base v : Word), CanWrite s base (touchedBytes f) → ¬ InRange s.params f v →
    ∃ t, exec (setField f (some base) v) s = .next t ∧
      t.response = some { status := .badArgument, res0 := 0, res1 := 0, res2 := 0 } ∧
      t.mem = s.mem ∧ resultOf (getField f (some base) true) t = resultOf (getField f (some base) true) s) ∧
  ∀ (f : HeaderField) (s : State) (base : Word), s.params.legal = true → s.mem.wf → CanWrite s base (touchedBytes f) →
    ∃ v t, resultOf (getField f (some base) true) s = some v ∧ exec (setField f (some base) v) s = .next t ∧
      t.response = some { status := .success, res0 := 0, res1 := 0, res2 := 0 } ∧ t.mem = s.mem

/-- R41 (derived in the spec): a codec command that completes and is executed again answers the same and leaves buffer memory
as the first execution left it. -/
def Obligations.CodecCommandsAreIdempotent : Prop :=
  ∀ (i : Instr) (s t : State), isGet i || isSet i → s.mem.wf → exec i s = .next t →
    ∃ u, exec i t = .next u ∧ u.mem = t.mem ∧ u.response = t.response

/-- R39 (the spec's decision D15): a codec command that names a buffer whose window wraps, or with a touched byte that is not
readable (for a Set, writable) plain memory, is refused. That R39 comes before the command's own checks is log 6. -/
def Obligations.BrokenBufferIsRefused : Prop :=
  ∀ (i : Instr) (s : State) (base : Word) (ks : List Nat) (w : Bool), namedBuffer i = some (base, ks, w) →
    (2 ^ 32 - 1 < base.toNat + 5 → exec i s = .refused .windowWraps) ∧
    (base.toNat + 5 ≤ 2 ^ 32 - 1 → isGet i → (∃ k ∈ ks, readable s.params (headerAddr base k) = false) →
      exec i s = .refused .notPlainMemory) ∧
    (base.toNat + 5 ≤ 2 ^ 32 - 1 → isSet i → (∃ k ∈ ks, writable s.params (headerAddr base k) = false) →
      exec i s = .refused .notPlainMemory)

/-! ## The route table commands -/

/-- R112 (that a second `RT_INIT` is defined is the spec's decision D28): every slot is free, `rt_inited` is 1, whatever the
state was. -/
def Obligations.RtInitEmptiesTheTable : Prop :=
  (∀ a0 a1 : Word, decode { cmd := 0x30, arg0 := a0, arg1 := a1 } = some .rtInit) ∧
  ∀ s : State, ∃ t, exec .rtInit s = .next t ∧
    t.response = some { status := .success, res0 := 0, res1 := 0, res2 := 0 } ∧ t.rtInited = true ∧
    t.slots.length = s.params.maxRoutes ∧ (∀ i < s.params.maxRoutes, t.slots[i]? = some none) ∧ OnlyChangesTable s t

/-- R113 (how it searches is the spec's decision D24): the registered RouteId wherever the live slot is, else 0; always
`SUCCESS`; nothing changes. -/
def Obligations.RtGetAnswersTheRegisteredRoute : Prop :=
  (∀ a0 a1 : Word, decode { cmd := 0x31, arg0 := a0, arg1 := a1 } = some (.rtGet a0)) ∧
  ∀ (s : State) (m : Word), StateInv s → s.rtInited = true →
    (∀ i r, LiveAt s i m r →
      exec (.rtGet m) s = .next { s with response := some { status := .success, res0 := r, res1 := 0, res2 := 0 } }) ∧
    ((∀ i r, ¬ LiveAt s i m r) →
      exec (.rtGet m) s = .next { s with response := some { status := .success, res0 := 0, res1 := 0, res2 := 0 } })

/-- R114, R115 (checks, their order and the count are the spec's decisions D18, D22, D23): the four checks in their order,
and then the first free slot of the probe sequence is filled and its displacement answered. -/
def Obligations.RtSetChecksThenFillsTheFirstFreeSlot : Prop :=
  (∀ a0 a1 : Word, decode { cmd := 0x32, arg0 := a0, arg1 := a1 } = some (.rtSet a0 a1)) ∧
  ∀ (s : State) (m r : Word), StateInv s → s.rtInited = true →
    ((r = 0 ∨ s.params.maxRoutes < r.toNat) → AnswersError (.rtSet m r) s .badArgument) ∧
    (r ≠ 0 → r.toNat ≤ s.params.maxRoutes → (∃ i q, LiveAt s i m q) → AnswersError (.rtSet m r) s .duplicateRegistration) ∧
    (r ≠ 0 → r.toNat ≤ s.params.maxRoutes → (∀ i q, ¬ LiveAt s i m q) →
      (∀ i < s.params.maxRoutes, ∃ n q, LiveAt s i n q) → AnswersError (.rtSet m r) s .capacityExceeded) ∧
    (r ≠ 0 → r.toNat ≤ s.params.maxRoutes → (∀ i q, ¬ LiveAt s i m q) →
      (∃ i < s.params.maxRoutes, s.slots[i]? = some none) → (∃ i n, LiveAt s i n r) →
      AnswersError (.rtSet m r) s .badArgument) ∧
    (r ≠ 0 → r.toNat ≤ s.params.maxRoutes → (∀ i q, ¬ LiveAt s i m q) →
      (∃ i < s.params.maxRoutes, s.slots[i]? = some none) → (∀ i n, ¬ LiveAt s i n r) →
      ∃ k < s.params.maxRoutes,
        s.slots[probe s.params m k]? = some none ∧ (∀ j < k, ∃ n q, LiveAt s (probe s.params m j) n q) ∧
        exec (.rtSet m r) s = .next
          { s with
            slots := s.slots.set (probe s.params m k) (some { msgid := m, routeid := r })
            response := some { status := .success, res0 := BitVec.ofNat 32 k, res1 := 0, res2 := 0 } })

/-- R111 (the spec's decision D21): the probe sequence starts at the home slot, visits every slot exactly once, and is
computed by one conditional subtraction. -/
def Obligations.ProbeSequenceVisitsEverySlotOnce : Prop :=
  ∀ (p : Params) (m : Word), 1 ≤ p.maxRoutes →
    homeSlot p m < p.maxRoutes ∧ probe p m 0 = homeSlot p m ∧
    (∀ i < p.maxRoutes, ∃! k, k < p.maxRoutes ∧ probe p m k = i) ∧
    ∀ k < p.maxRoutes, probe p m k =
      if homeSlot p m + k < p.maxRoutes then homeSlot p m + k else homeSlot p m + k - p.maxRoutes

/-- R116 (what a bad RouteId gets is the spec's decision D25): the slot that holds the RouteId becomes free and no other
changes; a RouteId that is 0, too large or not live gets `BadArgument`. -/
def Obligations.RtDeregFreesTheSlotOfTheRoute : Prop :=
  (∀ a0 a1 : Word, decode { cmd := 0x33, arg0 := a0, arg1 := a1 } = some (.rtDereg a1)) ∧
  ∀ (s : State) (r : Word), StateInv s → s.rtInited = true →
    ((r = 0 ∨ s.params.maxRoutes < r.toNat) → AnswersError (.rtDereg r) s .badArgument) ∧
    ((∀ i m, ¬ LiveAt s i m r) → AnswersError (.rtDereg r) s .badArgument) ∧
    ∀ i m, LiveAt s i m r → exec (.rtDereg r) s = .next
      { s with
        slots := s.slots.set i none
        response := some { status := .success, res0 := 0, res1 := 0, res2 := 0 } }

/-- R117 (order and cursor are the spec's decision D26): the first live pair at slot index at or after the cursor, with the
index after it as the next cursor; else zeros and `MAX_ROUTES`. -/
def Obligations.RtIterAnswersTheNextLivePair : Prop :=
  (∀ a0 a1 : Word, decode { cmd := 0x34, arg0 := a0, arg1 := a1 } = some (.rtIter a0)) ∧
  ∀ (s : State) (c : Word), StateInv s → s.rtInited = true →
    (∀ i m r, c.toNat ≤ i → LiveAt s i m r → (∀ j n q, c.toNat ≤ j → j < i → ¬ LiveAt s j n q) →
      ∃ next : Word, next.toNat = i + 1 ∧
        exec (.rtIter c) s = .next { s with response := some { status := .success, res0 := m, res1 := r, res2 := next } }) ∧
    ((∀ i m r, c.toNat ≤ i → ¬ LiveAt s i m r) →
      ∃ last : Word, last.toNat = s.params.maxRoutes ∧
        exec (.rtIter c) s = .next { s with response := some { status := .success, res0 := 0, res1 := 0, res2 := last } })

/-- R121 (the spec's decision D27): before `RT_INIT` the other four route commands are refused, with no response and no next
state; `RT_INIT` itself completes; and an illegal encoding is answered all the same. -/
def Obligations.RouteCommandsBeforeInitAreRefused : Prop :=
  ∀ s : State, s.rtInited = false →
    (∀ m, exec (.rtGet m) s = .refused .routeTableNotInitialised) ∧
    (∀ m r, exec (.rtSet m r) s = .refused .routeTableNotInitialised) ∧
    (∀ r, exec (.rtDereg r) s = .refused .routeTableNotInitialised) ∧
    (∀ c, exec (.rtIter c) s = .refused .routeTableNotInitialised) ∧
    (∃ t, exec .rtInit s = .next t ∧ t.rtInited = true) ∧
    ∀ p : Packet, p.illegal = true →
      runPacket p s = .next { s with response := some { status := .badArgument, res0 := 0, res1 := 0, res2 := 0 } }

/-- The frame of the five route commands (R2, R17, R20, R113, R117): buffer memory (every byte of it), parameters, pending
commands, coming events and the record of accesses are as before; `RT_GET` and `RT_ITER` change no slot; `RT_SET` and
`RT_DEREG` change at most one slot, `RT_SET` from free to live and `RT_DEREG` from live to free; only `RT_INIT` changes
`rt_inited`. -/
def Obligations.RouteCommandsChangeOnlyTheirSlot : Prop :=
  ∀ (i : Instr) (s t : State), isRoute i → exec i s = .next t →
    OnlyChangesTable s t ∧ (∀ a, t.mem.read a = s.mem.read a) ∧
    (i ≠ .rtInit → t.rtInited = s.rtInited ∧ t.slots.length = s.slots.length) ∧
    (∀ m, i = .rtGet m → t.slots = s.slots) ∧
    (∀ c, i = .rtIter c → t.slots = s.slots) ∧
    (∀ m r, i = .rtSet m r → t.slots = s.slots ∨
      ∃ n, s.slots[n]? = some none ∧ LiveAt t n m r ∧ ∀ j, j ≠ n → t.slots[j]? = s.slots[j]?) ∧
    (∀ r, i = .rtDereg r → t.slots = s.slots ∨
      ∃ n m, LiveAt s n m r ∧ t.slots[n]? = some none ∧ ∀ j, j ≠ n → t.slots[j]? = s.slots[j]?)

/-- R123, first half (derived in the spec): after a successful `RT_SET m, r`, and until the next `RT_DEREG r` or `RT_INIT`,
every `RT_GET m` returns `r`, whatever other commands come between. -/
def Obligations.RouteIsFoundUntilDeregisteredOrReinitialised : Prop :=
  ∀ (s t u : State) (m r : Word) (cmds : List Instr), StateInv s → exec (.rtSet m r) s = .next t →
    (∃ k, t.response = some { status := .success, res0 := k, res1 := 0, res2 := 0 }) →
    .rtInit ∉ cmds → .rtDereg r ∉ cmds → runAll cmds t = some u → resultOf (.rtGet m) u = some r

/-- R123, second half (derived in the spec): after a successful `RT_DEREG r` that freed the registration of `m`, and until the
next successful `RT_SET m`, every `RT_GET m` returns 0: whatever other commands come between, an `RT_SET m` that does not answer
`SUCCESS` among them. -/
def Obligations.RouteIsGoneUntilRegisteredAgain : Prop :=
  ∀ (s t u : State) (i : Nat) (m r : Word) (cmds : List Instr), StateInv s → s.rtInited = true → LiveAt s i m r →
    exec (.rtDereg r) s = .next t →
    (∀ pre q post v, cmds = pre ++ .rtSet m q :: post → runAll pre t = some v → resultOf (.rtSet m q) v = none) →
    runAll cmds t = some u → resultOf (.rtGet m) u = some 0

/-- R122 (derived in the spec): the slot a successful `RT_SET` fills and its collision count depend only on the parameters,
the MessageId and which slots are live: not on what the live slots hold, nor on the RouteId. -/
def Obligations.PlacementDependsOnlyOnOccupancy : Prop :=
  ∀ (s1 s2 t1 t2 : State) (m r1 r2 k1 k2 : Word), s1.params = s2.params →
    (∀ i : Nat, s1.slots[i]?.map Option.isSome = s2.slots[i]?.map Option.isSome) →
    exec (.rtSet m r1) s1 = .next t1 → exec (.rtSet m r2) s2 = .next t2 →
    t1.response = some { status := .success, res0 := k1, res1 := 0, res2 := 0 } →
    t2.response = some { status := .success, res0 := k2, res1 := 0, res2 := 0 } →
    k1 = k2 ∧ ∀ i : Nat, t1.slots[i]?.map Option.isSome = t2.slots[i]?.map Option.isSome

/-- R49 (derived in the spec): of two registrations of one MessageId exactly the first succeeds; the second gets
`DuplicateRegistration` and changes nothing. -/
def Obligations.SecondRegistrationOfAMessageIsDuplicate : Prop :=
  ∀ (s t : State) (m r1 r2 : Word), StateInv s → exec (.rtSet m r1) s = .next t →
    (∃ k, t.response = some { status := .success, res0 := k, res1 := 0, res2 := 0 }) →
    r2 ≠ 0 → r2.toNat ≤ s.params.maxRoutes → AnswersError (.rtSet m r2) t .duplicateRegistration

/-- R120 (derived in the spec): from an empty table, up to `MAX_ROUTES` registrations of distinct MessageIds with distinct
legal RouteIds all succeed, whatever the hash is, and each is then found; when they are `MAX_ROUTES`, one more with a new
MessageId and a legal RouteId gets `CapacityExceeded` and changes nothing. -/
def Obligations.MaxRoutesRegistrationsFitAndNoMore : Prop :=
  ∀ (s t : State) (ps : List (Word × Word)), StateInv s → exec .rtInit s = .next t →
    ps.length ≤ s.params.maxRoutes → (ps.map Prod.fst).Nodup → (ps.map Prod.snd).Nodup →
    (∀ p ∈ ps, p.2 ≠ 0 ∧ p.2.toNat ≤ s.params.maxRoutes) →
    ∃ u, registerAll ps t = some u ∧ (∀ p ∈ ps, resultOf (.rtGet p.1) u = some p.2) ∧
      (ps.length = s.params.maxRoutes → ∀ m r : Word, m ∉ ps.map Prod.fst → r ≠ 0 → r.toNat ≤ s.params.maxRoutes →
        AnswersError (.rtSet m r) u .capacityExceeded)

/-- R118 (the spec's decision D26): the iteration protocol, with no other command between, ends within `MAX_ROUTES + 1`
commands and emits exactly the live pairs, each once, in ascending slot order. -/
def Obligations.IterationEmitsExactlyTheLivePairs : Prop :=
  ∀ (s : State) (fuel : Nat), StateInv s → s.rtInited = true → s.params.maxRoutes + 1 ≤ fuel →
    dump fuel 0 s = s.slots.filterMap id

/-! ## The whole machine -/

/-- R16, R119 (derived in the spec), with the model's own invariants: every step keeps them. -/
def Obligations.EveryStepKeepsTheInvariant : Prop :=
  ∀ s t : State, StateInv s → step s = .next t → StateInv t

/-- The reset state meets the invariant, whatever the instance's parameters are (R5, R23). -/
def Obligations.ResetMeetsTheInvariant : Prop := StateInv State.reset

/-- R23, R160 (the spec's decision D27): after reset `rt_inited = 0`, there are `MAX_ROUTES` slots and no response has been
sent; the first route command other than `RT_INIT` is refused and `RT_INIT` completes. -/
def Obligations.ResetStateIsUninitialised : Prop :=
  State.reset.rtInited = false ∧ State.reset.slots.length = State.reset.params.maxRoutes ∧
  State.reset.response = none ∧
  (∀ m, exec (.rtGet m) State.reset = .refused .routeTableNotInitialised) ∧
  ∃ t, exec .rtInit State.reset = .next t ∧ t.slots = List.replicate State.reset.params.maxRoutes none

/-- R5, R14: no step changes a parameter. -/
def Obligations.NoStepChangesAParameter : Prop :=
  ∀ s t : State, step s = .next t → t.params = s.params

/-- R17 (the spec's decision D27): `rt_inited` is set by `RT_INIT` and cleared by reset, and by nothing else. -/
def Obligations.OnlyInitSetsAndOnlyResetClearsInited : Prop :=
  ∀ s t : State, step s = .next t →
    (s.rtInited = false → t.rtInited = true →
      ∃ k es p rest, s.events = .command k :: es ∧ s.queues[k]? = some (p :: rest) ∧ decode p = some .rtInit) ∧
    (s.rtInited = true → t.rtInited = false →
      (∃ es, s.events = .reset :: es) ∨ ∃ k done es, s.events = .resetDuring k done :: es)

/-- R20: no command moves a live registration or changes its pair. A live slot keeps its pair, or is freed by `RT_DEREG` of its
own RouteId or by `RT_INIT`; a free slot stays free or is filled by `RT_SET` with its operands; and the table does not grow.
That there are `MAX_ROUTES` slots is R15 and part of the invariant. -/
def Obligations.SlotsChangeOnlyBySetDeregAndInit : Prop :=
  ∀ (p : Packet) (s t : State) (i : Nat), s.slots.length = s.params.maxRoutes → runPacket p s = .next t →
    t.slots.length = s.slots.length ∧
    (∀ m r, LiveAt s i m r → LiveAt t i m r ∨
      t.slots[i]? = some none ∧ (decode p = some .rtInit ∨ decode p = some (.rtDereg r))) ∧
    (s.slots[i]? = some none → t.slots[i]? = some none ∨ ∃ m r, decode p = some (.rtSet m r) ∧ LiveAt t i m r)

/-- R160 (the spec's decision D27): reset clears `rt_inited`, leaves parameters and buffer memory, and sends no response. That
the commands not yet taken and the responses sent before stay with their issuers is the model's choice, log 11. -/
def Obligations.ResetClearsInitedAndLeavesMemory : Prop :=
  ∀ (s : State) (es : List Event), s.events = .reset :: es →
    ∃ t, step s = .next t ∧ t.rtInited = false ∧ t.slots.length = s.params.maxRoutes ∧ t.params = s.params ∧
      t.mem = s.mem ∧ t.response = none ∧ t.accesses = [] ∧ t.queues = s.queues ∧ t.inboxes = s.inboxes ∧ t.events = es

/-- R160, U7 (the spec's decision D27): a command cut by reset sends no response and leaves the block in the reset state;
each byte of buffer memory is as before, or, if the command is a Set and touches it, as that Set would have left it. That the
other commands not yet taken and the responses sent before stay with their issuers, and the coming events as they are, is the
model's choice, log 11; so is the event's list of the bytes that were written. -/
def Obligations.CommandCutByResetLeavesOldOrNewBytes : Prop :=
  ∀ (s t : State) (k : Nat) (done : List Bool) (es : List Event) (p : Packet) (rest : List Packet), s.mem.wf →
    s.events = .resetDuring k done :: es → s.queues[k]? = some (p :: rest) → step s = .next t →
    t.rtInited = false ∧ t.response = none ∧ t.params = s.params ∧ t.queues = s.queues.set k rest ∧
    t.inboxes = s.inboxes ∧ t.events = es ∧
    ∀ a, t.mem.read a = s.mem.read a ∨
      ∃ u, runPacket p { s with events := es, queues := s.queues.set k rest, response := none, accesses := [] } = .next u ∧
        t.mem.read a = u.mem.read a

/-- R45, R164 (the spec's decision D34): what an agent's access to a byte does. From sending a codec command
that touches the byte until its response is received, a store to it is refused as a race, and so is a load if such a command is a Set (R45(b), U4). Any other
store to a writable byte completes: the byte then reads as stored, every other byte and everything else is as before (R45(a));
any other load of a readable byte completes and changes nothing (R45(c)). An access that is no race, to a byte that is not plain
memory, is refused: the spec says nothing of devices, and that is the model's choice, log 13. What the model's events stand for
is logs 7 and 13. -/
def Obligations.AgentAccessIsARaceOrRefusedOrTakesEffect : Prop :=
  (∀ (s : State) (a : Word) (v : Byte) (es : List Event), s.events = .store a v :: es →
    (TouchedByOutstanding s a.toNat → step s = .refused .dataRace) ∧
    (¬ TouchedByOutstanding s a.toNat → writable s.params a.toNat = false → step s = .refused .notPlainMemory) ∧
    (s.mem.wf → ¬ TouchedByOutstanding s a.toNat → writable s.params a.toNat = true →
      ∃ t, step s = .next t ∧ t.mem.read a.toNat = v ∧ (∀ b, b ≠ a.toNat → t.mem.read b = s.mem.read b) ∧
        t = { s with events := es, mem := t.mem, response := none, accesses := [] })) ∧
  ∀ (s : State) (a : Word) (es : List Event), s.events = .load a :: es →
    (TouchedByOutstandingSet s a.toNat → step s = .refused .dataRace) ∧
    (¬ TouchedByOutstandingSet s a.toNat → readable s.params a.toNat = false → step s = .refused .notPlainMemory) ∧
    (¬ TouchedByOutstandingSet s a.toNat → readable s.params a.toNat = true →
      step s = .next { s with events := es, response := none, accesses := [] })
end

