-- ==== Sys2Proof/Laws/State.lean ====
section
/-! SUPPORT. One lemma per field per update of the state, true by rfl, so that no later proof unfolds a record update. -/

namespace Sys2Proof.Machine

/-- R5's constraints on the parameters, as inequalities. -/
theorem legal_iff {p : Params} : p.legal = true ↔
    1 ≤ p.sizeOffset ∧ p.sizeOffset ≤ 2 ^ 32 - 0x10000 ∧ 1 ≤ p.maxRoutes ∧ p.maxRoutes ≤ 2 ^ 32 - 2 := by
  simp only [Params.legal, Bool.and_eq_true, decide_eq_true_eq]
  tauto

section respond
variable (s : State) (st : Status) (r0 r1 r2 : Word)

@[simp] theorem respond_params : (s.respond st r0 r1 r2).params = s.params := rfl
@[simp] theorem respond_rtInited : (s.respond st r0 r1 r2).rtInited = s.rtInited := rfl
@[simp] theorem respond_slots : (s.respond st r0 r1 r2).slots = s.slots := rfl
@[simp] theorem respond_mem : (s.respond st r0 r1 r2).mem = s.mem := rfl
@[simp] theorem respond_queues : (s.respond st r0 r1 r2).queues = s.queues := rfl
@[simp] theorem respond_inboxes : (s.respond st r0 r1 r2).inboxes = s.inboxes := rfl
@[simp] theorem respond_events : (s.respond st r0 r1 r2).events = s.events := rfl
@[simp] theorem respond_accesses : (s.respond st r0 r1 r2).accesses = s.accesses := rfl
@[simp] theorem respond_resets : (s.respond st r0 r1 r2).resets = s.resets := rfl
@[simp] theorem respond_response :
    (s.respond st r0 r1 r2).response = some { status := st, res0 := r0, res1 := r1, res2 := r2 } := rfl

/-- Taking an error is a response with zeros (R8, R51). -/
theorem raise_eq : s.raise st = s.respond st 0 0 0 := rfl

@[simp] theorem raise_params : (s.raise st).params = s.params := rfl
@[simp] theorem raise_rtInited : (s.raise st).rtInited = s.rtInited := rfl
@[simp] theorem raise_slots : (s.raise st).slots = s.slots := rfl
@[simp] theorem raise_mem : (s.raise st).mem = s.mem := rfl
@[simp] theorem raise_queues : (s.raise st).queues = s.queues := rfl
@[simp] theorem raise_inboxes : (s.raise st).inboxes = s.inboxes := rfl
@[simp] theorem raise_events : (s.raise st).events = s.events := rfl
@[simp] theorem raise_accesses : (s.raise st).accesses = s.accesses := rfl
@[simp] theorem raise_resets : (s.raise st).resets = s.resets := rfl
@[simp] theorem raise_response :
    (s.raise st).response = some { status := st, res0 := 0, res1 := 0, res2 := 0 } := rfl

end respond

section access
variable (s : State) (a : Nat) (v : Byte)

@[simp] theorem memRead_fst : (s.memRead a).1 = s.mem.read a := rfl
@[simp] theorem memRead_params : (s.memRead a).2.params = s.params := rfl
@[simp] theorem memRead_rtInited : (s.memRead a).2.rtInited = s.rtInited := rfl
@[simp] theorem memRead_slots : (s.memRead a).2.slots = s.slots := rfl
@[simp] theorem memRead_mem : (s.memRead a).2.mem = s.mem := rfl
@[simp] theorem memRead_queues : (s.memRead a).2.queues = s.queues := rfl
@[simp] theorem memRead_inboxes : (s.memRead a).2.inboxes = s.inboxes := rfl
@[simp] theorem memRead_events : (s.memRead a).2.events = s.events := rfl
@[simp] theorem memRead_response : (s.memRead a).2.response = s.response := rfl
@[simp] theorem memRead_resets : (s.memRead a).2.resets = s.resets := rfl
@[simp] theorem memRead_accesses : (s.memRead a).2.accesses = s.accesses ++ [.read a (s.mem.read a)] := rfl

@[simp] theorem memWrite_params : (s.memWrite a v).params = s.params := rfl
@[simp] theorem memWrite_rtInited : (s.memWrite a v).rtInited = s.rtInited := rfl
@[simp] theorem memWrite_slots : (s.memWrite a v).slots = s.slots := rfl
@[simp] theorem memWrite_mem : (s.memWrite a v).mem = s.mem.write a v := rfl
@[simp] theorem memWrite_queues : (s.memWrite a v).queues = s.queues := rfl
@[simp] theorem memWrite_inboxes : (s.memWrite a v).inboxes = s.inboxes := rfl
@[simp] theorem memWrite_events : (s.memWrite a v).events = s.events := rfl
@[simp] theorem memWrite_response : (s.memWrite a v).response = s.response := rfl
@[simp] theorem memWrite_resets : (s.memWrite a v).resets = s.resets := rfl
@[simp] theorem memWrite_accesses : (s.memWrite a v).accesses = s.accesses ++ [.write a v] := rfl

end access

section port
variable (s : State)

@[simp] theorem quiet_params : s.quiet.params = s.params := rfl
@[simp] theorem quiet_rtInited : s.quiet.rtInited = s.rtInited := rfl
@[simp] theorem quiet_slots : s.quiet.slots = s.slots := rfl
@[simp] theorem quiet_mem : s.quiet.mem = s.mem := rfl
@[simp] theorem quiet_queues : s.quiet.queues = s.queues := rfl
@[simp] theorem quiet_inboxes : s.quiet.inboxes = s.inboxes := rfl
@[simp] theorem quiet_events : s.quiet.events = s.events := rfl
@[simp] theorem quiet_response : s.quiet.response = none := rfl
@[simp] theorem quiet_accesses : s.quiet.accesses = [] := rfl
@[simp] theorem quiet_resets : s.quiet.resets = s.resets := rfl

@[simp] theorem send_params (k : Nat) (p : Packet) : (s.send k p).params = s.params := rfl
@[simp] theorem send_rtInited (k : Nat) (p : Packet) : (s.send k p).rtInited = s.rtInited := rfl
@[simp] theorem send_slots (k : Nat) (p : Packet) : (s.send k p).slots = s.slots := rfl
@[simp] theorem send_mem (k : Nat) (p : Packet) : (s.send k p).mem = s.mem := rfl
@[simp] theorem send_queues (k : Nat) (p : Packet) : (s.send k p).queues = sendTo s.queues k p := rfl
@[simp] theorem send_inboxes (k : Nat) (p : Packet) : (s.send k p).inboxes = s.inboxes := rfl
@[simp] theorem send_events (k : Nat) (p : Packet) : (s.send k p).events = s.events := rfl
@[simp] theorem send_response (k : Nat) (p : Packet) : (s.send k p).response = s.response := rfl
@[simp] theorem send_accesses (k : Nat) (p : Packet) : (s.send k p).accesses = s.accesses := rfl
@[simp] theorem send_resets (k : Nat) (p : Packet) : (s.send k p).resets = s.resets := rfl

@[simp] theorem receive_params (k : Nat) : (s.receive k).params = s.params := rfl
@[simp] theorem receive_rtInited (k : Nat) : (s.receive k).rtInited = s.rtInited := rfl
@[simp] theorem receive_slots (k : Nat) : (s.receive k).slots = s.slots := rfl
@[simp] theorem receive_mem (k : Nat) : (s.receive k).mem = s.mem := rfl
@[simp] theorem receive_queues (k : Nat) : (s.receive k).queues = s.queues := rfl
@[simp] theorem receive_inboxes (k : Nat) : (s.receive k).inboxes = s.inboxes.modify k List.tail := rfl
@[simp] theorem receive_events (k : Nat) : (s.receive k).events = s.events := rfl
@[simp] theorem receive_response (k : Nat) : (s.receive k).response = s.response := rfl
@[simp] theorem receive_accesses (k : Nat) : (s.receive k).accesses = s.accesses := rfl
@[simp] theorem receive_resets (k : Nat) : (s.receive k).resets = s.resets := rfl

/-- Delivering a response changes nothing but its issuer's inbox. -/
theorem deliver_eq (k : Nat) (p : Packet) : s.deliver k p = { s with inboxes := (s.deliver k p).inboxes } := by
  unfold State.deliver; split <;> rfl

@[simp] theorem deliver_params (k : Nat) (p : Packet) : (s.deliver k p).params = s.params := by rw [deliver_eq]
@[simp] theorem deliver_rtInited (k : Nat) (p : Packet) : (s.deliver k p).rtInited = s.rtInited := by rw [deliver_eq]
@[simp] theorem deliver_slots (k : Nat) (p : Packet) : (s.deliver k p).slots = s.slots := by rw [deliver_eq]
@[simp] theorem deliver_mem (k : Nat) (p : Packet) : (s.deliver k p).mem = s.mem := by rw [deliver_eq]
@[simp] theorem deliver_queues (k : Nat) (p : Packet) : (s.deliver k p).queues = s.queues := by rw [deliver_eq]
@[simp] theorem deliver_events (k : Nat) (p : Packet) : (s.deliver k p).events = s.events := by rw [deliver_eq]
@[simp] theorem deliver_response (k : Nat) (p : Packet) : (s.deliver k p).response = s.response := by rw [deliver_eq]
@[simp] theorem deliver_accesses (k : Nat) (p : Packet) : (s.deliver k p).accesses = s.accesses := by rw [deliver_eq]
@[simp] theorem deliver_resets (k : Nat) (p : Packet) : (s.deliver k p).resets = s.resets := by rw [deliver_eq]

@[simp] theorem resetBlock_params : s.resetBlock.params = s.params := rfl
@[simp] theorem resetBlock_rtInited : s.resetBlock.rtInited = false := rfl
@[simp] theorem resetBlock_slots : s.resetBlock.slots = resetSlots s.params.maxRoutes (s.resets + 1) := rfl
@[simp] theorem resetBlock_mem : s.resetBlock.mem = s.mem := rfl
@[simp] theorem resetBlock_queues : s.resetBlock.queues = s.queues := rfl
@[simp] theorem resetBlock_inboxes : s.resetBlock.inboxes = s.inboxes := rfl
@[simp] theorem resetBlock_events : s.resetBlock.events = s.events := rfl
@[simp] theorem resetBlock_response : s.resetBlock.response = none := rfl
@[simp] theorem resetBlock_accesses : s.resetBlock.accesses = s.accesses := rfl
@[simp] theorem resetBlock_resets : s.resetBlock.resets = s.resets + 1 := rfl

/-- There are `MAX_ROUTES` slots after reset (R15), whatever they hold. -/
@[simp] theorem resetSlots_length (n k : Nat) : (resetSlots n k).length = n := by
  simp [resetSlots]

end port

/-- Sending (R43(a)): what is sent is the last of its issuer's queue, and no other issuer's queue changes. -/
theorem sendTo_getD {α : Type} (queues : List (List α)) (k j : Nat) (p : α) :
    ((sendTo queues k p)[j]?).getD [] = if j = k then (queues[k]?).getD [] ++ [p] else (queues[j]?).getD [] := by
  induction k generalizing queues j with
  | zero =>
    cases queues with
    | nil => cases j <;> simp [sendTo]
    | cons q rest => cases j <;> simp [sendTo]
  | succ k ih =>
    cases queues with
    | nil =>
      cases j with
      | zero => simp [sendTo]
      | succ j => simpa [sendTo] using ih [] j
    | cons q rest =>
      cases j with
      | zero => simp [sendTo]
      | succ j => simpa [sendTo] using ih rest j

/-- Sending, by the issuers' pending commands (R43(a)). -/
@[simp] theorem send_pending (s : State) (k j : Nat) (p : Packet) :
    (s.send k p).pending j = if j = k then s.pending k ++ [p] else s.pending j := sendTo_getD s.queues k j p

/-- Sending changes no inbox. -/
@[simp] theorem send_inbox (s : State) (k j : Nat) (p : Packet) : (s.send k p).inbox j = s.inbox j := rfl

/-- Delivering, by the issuers' inboxes (R51). -/
theorem deliver_inbox {s : State} {r : Response} (h : s.response = some r) (k j : Nat) (p : Packet) :
    (s.deliver k p).inbox j = if j = k then s.inbox k ++ [(p, r)] else s.inbox j := by
  unfold State.deliver
  rw [h]
  exact sendTo_getD s.inboxes k j (p, r)

/-- Receiving, by the issuers' inboxes (R46). -/
@[simp] theorem receive_inbox (s : State) (k j : Nat) :
    (s.receive k).inbox j = if j = k then (s.inbox k).tail else s.inbox j := by
  simp only [State.inbox, receive_inboxes, List.getElem?_modify]
  by_cases h : j = k
  · subst h
    cases hj : s.inboxes[j]? <;> simp
  · simp [h, Ne.symm h]

/-- The next state of an answer that is changed. -/
@[simp] theorem mapNext_next_iff {f : State → State} {a : Answer} {t : State} :
    mapNext f a = .next t ↔ ∃ u, a = .next u ∧ f u = t := by
  cases a <;> simp [mapNext]

/-- The first issuer beyond the list has sent none (log 8). -/
@[simp] theorem sendTo_length {α : Type} (queues : List (List α)) (p : α) :
    sendTo queues queues.length p = queues ++ [[p]] := by
  induction queues with
  | nil => rfl
  | cons q rest ih => simpa [sendTo] using ih

/-- Everything taking a command off a queue can do (R43(a)): the oldest command of that issuer goes, nothing else changes. -/
theorem takeCommand_eq_some {s t : State} {k : Nat} {p : Packet} (h : s.takeCommand k = some (p, t)) :
    ∃ rest, s.queues[k]? = some (p :: rest) ∧ t = { s with queues := s.queues.set k rest } := by
  unfold State.takeCommand at h
  split at h
  · rename_i p' rest hq
    simp only [Option.some.injEq, Prod.mk.injEq] at h
    exact ⟨rest, by rw [hq, h.1], h.2.symm⟩
  · cases h

end Sys2Proof.Machine
end

