-- ==== Sys2Proof/Laws/Memory.lean ====
section
/-! SUPPORT. Buffer memory: a read after a write, and the canonical form kept by every write. -/

namespace Sys2Proof.Machine

/-- An address below every listed one reads as an unlisted byte. -/
theorem read_absent {m : Memory} {a : Nat} (h : ∀ c ∈ m, a < c.1) : Memory.read m a = unlistedByte := by
  induction m with
  | nil => rfl
  | cons d ds ih =>
    have := h d (List.mem_cons_self ..)
    simp only [Memory.read]
    rw [if_neg (by omega)]
    exact ih fun c hc => h c (List.mem_cons_of_mem _ hc)

/-- Reading the byte just written gives it (R39(c)). -/
@[simp] theorem read_write_same (m : Memory) (a : Nat) (v : Byte) (h : m.wf) : (m.write a v).read a = v := by
  obtain ⟨hp, hc⟩ := h
  induction m with
  | nil => unfold Memory.write; split <;> simp_all [Memory.read]
  | cons c rest ih =>
    obtain ⟨b, w⟩ := c
    have hrest := ih hp.of_cons (fun c hc' => hc c (List.mem_cons_of_mem _ hc'))
    have hlt : ∀ c ∈ rest, b < c.1 := (List.pairwise_cons.mp hp).1
    unfold Memory.write
    by_cases h1 : a < b
    · rw [if_pos h1]
      by_cases h2 : v = unlistedByte
      · rw [if_pos h2, h2]
        refine read_absent ?_
        intro c hc'
        rcases List.mem_cons.mp hc' with rfl | hc'
        · exact h1
        · exact lt_trans h1 (hlt c hc')
      · rw [if_neg h2]; simp [Memory.read]
    · rw [if_neg h1]
      by_cases h3 : a = b
      · rw [if_pos h3]
        by_cases h2 : v = unlistedByte
        · rw [if_pos h2, h2]
          exact read_absent (fun c hc' => h3 ▸ hlt c hc')
        · rw [if_neg h2]; simp [Memory.read]
      · rw [if_neg h3]; simp only [Memory.read]; rw [if_neg h3]; exact hrest

/-- A write leaves every other byte as it was (R38). -/
theorem read_write_other (m : Memory) {a b : Nat} (v : Byte) (h : b ≠ a) : (m.write a v).read b = m.read b := by
  induction m with
  | nil => unfold Memory.write; split <;> simp [Memory.read, h]
  | cons c rest ih =>
    obtain ⟨x, w⟩ := c
    unfold Memory.write
    split_ifs with h1 h2 h3 h4
    · rfl
    · simp [Memory.read, h]
    · subst h3; simp [Memory.read, h]
    · subst h3; simp [Memory.read, h]
    · simp only [Memory.read]; rw [ih]

/-- The keys of a written memory: those it had, and the written address. -/
theorem mem_write {m : Memory} {a : Nat} {v : Byte} {c : Host.Cell} (h : c ∈ m.write a v) :
    c ∈ m ∨ (c = (a, v) ∧ v ≠ unlistedByte) := by
  induction m with
  | nil =>
    unfold Memory.write at h
    split at h
    · cases h
    · simp at h; exact .inr ⟨h, by assumption⟩
  | cons d rest ih =>
    obtain ⟨b, w⟩ := d
    unfold Memory.write at h
    split_ifs at h with h1 h2 h3 h4
    · exact .inl h
    · rcases List.mem_cons.mp h with rfl | h
      · exact .inr ⟨rfl, h2⟩
      · exact .inl h
    · exact .inl (List.mem_cons_of_mem _ h)
    · rcases List.mem_cons.mp h with rfl | h
      · exact .inr ⟨rfl, h4⟩
      · exact .inl (List.mem_cons_of_mem _ h)
    · rcases List.mem_cons.mp h with rfl | h
      · exact .inl (List.mem_cons_self ..)
      · rcases ih h with h | h
        · exact .inl (List.mem_cons_of_mem _ h)
        · exact .inr h

/-- Every write keeps the canonical form. -/
theorem write_wf {m : Memory} {a : Nat} (v : Byte) (h : m.wf) (ha : a < 2 ^ 32) : (m.write a v).wf := by
  refine ⟨?_, ?_⟩
  · induction m with
    | nil => unfold Memory.write; split <;> simp
    | cons c rest ih =>
      obtain ⟨b, w⟩ := c
      obtain ⟨hp, hc⟩ := h
      have hlt := (List.pairwise_cons.mp hp).1
      have hr := hp.of_cons
      unfold Memory.write
      split_ifs with h1 h2 h3 h4
      · exact hp
      · refine List.pairwise_cons.mpr ⟨?_, hp⟩
        intro d hd
        rcases List.mem_cons.mp hd with rfl | hd
        · exact h1
        · exact lt_trans h1 (hlt d hd)
      · exact hr
      · exact List.pairwise_cons.mpr ⟨fun d hd => h3 ▸ hlt d hd, hr⟩
      · refine List.pairwise_cons.mpr ⟨?_, ih ⟨hr, fun d hd => hc d (List.mem_cons_of_mem _ hd)⟩⟩
        intro d hd
        rcases mem_write hd with hd | ⟨rfl, -⟩
        · exact hlt d hd
        · simp only; omega
  · intro c hc
    rcases mem_write hc with hc | ⟨rfl, hv⟩
    · exact h.2 c hc
    · exact ⟨ha, hv⟩

/-- Two memories in canonical form that read alike at every address are equal. -/
theorem Memory.ext {m n : Memory} (hm : m.wf) (hn : n.wf) (h : ∀ a, m.read a = n.read a) : m = n := by
  induction m generalizing n with
  | nil =>
    cases n with
    | nil => rfl
    | cons d ds =>
      have := h d.1
      simp only [Memory.read, if_true] at this
      exact absurd this.symm (hn.2 d (List.mem_cons_self ..)).2
  | cons c cs ih =>
    have hc := List.pairwise_cons.mp hm.1
    cases n with
    | nil =>
      have := h c.1
      simp only [Memory.read, if_true] at this
      exact absurd this (hm.2 c (List.mem_cons_self ..)).2
    | cons d ds =>
      have hd := List.pairwise_cons.mp hn.1
      have hc0 := (hm.2 c (List.mem_cons_self ..)).2
      have hd0 := (hn.2 d (List.mem_cons_self ..)).2
      rcases lt_trichotomy c.1 d.1 with hlt | heq | hgt
      · have h1 := h c.1
        rw [read_absent (m := d :: ds) (a := c.1)] at h1
        · simp only [Memory.read, if_true] at h1; exact absurd h1 hc0
        · intro e he
          rcases List.mem_cons.mp he with rfl | he
          · exact hlt
          · exact lt_trans hlt (hd.1 e he)
      · have h1 := h c.1
        simp only [Memory.read, if_true, heq] at h1
        have hcd : c = d := Prod.ext heq h1
        subst hcd
        congr 1
        refine ih ⟨hc.2, fun e he => hm.2 e (List.mem_cons_of_mem _ he)⟩
          ⟨hd.2, fun e he => hn.2 e (List.mem_cons_of_mem _ he)⟩ fun a => ?_
        by_cases ha : a = c.1
        · subst ha; rw [read_absent hc.1, read_absent hd.1]
        · have := h a
          simpa only [Memory.read, if_neg ha] using this
      · have h1 := h d.1
        rw [read_absent (m := c :: cs) (a := d.1)] at h1
        · simp only [Memory.read, if_true] at h1; exact absurd h1.symm hd0
        · intro e he
          rcases List.mem_cons.mp he with rfl | he
          · exact hgt
          · exact lt_trans hgt (hc.1 e he)

/-- The reset state's memory has the canonical form. -/
theorem reset_mem_wf : State.reset.mem.wf := ⟨List.Pairwise.nil, by intro c hc; cases hc⟩

/-- Performing some of a list of writes keeps the canonical form (U7). -/
theorem performMarked_wf {m : Memory} (ws : List (Nat × Byte)) (done : List Bool) (h : m.wf)
    (hw : ∀ w ∈ ws, w.1 < 2 ^ 32) : (performMarked m ws done).wf := by
  induction ws generalizing m done with
  | nil => unfold performMarked; exact h
  | cons w ws ih =>
    obtain ⟨a, v⟩ := w
    have hws : ∀ w ∈ ws, w.1 < 2 ^ 32 := fun w hw' => hw w (List.mem_cons_of_mem _ hw')
    cases done with
    | nil => simpa [performMarked] using h
    | cons d ds =>
      cases d with
      | true => exact ih ds (write_wf v h (hw _ (List.mem_cons_self ..))) hws
      | false => exact ih ds h hws

/-- Performing some of a list of writes leaves every byte not among them as it was. -/
theorem performMarked_read_other {m : Memory} (ws : List (Nat × Byte)) (done : List Bool) {a : Nat}
    (h : ∀ w ∈ ws, w.1 ≠ a) : (performMarked m ws done).read a = m.read a := by
  induction ws generalizing m done with
  | nil => unfold performMarked; rfl
  | cons w ws ih =>
    obtain ⟨b, v⟩ := w
    have hb : a ≠ b := fun e => h (b, v) (List.mem_cons_self ..) e.symm
    have hws : ∀ w ∈ ws, w.1 ≠ a := fun w hw' => h w (List.mem_cons_of_mem _ hw')
    cases done with
    | nil => rfl
    | cons d ds =>
      cases d with
      | true => exact (ih ds hws).trans (read_write_other m v hb)
      | false => exact ih ds hws

end Sys2Proof.Machine
end

