-- ==== Sys2Proof/Laws/Codec.lean ====
section
/-! SUPPORT. The header codec's shared operations: what reading and writing header bytes does, when R39's conditions hold,
and everything `codecGet` and `codecSet` can answer. -/

namespace Sys2Proof.Machine

/-- A header address is inside the address space when the window does not wrap (R39(a)). -/
theorem headerAddr_lt {base : Word} {k : Nat} (h : base.toNat + 5 ≤ 2 ^ 32 - 1) (hk : k ≤ 5) :
    headerAddr base k < 2 ^ 32 := by unfold headerAddr; omega

/-- Header addresses of different bytes are different. -/
@[simp] theorem headerAddr_inj (base : Word) (j k : Nat) : headerAddr base j = headerAddr base k ↔ j = k := by
  unfold headerAddr; omega

/-- Every touched byte is in the six-byte window (R31). -/
theorem touchedBytes_le {f : HeaderField} {k : Nat} (h : k ∈ touchedBytes f) : k ≤ 5 := by
  cases f <;> simp [touchedBytes, fieldBytes] at h <;> omega

/-- The state with the reads of these header bytes on record (R37). -/
def State.recordReads (s : State) (base : Word) (ks : List Nat) : State :=
  { s with accesses := s.accesses ++ readsOf s.mem base ks }

section recordReads
variable (s : State) (base : Word) (ks : List Nat)

@[simp] theorem recordReads_params : (s.recordReads base ks).params = s.params := rfl
@[simp] theorem recordReads_rtInited : (s.recordReads base ks).rtInited = s.rtInited := rfl
@[simp] theorem recordReads_slots : (s.recordReads base ks).slots = s.slots := rfl
@[simp] theorem recordReads_mem : (s.recordReads base ks).mem = s.mem := rfl
@[simp] theorem recordReads_queues : (s.recordReads base ks).queues = s.queues := rfl
@[simp] theorem recordReads_inboxes : (s.recordReads base ks).inboxes = s.inboxes := rfl
@[simp] theorem recordReads_events : (s.recordReads base ks).events = s.events := rfl
@[simp] theorem recordReads_response : (s.recordReads base ks).response = s.response := rfl
@[simp] theorem recordReads_resets : (s.recordReads base ks).resets = s.resets := rfl
@[simp] theorem recordReads_accesses :
    (s.recordReads base ks).accesses = s.accesses ++ readsOf s.mem base ks := rfl

end recordReads

/-- The header bytes of a buffer, each with its number. -/
def headerBytes (m : Memory) (base : Word) (ks : List Nat) : List (Nat × Byte) :=
  ks.map fun k => (k, headerByte m base k)

/-- Reading header bytes (R37): each once, in order; the state changes only in the record of accesses. -/
theorem readHeader_eq (s : State) (base : Word) (ks : List Nat) :
    s.readHeader base ks = (headerBytes s.mem base ks, s.recordReads base ks) := by
  induction ks generalizing s with
  | nil => simp [State.readHeader, headerBytes, State.recordReads, readsOf]
  | cons k rest ih =>
    simp [State.readHeader, ih, State.memRead, headerByte, headerBytes, State.recordReads, readsOf, List.append_assoc]

/-- The bytes read are the bytes memory holds. -/
theorem bytesRead_map {m : Memory} {base : Word} {ks : List Nat} {k : Nat} (h : k ∈ ks) :
    bytesRead (headerBytes m base ks) k = headerByte m base k := by
  unfold bytesRead headerBytes
  induction ks with
  | nil => cases h
  | cons j rest ih =>
    by_cases hj : k = j
    · subst hj; simp
    · have hb : (k == j) = false := by simpa using hj
      rcases List.mem_cons.mp h with h | h
      · exact absurd h hj
      · simpa [List.lookup, hb] using ih h

/-- Buffer memory after some header bytes are written. -/
def writeBytes (m : Memory) (base : Word) (ws : List (Nat × Byte)) : Memory :=
  ws.foldl (fun m w => m.write (headerAddr base w.1) w.2) m

/-- Writing header bytes (R38): in order; the state changes only in memory and in the record of accesses. -/
theorem writeHeader_eq (s : State) (base : Word) (ws : List (Nat × Byte)) :
    s.writeHeader base ws =
      { s with
        mem := writeBytes s.mem base ws
        accesses := s.accesses ++ ws.map fun w => .write (headerAddr base w.1) w.2 } := by
  induction ws generalizing s with
  | nil => simp [State.writeHeader, writeBytes]
  | cons w rest ih =>
    obtain ⟨k, v⟩ := w
    simp [State.writeHeader, ih, State.memWrite, writeBytes, List.append_assoc]

/-- Bytes other than the written ones stay. -/
theorem writeBytes_read_other {m : Memory} {base : Word} {ws : List (Nat × Byte)} {a : Nat}
    (h : ∀ w ∈ ws, a ≠ headerAddr base w.1) : (writeBytes m base ws).read a = m.read a := by
  induction ws generalizing m with
  | nil => rfl
  | cons w rest ih =>
    have h1 := h w (List.mem_cons_self ..)
    have h2 : ∀ w ∈ rest, a ≠ headerAddr base w.1 := fun w hw => h w (List.mem_cons_of_mem _ hw)
    exact (ih h2).trans (read_write_other m w.2 h1)

/-- Writing header bytes keeps the canonical form. -/
theorem writeBytes_wf {m : Memory} {base : Word} {ws : List (Nat × Byte)} (h : m.wf)
    (hw : ∀ w ∈ ws, headerAddr base w.1 < 2 ^ 32) : (writeBytes m base ws).wf := by
  induction ws generalizing m with
  | nil => exact h
  | cons w rest ih =>
    exact ih (write_wf w.2 h (hw w (List.mem_cons_self ..))) fun w hw' => hw w (List.mem_cons_of_mem _ hw')

/-- A written byte reads as written, the written bytes being different ones. -/
theorem writeBytes_read_mem {m : Memory} {base : Word} {ws : List (Nat × Byte)} {k : Nat} {v : Byte} (hm : m.wf)
    (hw : ∀ w ∈ ws, headerAddr base w.1 < 2 ^ 32) (hd : (ws.map Prod.fst).Nodup) (h : (k, v) ∈ ws) :
    headerByte (writeBytes m base ws) base k = v := by
  induction ws generalizing m with
  | nil => cases h
  | cons w rest ih =>
    obtain ⟨j, u⟩ := w
    simp only [List.map_cons, List.nodup_cons, List.mem_map, not_exists, not_and] at hd
    have hrest : ∀ w ∈ rest, headerAddr base w.1 < 2 ^ 32 := fun w hw' => hw w (List.mem_cons_of_mem _ hw')
    have h0 : headerAddr base j < 2 ^ 32 := hw (j, u) (List.mem_cons_self ..)
    rcases List.mem_cons.mp h with h | h
    · cases h
      have hne : ∀ w ∈ rest, headerAddr base k ≠ headerAddr base w.1 := by
        intro w hw' e
        exact hd.1 w hw' ((headerAddr_inj ..).mp e).symm
      exact (writeBytes_read_other hne).trans (read_write_same m _ v hm)
    · exact ih (write_wf u hm h0) hrest hd.2 h

/-- The bytes a Set writes are touched bytes of its field (R31, R34). -/
theorem mergeField_fst {masks : List (Nat × Byte)} {bits : List Byte} {B : Nat → Byte} {w : Nat × Byte}
    (h : w ∈ mergeField masks bits B) : w.1 ∈ masks.map Prod.fst := by
  induction masks generalizing bits with
  | nil => simp [mergeField] at h
  | cons c ms ih =>
    obtain ⟨k, mask⟩ := c
    cases bits with
    | nil => simp [mergeField] at h
    | cons b bs =>
      simp only [mergeField] at h
      rcases List.mem_cons.mp h with rfl | h
      · simp
      · exact List.mem_cons_of_mem _ (ih h)

/-- R39 for a Get, as `codecGet` checks it and as the statements say it. -/
theorem readPrecondition_eq_none {s : State} {base : Word} {ks : List Nat} :
    readPrecondition s.params base ks = none ↔ CanRead s base ks := by
  unfold readPrecondition CanRead windowFits hdrLen
  by_cases h : base.toNat + 5 ≤ 2 ^ 32 - 1
  · have h' : base.toNat + 6 ≤ 2 ^ 32 := by omega
    simp only [h', decide_true, if_true]
    split <;> simp_all
  · have h' : ¬ base.toNat + 6 ≤ 2 ^ 32 := by omega
    simp only [h', decide_false, Bool.false_eq_true, if_false, reduceCtorEq, false_iff, not_and]
    exact fun h2 => absurd h2 h

/-- R39 for a Set, as `codecSet` checks it and as the statements say it. -/
theorem writePrecondition_eq_none {s : State} {base : Word} {ks : List Nat} :
    writePrecondition s.params base ks = none ↔ CanWrite s base ks := by
  unfold writePrecondition CanWrite windowFits hdrLen
  by_cases h : base.toNat + 5 ≤ 2 ^ 32 - 1
  · have h' : base.toNat + 6 ≤ 2 ^ 32 := by omega
    simp only [h', decide_true, if_true]
    split <;> simp_all
  · have h' : ¬ base.toNat + 6 ≤ 2 ^ 32 := by omega
    simp only [h', decide_false, Bool.false_eq_true, if_false, reduceCtorEq, false_iff, not_and]
    exact fun h2 => absurd h2 h

/-- A writable byte is a readable one (R39). -/
theorem readable_of_writable {p : Params} {a : Nat} (h : writable p a = true) : readable p a = true := by
  unfold writable at h; unfold readable
  split at h <;> simp_all

/-- What a Get answers on a buffer R39 allows (R70). -/
theorem codecGet_success {touched : List Nat} {value : (Nat → Byte) → Word} {base : Word} {s : State}
    (h : CanRead s base touched) :
    codecGet touched value (some base) true s =
      .next ((s.recordReads base touched).respond .success (value (bytesRead (headerBytes s.mem base touched))) 0 0) := by
  simp [codecGet, readPrecondition_eq_none.mpr h, readHeader_eq]

/-- A Get without a buffer (R70). -/
@[simp] theorem codecGet_absent (touched : List Nat) (value : (Nat → Byte) → Word) (out : Bool) (s : State) :
    codecGet touched value none out s = .next (s.raise .badArgument) := rfl

/-- A Get without an out reference, on a buffer R39 allows (R70). -/
theorem codecGet_noOut {touched : List Nat} {value : (Nat → Byte) → Word} {base : Word} {s : State}
    (h : CanRead s base touched) : codecGet touched value (some base) false s = .next (s.raise .badArgument) := by
  simp [codecGet, readPrecondition_eq_none.mpr h]

/-- Everything a Get can answer with a next state (R70): an error that changes nothing, or a value that changes only the
response and the record of accesses. -/
theorem codecGet_next {touched : List Nat} {value : (Nat → Byte) → Word} {buf : BufferRef} {out : Bool} {s t : State}
    (h : codecGet touched value buf out s = .next t) :
    t = s.raise .badArgument ∨
    ∃ base, buf = some base ∧ out = true ∧ CanRead s base touched ∧
      t = (s.recordReads base touched).respond .success (value (bytesRead (headerBytes s.mem base touched))) 0 0 := by
  cases buf with
  | none => cases h; exact .inl rfl
  | some base =>
    cases hp : readPrecondition s.params base touched with
    | some r => simp [codecGet, hp] at h
    | none =>
      have hc := readPrecondition_eq_none.mp hp
      cases out with
      | false => rw [codecGet_noOut hc] at h; cases h; exact .inl rfl
      | true => rw [codecGet_success hc] at h; cases h; exact .inr ⟨base, rfl, rfl, hc, rfl⟩

/-- What a Set does on a buffer R39 allows with a value in range (R90). -/
theorem codecSet_success {f : HeaderField} {bits : List Byte} {base : Word} {s : State} (h : CanWrite s base (touchedBytes f)) :
    codecSet f true bits (some base) s =
      .next (((s.recordReads base (touchedBytes f)).writeHeader base
          (mergeField (fieldBytes f) bits
            (bytesRead (headerBytes s.mem base (touchedBytes f))))).respond .success 0 0 0) := by
  simp [codecSet, writePrecondition_eq_none.mpr h, readHeader_eq]

/-- A Set without a buffer (R90). -/
@[simp] theorem codecSet_absent (f : HeaderField) (inRange : Bool) (bits : List Byte) (s : State) :
    codecSet f inRange bits none s = .next (s.raise .badArgument) := rfl

/-- A Set of a value out of range, on a buffer R39 allows (R90). -/
theorem codecSet_outOfRange {f : HeaderField} {bits : List Byte} {base : Word} {s : State}
    (h : CanWrite s base (touchedBytes f)) : codecSet f false bits (some base) s = .next (s.raise .badArgument) := by
  simp [codecSet, writePrecondition_eq_none.mpr h]

/-- Everything a Set can answer with a next state (R90): an error that changes nothing, or the touched bytes written, with
only memory, the response and the record of accesses changed. -/
theorem codecSet_next {f : HeaderField} {inRange : Bool} {bits : List Byte} {buf : BufferRef} {s t : State}
    (h : codecSet f inRange bits buf s = .next t) :
    t = s.raise .badArgument ∨
    ∃ base, buf = some base ∧ inRange = true ∧ CanWrite s base (touchedBytes f) ∧
      t = ((s.recordReads base (touchedBytes f)).writeHeader base
          (mergeField (fieldBytes f) bits
            (bytesRead (headerBytes s.mem base (touchedBytes f))))).respond .success 0 0 0 := by
  cases buf with
  | none => cases h; exact .inl rfl
  | some base =>
    cases hp : writePrecondition s.params base (touchedBytes f) with
    | some r => simp [codecSet, hp] at h
    | none =>
      have hc := writePrecondition_eq_none.mp hp
      cases inRange with
      | false => rw [codecSet_outOfRange hc] at h; cases h; exact .inl rfl
      | true => rw [codecSet_success hc] at h; cases h; exact .inr ⟨base, rfl, rfl, hc, rfl⟩

end Sys2Proof.Machine
end

