-- ==== Sys2Proof/Laws/Decode.lean ====
section
/-! SUPPORT. The decoder and encoder: a word with no reserved bit set is the command word of its own fields, and what makes
the decoder refuse is in `CMD` alone (R50). -/

namespace Sys2Proof

/-- `CMD = zext_32(OPC) | (BP << 8) | (OP << 9)` of its own fields, when no reserved bit is set (R52). -/
theorem commandWord_of_fields (c : Word) (h : c.extractLsb' 10 22 = 0) :
    c = commandWord (c.extractLsb' 4 4 ++ c.extractLsb' 0 4) (c.getLsbD 8) (c.getLsbD 9) := by
  have hr : ∀ i, 10 ≤ i → c.getLsbD i = false := by
    intro i hi
    by_cases h32 : i < 32
    · have hb := congrArg (fun x => x.getLsbD (i - 10)) h
      simp only [BitVec.getLsbD_extractLsb'] at hb
      have e : 10 + (i - 10) = i := by omega
      rw [e] at hb
      have hlt : i - 10 < 22 := by omega
      simpa [hlt] using hb
    · exact BitVec.getLsbD_of_ge _ _ (by omega)
  apply BitVec.eq_of_getLsbD_eq
  intro i hi
  simp only [commandWord, BitVec.getLsbD_or, BitVec.getLsbD_setWidth, BitVec.getLsbD_append, BitVec.getLsbD_shiftLeft,
    BitVec.getLsbD_extractLsb', BitVec.getLsbD_ofBool]
  have hcases : i = 0 ∨ i = 1 ∨ i = 2 ∨ i = 3 ∨ i = 4 ∨ i = 5 ∨ i = 6 ∨ i = 7 ∨ i = 8 ∨ i = 9 ∨ 10 ≤ i := by omega
  rcases hcases with rfl | rfl | rfl | rfl | rfl | rfl | rfl | rfl | rfl | rfl | h10
  all_goals first | simp; done | skip
  rw [hr i h10]
  have h1 : ¬ i < 4 := by omega
  have h2 : ¬ i - 8 = 0 := by omega
  have h3 : ¬ i - 9 = 0 := by omega
  simp [h1, h2, h3]
  omega

/-- The fixed-width pattern (R50) carries all three fields. -/
@[simp] theorem ofPattern_pattern (p : Packet) : Packet.ofPattern p.pattern = p := by
  have h : ∀ a b c : Word, ((a ++ b ++ c).extractLsb' 64 32 : Word) = a ∧ ((a ++ b ++ c).extractLsb' 32 32 : Word) = b ∧
      ((a ++ b ++ c).extractLsb' 0 32 : Word) = c := by
    intro a b c
    refine ⟨?_, ?_, ?_⟩ <;>
      · apply BitVec.eq_of_getLsbD_eq
        intro i hi
        simp only [BitVec.getLsbD_extractLsb', BitVec.getLsbD_append]
        grind
  obtain ⟨h1, h2, h3⟩ := h p.cmd p.arg0 p.arg1
  exact congr (congr (congrArg Packet.mk h1) h2) h3

/-- The packet of a table word: its first 32 bits are `CMD`, the next `ARG0`, the next `ARG1` (log 8). -/
theorem packetOfBits_eq (nbits w : Nat) :
    packetOfBits nbits w =
      ⟨tableField (w % 2 ^ nbits) 0, tableField (w % 2 ^ nbits) 1, tableField (w % 2 ^ nbits) 2⟩ :=
  ofPattern_pattern ⟨_, _, _⟩

/-- Only `CMD` decides whether a packet is refused (R50, R57). -/
theorem decode_eq_none_iff (p : Packet) : decode p = none ↔ decode { cmd := p.cmd, arg0 := 0, arg1 := 0 } = none := by
  simp only [decode]
  split
  · simp
  · split
    · simp only [decodeGet]; split <;> simp
    · simp only [decodeSet]
      split
      · simp
      · split <;> simp
    · simp only [decodeRoute]
      split
      · simp
      · split <;> simp
    · simp

/-- The fields of a command word (R52) are the fields it was put together from. -/
@[simp] theorem commandWord_opc (opc : Byte) (bp out : Bool) :
    (commandWord opc bp out).extractLsb' 4 4 = opc.extractLsb' 4 4 ∧
      (commandWord opc bp out).extractLsb' 0 4 = opc.extractLsb' 0 4 := by
  constructor <;>
    · apply BitVec.eq_of_getLsbD_eq
      intro i hi
      simp only [commandWord, BitVec.getLsbD_or, BitVec.getLsbD_setWidth, BitVec.getLsbD_shiftLeft,
        BitVec.getLsbD_extractLsb', BitVec.getLsbD_ofBool]
      have hcases : i = 0 ∨ i = 1 ∨ i = 2 ∨ i = 3 := by omega
      rcases hcases with rfl | rfl | rfl | rfl <;> simp

end Sys2Proof
end

