-- ==== Sys2Proof/Laws/Route.lean ====
section
/-! SUPPORT. The route table's shared operations: the probe sequence visits every slot once (R111), the first free slot
(R114), and the search for the next live slot (R117). -/

namespace Sys2Proof.Machine

/-- The home slot is a slot (R110). -/
theorem homeSlot_lt {p : Params} (h : 1 ≤ p.maxRoutes) (m : Word) : homeSlot p m < p.maxRoutes :=
  Nat.mod_lt _ (by omega)

/-- A probed slot is a slot (R111). -/
theorem probe_lt {p : Params} (h : 1 ≤ p.maxRoutes) (m : Word) (k : Nat) : probe p m k < p.maxRoutes :=
  Nat.mod_lt _ (by omega)

/-- The probe sequence as one conditional subtraction (R111). -/
theorem probe_eq_sub {p : Params} {m : Word} {k : Nat} (hk : k < p.maxRoutes) :
    probe p m k =
      if homeSlot p m + k < p.maxRoutes then homeSlot p m + k else homeSlot p m + k - p.maxRoutes := by
  have h : 1 ≤ p.maxRoutes := by omega
  have hh := homeSlot_lt h m
  unfold probe
  split
  · exact Nat.mod_eq_of_lt (by assumption)
  · rw [Nat.mod_eq_sub_mod (by omega)]
    exact Nat.mod_eq_of_lt (by omega)

/-- The displacement at which a slot is probed. -/
theorem probe_surj {p : Params} (m : Word) {i : Nat} (hi : i < p.maxRoutes) :
    ∃ k, k < p.maxRoutes ∧ probe p m k = i := by
  have hh := homeSlot_lt (p := p) (by omega) m
  by_cases hle : homeSlot p m ≤ i
  · refine ⟨i - homeSlot p m, by omega, ?_⟩
    rw [probe_eq_sub (by omega)]
    split <;> omega
  · refine ⟨i + p.maxRoutes - homeSlot p m, by omega, ?_⟩
    rw [probe_eq_sub (by omega)]
    split <;> omega

/-- What `firstFree` finds: a free slot of the probe sequence, after live ones only (R114, R115). -/
theorem firstFree_eq_some {p : Params} {slots : List Slot} {m : Word} {k : Nat}
    (h : firstFree p slots m = some k) :
    k < p.maxRoutes ∧ slots[probe p m k]? = some none ∧ ∀ j < k, slots[probe p m j]? ≠ some none := by
  unfold firstFree at h
  rw [List.find?_eq_some_iff_getElem] at h
  obtain ⟨hk, i, hi, hik, hj⟩ := h
  simp only [List.length_range] at hi
  simp only [List.getElem_range] at hik hj
  subst hik
  refine ⟨hi, by simpa using hk, fun j hj' => ?_⟩
  simpa using hj j hj'

/-- `firstFree` finds nothing exactly when every slot is live: check (3) of R114. -/
theorem firstFree_eq_none {p : Params} {slots : List Slot} (m : Word) (hl : slots.length = p.maxRoutes) :
    firstFree p slots m = none ↔ ∀ i < p.maxRoutes, slots[i]? ≠ some none := by
  unfold firstFree
  rw [List.find?_eq_none]
  simp only [List.mem_range, beq_iff_eq]
  constructor
  · intro h i hi
    obtain ⟨k, hk, rfl⟩ := probe_surj m hi
    exact h k hk
  · intro h k hk
    exact h _ (probe_lt (by omega) m k)

/-- What `nextLive` finds: the least live slot at or after the cursor (R117). -/
theorem nextLive_eq_some {slots : List Slot} {i c j : Nat} {e : RouteEntry} (h : nextLive slots i c = some (j, e)) :
    i ≤ j ∧ c ≤ j ∧ slots[j - i]? = some (some e) ∧ ∀ n, i ≤ n → c ≤ n → n < j → slots[n - i]? = some none := by
  induction slots generalizing i with
  | nil => cases h
  | cons sl rest ih =>
    have step : nextLive rest (i + 1) c = some (j, e) → (sl = none ∨ ¬ c ≤ i) →
        i ≤ j ∧ c ≤ j ∧ (sl :: rest)[j - i]? = some (some e) ∧
          ∀ n, i ≤ n → c ≤ n → n < j → (sl :: rest)[n - i]? = some none := by
      intro h' hsl
      obtain ⟨h1, h2, h3, h4⟩ := ih h'
      have hidx : ∀ n, i + 1 ≤ n → (sl :: rest)[n - i]? = rest[n - (i + 1)]? := by
        intro n hn
        have : n - i = (n - (i + 1)) + 1 := by omega
        rw [this, List.getElem?_cons_succ]
      refine ⟨by omega, h2, by rw [hidx j h1]; exact h3, ?_⟩
      intro n hn1 hn2 hn3
      by_cases he : n = i
      · subst he
        rcases hsl with rfl | hc
        · simp
        · exact absurd hn2 hc
      · rw [hidx n (by omega)]; exact h4 n (by omega) hn2 hn3
    cases sl with
    | none => exact step h (.inl rfl)
    | some f =>
      simp only [nextLive] at h
      split at h
      · cases h
        exact ⟨le_rfl, by assumption, by simp, fun n h1 _ h3 => absurd h1 (by omega)⟩
      · exact step h (.inr (by assumption))

/-- `nextLive` finds nothing exactly when no slot at or after the cursor is live (R117). -/
theorem nextLive_eq_none {slots : List Slot} {i c : Nat} :
    nextLive slots i c = none ↔ ∀ n e, i ≤ n → c ≤ n → slots[n - i]? ≠ some (some e) := by
  induction slots generalizing i with
  | nil => simp [nextLive]
  | cons sl rest ih =>
    have hidx : ∀ n, i + 1 ≤ n → (sl :: rest)[n - i]? = rest[n - (i + 1)]? := by
      intro n hn
      have : n - i = (n - (i + 1)) + 1 := by omega
      rw [this, List.getElem?_cons_succ]
    have step : (sl = none ∨ ¬ c ≤ i) →
        (nextLive rest (i + 1) c = none ↔ ∀ n e, i ≤ n → c ≤ n → (sl :: rest)[n - i]? ≠ some (some e)) := by
      intro hsl
      rw [ih]
      constructor
      · intro h n e h1 h2
        by_cases he : n = i
        · subst he
          rcases hsl with rfl | hc
          · simp
          · exact absurd h2 hc
        · rw [hidx n (by omega)]; exact h n e (by omega) h2
      · intro h n e h1 h2
        rw [← hidx n h1]; exact h n e (by omega) h2
    cases sl with
    | none => exact step (.inl rfl)
    | some f =>
      simp only [nextLive]
      split
      · rename_i hc
        simp only [reduceCtorEq, false_iff, not_forall]
        exact ⟨i, f, le_rfl, hc, by simp⟩
      · exact step (.inr (by assumption))

/-- A slot that holds a MessageId is live with it (R113). -/
theorem holdsMsg_iff {m : Word} {sl : Slot} : holdsMsg m sl = true ↔ ∃ e, sl = some e ∧ e.msgid = m := by
  cases sl <;> simp [holdsMsg]

/-- A slot that holds a RouteId is live with it (R116). -/
theorem holdsRoute_iff {r : Word} {sl : Slot} : holdsRoute r sl = true ↔ ∃ e, sl = some e ∧ e.routeid = r := by
  cases sl <;> simp [holdsRoute]

/-- A legal RouteId is one of `1 .. MAX_ROUTES` (R18). -/
theorem routeIdLegal_iff {n : Nat} {r : Word} : routeIdLegal n r = true ↔ 1 ≤ r.toNat ∧ r.toNat ≤ n := by
  have h0 : r ≠ routeInvalid ↔ 1 ≤ r.toNat := by
    rw [Nat.one_le_iff_ne_zero, ne_eq, ne_eq, ← BitVec.toNat_inj]; rfl
  simp [routeIdLegal, h0]

/-- Where no live slot holds the MessageId the route is the invalid one (R113). -/
theorem routeOf_eq_invalid {slots : List Slot} {m : Word} (h : ∀ e, some e ∈ slots → e.msgid ≠ m) :
    routeOf slots m = routeInvalid := by
  unfold routeOf
  have : slots.find? (holdsMsg m) = none := by
    rw [List.find?_eq_none]
    intro sl hsl hh
    obtain ⟨e, rfl, he⟩ := holdsMsg_iff.mp hh
    exact h e hsl he
  rw [this]

/-- With unique keys the live slot that holds the MessageId gives the route (R113). -/
theorem routeOf_eq {slots : List Slot} {e : RouteEntry} (hu : keysUnique slots) (h : some e ∈ slots) :
    routeOf slots e.msgid = e.routeid := by
  unfold routeOf
  induction slots with
  | nil => cases h
  | cons sl rest ih =>
    obtain ⟨h1, h2⟩ := List.pairwise_cons.mp hu
    rcases List.mem_cons.mp h with rfl | h
    · simp [holdsMsg]
    · have : holdsMsg e.msgid sl = false := by
        cases sl with
        | none => rfl
        | some f =>
          have := h1 (some e) ‹some e ∈ rest› f rfl e rfl
          simpa [holdsMsg] using this
      rw [List.find?_cons, this]
      exact ih h2 h

/-- What a route command needs before it means anything (R121). -/
@[simp] theorem whenInited_true {s : State} {a : Answer} (h : s.rtInited = true) : whenInited s a = a := by
  simp [whenInited, h]

end Sys2Proof.Machine
end

