-- ==== Sys2Proof/Laws/Exec.lean ====
section
/-! SUPPORT. The commands as uses of the shared operations: every Get is `codecGet`, every Set is `codecSet`, and what each
route command can answer. Later proofs cite these and do not unfold the meanings. -/

namespace Sys2Proof.Machine

/-- The value a field's Get answers, as a function of the header bytes (R71 to R77). -/
def fieldValue (p : Params) (f : HeaderField) (B : Nat → Byte) : Word :=
  match f with
  | .version => ((B 0).extractLsb' 5 3).setWidth 32
  | .type => ((B 0).extractLsb' 4 1).setWidth 32
  | .secHdr => ((B 0).extractLsb' 3 1).setWidth 32
  | .apid => ((B 0).extractLsb' 0 3 ++ B 1).setWidth 32
  | .segFlag => ((B 2).extractLsb' 6 2).setWidth 32
  | .seqCnt => ((B 2).extractLsb' 0 6 ++ B 3).setWidth 32
  | .size => BitVec.ofNat 32 ((B 4 ++ B 5).toNat + p.sizeOffset)

/-- The range check of a field's Set (R91 to R97). -/
def fieldInRange (p : Params) (f : HeaderField) (v : Word) : Bool :=
  match f with
  | .version => versionInRange v
  | .type => typeInRange v
  | .secHdr => secHdrInRange v
  | .apid => apidInRange v
  | .segFlag => segFlagInRange v
  | .seqCnt => seqCntInRange v
  | .size => sizeInRange p.sizeOffset v

/-- The encoded bits of a field's Set, byte by byte (R91 to R97). -/
def fieldBits (p : Params) (f : HeaderField) (v : Word) : List Byte :=
  match f with
  | .version => [v.setWidth 8 <<< 5]
  | .type => [v.setWidth 8 <<< 4]
  | .secHdr => [v.setWidth 8 <<< 3]
  | .apid => [(v.extractLsb' 8 3).setWidth 8, v.extractLsb' 0 8]
  | .segFlag => [v.setWidth 8 <<< 6]
  | .seqCnt => [(v.extractLsb' 8 6).setWidth 8, v.extractLsb' 0 8]
  | .size => [BitVec.ofNat 8 ((v.toNat - p.sizeOffset) / 2 ^ 8), BitVec.ofNat 8 (v.toNat - p.sizeOffset)]

/-- The Get of a field (R70). -/
theorem exec_getField (f : HeaderField) (buf : BufferRef) (out : Bool) (s : State) :
    exec (getField f buf out) s = codecGet (touchedBytes f) (fieldValue s.params f) buf out s := by
  cases f <;> rfl

/-- The Set of a field (R90). -/
theorem exec_setField (f : HeaderField) (buf : BufferRef) (v : Word) (s : State) :
    exec (setField f buf v) s = codecSet f (fieldInRange s.params f v) (fieldBits s.params f v) buf s := by
  cases f <;> rfl

/-- `GET_MSGID` (R78). -/
theorem exec_getMsgId (buf : BufferRef) (out : Bool) (s : State) :
    exec (.getMsgId buf out) s = codecGet [0, 1] (fun B => ((B 0 ++ B 1) &&& 0xF7FF#16).setWidth 32) buf out s := rfl

/-- Every command of the Get group is a field's Get or `GET_MSGID` (R53). -/
theorem isGet_cases {i : Instr} (h : isGet i = true) :
    (∃ f buf out, i = getField f buf out) ∨ ∃ buf out, i = .getMsgId buf out := by
  cases i with
  | getVersion buf out => exact .inl ⟨.version, buf, out, rfl⟩
  | getType buf out => exact .inl ⟨.type, buf, out, rfl⟩
  | getSecHdr buf out => exact .inl ⟨.secHdr, buf, out, rfl⟩
  | getApid buf out => exact .inl ⟨.apid, buf, out, rfl⟩
  | getSegFlag buf out => exact .inl ⟨.segFlag, buf, out, rfl⟩
  | getSeqCnt buf out => exact .inl ⟨.seqCnt, buf, out, rfl⟩
  | getSize buf out => exact .inl ⟨.size, buf, out, rfl⟩
  | getMsgId buf out => exact .inr ⟨buf, out, rfl⟩
  | setVersion | setType | setSecHdr | setApid | setSegFlag | setSeqCnt | setSize => simp [isGet, opcode] at h
  | rtInit | rtGet | rtSet | rtDereg | rtIter => simp [isGet, opcode] at h

/-- Every command of the Set group is a field's Set (R53). -/
theorem isSet_cases {i : Instr} (h : isSet i = true) : ∃ f buf v, i = setField f buf v := by
  cases i with
  | setVersion buf v => exact ⟨.version, buf, v, rfl⟩
  | setType buf v => exact ⟨.type, buf, v, rfl⟩
  | setSecHdr buf v => exact ⟨.secHdr, buf, v, rfl⟩
  | setApid buf v => exact ⟨.apid, buf, v, rfl⟩
  | setSegFlag buf v => exact ⟨.segFlag, buf, v, rfl⟩
  | setSeqCnt buf v => exact ⟨.seqCnt, buf, v, rfl⟩
  | setSize buf v => exact ⟨.size, buf, v, rfl⟩
  | getVersion | getType | getSecHdr | getApid | getSegFlag | getSeqCnt | getSize | getMsgId => simp [isSet, opcode] at h
  | rtInit | rtGet | rtSet | rtDereg | rtIter => simp [isSet, opcode] at h

/-- Every command is in one of the three groups (R53). -/
theorem group_cases (i : Instr) : isGet i = true ∨ isSet i = true ∨ isRoute i = true := by
  cases i <;> simp [isGet, isSet, isRoute, opcode]

/-- Everything a Get can do when it answers a next state (R70): either an error that changes nothing, or a `SUCCESS` that
changes only the response and the record of accesses. -/
theorem exec_get_next {i : Instr} {s t : State} (hi : isGet i = true) (h : exec i s = .next t) :
    t = s.raise .badArgument ∨ ∃ base ks v, t = (s.recordReads base ks).respond .success v 0 0 := by
  rcases isGet_cases hi with ⟨f, buf, out, rfl⟩ | ⟨buf, out, rfl⟩
  · rw [exec_getField] at h
    rcases codecGet_next h with rfl | ⟨base, -, -, -, rfl⟩
    · exact .inl rfl
    · exact .inr ⟨_, _, _, rfl⟩
  · rw [exec_getMsgId] at h
    rcases codecGet_next h with rfl | ⟨base, -, -, -, rfl⟩
    · exact .inl rfl
    · exact .inr ⟨_, _, _, rfl⟩

/-- Everything a Set can do when it answers a next state (R90): either an error that changes nothing, or the touched bytes
of its buffer written. -/
theorem exec_set_next {f : HeaderField} {buf : BufferRef} {v : Word} {s t : State} (h : exec (setField f buf v) s = .next t) :
    t = s.raise .badArgument ∨
    ∃ base, buf = some base ∧ fieldInRange s.params f v = true ∧ CanWrite s base (touchedBytes f) ∧
      t = ((s.recordReads base (touchedBytes f)).writeHeader base
        (mergeField (fieldBytes f) (fieldBits s.params f v)
          (bytesRead (headerBytes s.mem base (touchedBytes f))))).respond .success 0 0 0 := by
  rw [exec_setField] at h
  rcases codecSet_next h with rfl | ⟨base, h1, h2, h3, rfl⟩
  · exact .inl rfl
  · exact .inr ⟨base, h1, h2, h3, rfl⟩

/-- Everything a route command can do when it answers a next state (R112 to R117): an error or an answer that changes only
the response; `RT_INIT`'s empty table; one free slot filled; or one slot freed. -/
theorem exec_route_next {i : Instr} {s t : State} (hi : isRoute i = true) (h : exec i s = .next t) :
    (i = .rtInit ∧ t =
      ({ s with slots := List.replicate s.params.maxRoutes none, rtInited := true } : State).respond .success 0 0 0) ∨
    s.rtInited = true ∧
      ((∃ st, st ≠ .success ∧ ((∃ m r, i = .rtSet m r) ∨ ∃ r, i = .rtDereg r) ∧ t = s.raise st) ∨
      (∃ m, i = .rtGet m ∧ t = s.respond .success (routeOf s.slots m) 0 0) ∨
      (∃ m r k, i = .rtSet m r ∧ routeIdLegal s.params.maxRoutes r = true ∧ s.slots.any (holdsMsg m) = false ∧
        firstFree s.params s.slots m = some k ∧ s.slots.any (holdsRoute r) = false ∧
        t = ({ s with slots := s.slots.set (probe s.params m k) (some { msgid := m, routeid := r }) } : State).respond .success
          (BitVec.ofNat 32 k) 0 0) ∨
      (∃ r n, i = .rtDereg r ∧ routeIdLegal s.params.maxRoutes r = true ∧ s.slots.findIdx? (holdsRoute r) = some n ∧
        t = ({ s with slots := s.slots.set n none } : State).respond .success 0 0 0) ∨
      (∃ c v0 v1 v2, i = .rtIter c ∧ t = s.respond .success v0 v1 v2)) := by
  cases i with
  | getVersion | getType | getSecHdr | getApid | getSegFlag | getSeqCnt | getSize | getMsgId => simp [isRoute, opcode] at hi
  | setVersion | setType | setSecHdr | setApid | setSegFlag | setSeqCnt | setSize => simp [isRoute, opcode] at hi
  | rtInit => cases h; exact .inl ⟨rfl, rfl⟩
  | rtGet m =>
    simp only [exec, execRtGet, whenInited] at h
    split at h
    · cases h; exact .inr ⟨by assumption, .inr (.inl ⟨m, rfl, rfl⟩)⟩
    · cases h
  | rtSet m r =>
    simp only [exec, execRtSet, whenInited] at h
    split at h
    · refine .inr ⟨by assumption, ?_⟩
      split at h
      · cases h; exact .inl ⟨_, by decide, .inl ⟨m, r, rfl⟩, rfl⟩
      · rename_i hr
        split at h
        · cases h; exact .inl ⟨_, by decide, .inl ⟨m, r, rfl⟩, rfl⟩
        · rename_i hm
          split at h
          · cases h; exact .inl ⟨_, by decide, .inl ⟨m, r, rfl⟩, rfl⟩
          · rename_i k hk
            split at h
            · cases h; exact .inl ⟨_, by decide, .inl ⟨m, r, rfl⟩, rfl⟩
            · rename_i hq
              cases h
              exact .inr (.inr (.inl ⟨m, r, k, rfl, by simpa using hr, by simpa using hm, hk, by simpa using hq, rfl⟩))
    · cases h
  | rtDereg r =>
    simp only [exec, execRtDereg, whenInited] at h
    split at h
    · refine .inr ⟨by assumption, ?_⟩
      split at h
      · cases h; exact .inl ⟨_, by decide, .inr ⟨r, rfl⟩, rfl⟩
      · rename_i hr
        split at h
        · cases h; exact .inl ⟨_, by decide, .inr ⟨r, rfl⟩, rfl⟩
        · rename_i n hn
          cases h
          exact .inr (.inr (.inr (.inl ⟨r, n, rfl, by simpa using hr, hn, rfl⟩)))
    · cases h
  | rtIter c =>
    simp only [exec, execRtIter, whenInited] at h
    split at h
    · refine .inr ⟨by assumption, .inr (.inr (.inr (.inr ?_)))⟩
      split at h <;> cases h
      · exact ⟨c, _, _, _, rfl, rfl⟩
      · exact ⟨c, _, _, _, rfl, rfl⟩
    · cases h

/-- No command faults (R142). -/
theorem exec_ne_fault (i : Instr) (s : State) (f : Fault) : exec i s ≠ .fault f := nomatch f

end Sys2Proof.Machine
end

