-- ==== Sys2Proof/Laws/Header.lean ====
section
/-! SUPPORT. A successful codec command as a function on the header bytes: which bytes a Set leaves (`setByte`), and what a
Get and a Set answer in those terms. Later proofs about fields are about `fieldValue` and `setByte` alone. -/

namespace Sys2Proof.Machine

/-- Looking up a written byte: the last value written to it, or what was there, when no byte is written twice. -/
theorem headerByte_writeBytes {m : Memory} {base : Word} {ws : List (Nat × Byte)} (k : Nat) (hm : m.wf)
    (hw : ∀ w ∈ ws, headerAddr base w.1 < 2 ^ 32) (hd : (ws.map Prod.fst).Nodup) :
    headerByte (writeBytes m base ws) base k = (ws.lookup k).getD (headerByte m base k) := by
  cases hl : ws.lookup k with
  | none =>
    have hne : ∀ w ∈ ws, headerAddr base k ≠ headerAddr base w.1 := by
      intro w hwm e
      have := List.lookup_eq_none_iff.mp hl w hwm
      simp [(headerAddr_inj ..).mp e] at this
    exact writeBytes_read_other hne
  | some v =>
    obtain ⟨l1, l2, rfl, -⟩ := List.lookup_eq_some_iff.mp hl
    exact writeBytes_read_mem hm hw hd (by simp)

/-- The bytes a Set of a field writes, from the header bytes it finds (R90). -/
def setWrites (p : Params) (f : HeaderField) (v : Word) (B : Nat → Byte) : List (Nat × Byte) :=
  mergeField (fieldBytes f) (fieldBits p f v) B

/-- The header byte a Set of a field leaves (R90). -/
def setByte (p : Params) (f : HeaderField) (v : Word) (B : Nat → Byte) (k : Nat) : Byte :=
  ((setWrites p f v B).lookup k).getD (B k)

/-- A Set writes exactly its touched bytes, in their order (R38). -/
theorem setWrites_fst (p : Params) (f : HeaderField) (v : Word) (B : Nat → Byte) :
    (setWrites p f v B).map Prod.fst = touchedBytes f := by
  cases f <;> rfl

/-- What a Set writes depends on the touched bytes only. -/
theorem setWrites_congr {p : Params} {f : HeaderField} {v : Word} {B C : Nat → Byte} (h : ∀ k ∈ touchedBytes f, B k = C k) :
    setWrites p f v B = setWrites p f v C := by
  cases f <;> simp [setWrites, mergeField, fieldBytes, fieldBits] <;> simp_all [touchedBytes, fieldBytes]

/-- What a Get answers depends on the touched bytes only (R37). -/
theorem fieldValue_congr {p : Params} {f : HeaderField} {B C : Nat → Byte} (h : ∀ k ∈ touchedBytes f, B k = C k) :
    fieldValue p f B = fieldValue p f C := by
  cases f <;> simp_all [touchedBytes, fieldBytes, fieldValue]

/-- The range check of a Set is the range of R34 and R99. -/
theorem fieldInRange_iff (p : Params) (f : HeaderField) (v : Word) : fieldInRange p f v = true ↔ InRange p f v := by
  have h2 : v.toNat < 2 ↔ v = 0 ∨ v = 1 := by
    rw [← BitVec.toNat_inj, ← BitVec.toNat_inj]; simp; omega
  have h4 : v.toNat < 4 ↔ v = 0 ∨ v = 1 ∨ v = 2 ∨ v = 3 := by
    rw [← BitVec.toNat_inj, ← BitVec.toNat_inj, ← BitVec.toNat_inj, ← BitVec.toNat_inj]; simp; omega
  cases f with
  | version => simp [fieldInRange, InRange, versionInRange, fieldWidth, BitVec.le_def]; omega
  | type => simp [fieldInRange, InRange, typeInRange, fieldWidth, typeTlm, typeCmd, h2]
  | secHdr => simp [fieldInRange, InRange, secHdrInRange, fieldWidth, secHdrAbsent, secHdrPresent, h2]
  | apid => simp [fieldInRange, InRange, apidInRange, fieldWidth, BitVec.le_def]; omega
  | segFlag =>
    simp [fieldInRange, InRange, segFlagInRange, fieldWidth, segContinuation, segFirst, segLast, segUnsegmented, h4, or_assoc]
  | seqCnt => simp [fieldInRange, InRange, seqCntInRange, fieldWidth, BitVec.le_def]; omega
  | size => simp [fieldInRange, InRange, sizeInRange]

/-- A successful Get of a field (R70). -/
theorem exec_getField_success {f : HeaderField} {base : Word} {s : State} (h : CanRead s base (touchedBytes f)) :
    exec (getField f (some base) true) s =
      .next ((s.recordReads base (touchedBytes f)).respond .success (fieldValue s.params f (headerByte s.mem base)) 0 0) := by
  rw [exec_getField, codecGet_success h,
    fieldValue_congr (C := headerByte s.mem base) fun k hk => bytesRead_map hk]

/-- What a Get answers (R70). -/
theorem resultOf_getField {f : HeaderField} {base : Word} {s : State} (h : CanRead s base (touchedBytes f)) :
    resultOf (getField f (some base) true) s = some (fieldValue s.params f (headerByte s.mem base)) := by
  simp [resultOf, answerOf, exec_getField_success h]

/-- A successful Set of a field (R90), as the writes of `setWrites`. -/
theorem exec_setField_success {f : HeaderField} {base v : Word} {s : State} (h : CanWrite s base (touchedBytes f))
    (hv : InRange s.params f v) :
    exec (setField f (some base) v) s =
      .next (((s.recordReads base (touchedBytes f)).writeHeader base
        (setWrites s.params f v (headerByte s.mem base))).respond .success 0 0 0) := by
  have hw : setWrites s.params f v (bytesRead (headerBytes s.mem base (touchedBytes f))) =
      setWrites s.params f v (headerByte s.mem base) := setWrites_congr fun k hk => bytesRead_map hk
  rw [exec_setField, (fieldInRange_iff ..).mpr hv, codecSet_success h, ← hw]
  rfl

/-- A Set of a value out of range (R90). -/
theorem exec_setField_outOfRange {f : HeaderField} {base v : Word} {s : State} (h : CanWrite s base (touchedBytes f))
    (hv : ¬ InRange s.params f v) : exec (setField f (some base) v) s = .next (s.raise .badArgument) := by
  have : fieldInRange s.params f v = false := by
    rw [← Bool.not_eq_true, fieldInRange_iff]; exact hv
  rw [exec_setField, this, codecSet_outOfRange h]

/-- The header a successful Set leaves in memory, byte by byte (R90, R98). -/
theorem headerByte_set {p : Params} {f : HeaderField} {m : Memory} {base v : Word} (hm : m.wf)
    (hb : base.toNat + 5 ≤ 2 ^ 32 - 1) (k : Nat) :
    headerByte (writeBytes m base (setWrites p f v (headerByte m base))) base k = setByte p f v (headerByte m base) k := by
  refine headerByte_writeBytes k hm ?_ ?_
  · intro w hw
    refine headerAddr_lt hb (touchedBytes_le (f := f) ?_)
    rw [← setWrites_fst p f v (headerByte m base)]
    exact List.mem_map_of_mem hw
  · rw [setWrites_fst]; cases f <;> decide

/-- The canonical form is kept by a successful Set. -/
theorem set_wf {p : Params} {f : HeaderField} {m : Memory} {base v : Word} (B : Nat → Byte) (hm : m.wf)
    (hb : base.toNat + 5 ≤ 2 ^ 32 - 1) : (writeBytes m base (setWrites p f v B)).wf := by
  refine writeBytes_wf hm fun w hw => headerAddr_lt hb (touchedBytes_le (f := f) ?_)
  rw [← setWrites_fst p f v B]
  exact List.mem_map_of_mem hw

/-- A successful Set leaves every byte of memory but its touched ones (R31, R98). -/
theorem set_read_other {p : Params} {f : HeaderField} {m : Memory} {base v : Word} {B : Nat → Byte} {a : Nat}
    (h : ∀ k ∈ touchedBytes f, a ≠ headerAddr base k) : (writeBytes m base (setWrites p f v B)).read a = m.read a := by
  refine writeBytes_read_other fun w hw => h _ ?_
  rw [← setWrites_fst p f v B]
  exact List.mem_map_of_mem hw

/-- Everything a successful Set does (R38, R90): the response, the header bytes it leaves, every other byte and every other
field of the state as before, and its accesses on record. -/
structure SetEffect (f : HeaderField) (base v : Word) (s t : State) : Prop where
  response : t.response = some { status := .success, res0 := 0, res1 := 0, res2 := 0 }
  header : headerByte t.mem base = setByte s.params f v (headerByte s.mem base)
  other : ∀ a, (∀ k ∈ touchedBytes f, a ≠ headerAddr base k) → t.mem.read a = s.mem.read a
  wf : t.mem.wf
  params : t.params = s.params
  rtInited : t.rtInited = s.rtInited
  slots : t.slots = s.slots
  queues : t.queues = s.queues
  inboxes : t.inboxes = s.inboxes
  events : t.events = s.events
  resets : t.resets = s.resets
  accesses : t.accesses = s.accesses ++ readsOf s.mem base (touchedBytes f) ++
    (setWrites s.params f v (headerByte s.mem base)).map fun w => .write (headerAddr base w.1) w.2

/-- A Set of a value in range, on a buffer R39 allows, completes with its whole effect (R90). -/
theorem exec_setField_effect {f : HeaderField} {base v : Word} {s : State} (hm : s.mem.wf) (h : CanWrite s base (touchedBytes f))
    (hv : InRange s.params f v) : ∃ t, exec (setField f (some base) v) s = .next t ∧ SetEffect f base v s t := by
  refine ⟨_, exec_setField_success h hv, ?_⟩
  rw [writeHeader_eq]
  exact
    { response := rfl
      header := funext (headerByte_set hm h.1)
      other := fun a ha => set_read_other ha
      wf := set_wf _ hm h.1
      params := rfl
      rtInited := rfl
      slots := rfl
      queues := rfl
      inboxes := rfl
      events := rfl
      resets := rfl
      accesses := rfl }

/-- A Set that answers a next state either answers an error, which changes nothing but the response, or had its whole
effect (R90). -/
theorem exec_setField_next {f : HeaderField} {buf : BufferRef} {v : Word} {s t : State} (hm : s.mem.wf)
    (h : exec (setField f buf v) s = .next t) :
    t = s.raise .badArgument ∨
      ∃ base, buf = some base ∧ CanWrite s base (touchedBytes f) ∧ InRange s.params f v ∧ SetEffect f base v s t := by
  rcases exec_set_next h with h0 | ⟨base, rfl, hv, hc, -⟩
  · exact .inl h0
  · rw [fieldInRange_iff] at hv
    obtain ⟨u, hu, he⟩ := exec_setField_effect hm hc hv
    rw [hu] at h
    cases h
    exact .inr ⟨base, rfl, hc, hv, he⟩

/-- A Get whose buffer R39 does not allow has no result. -/
theorem resultOf_getField_refused {f : HeaderField} {base : Word} {s : State} (h : ¬ CanRead s base (touchedBytes f)) :
    resultOf (getField f (some base) true) s = none := by
  cases hp : readPrecondition s.params base (touchedBytes f) with
  | none => exact absurd (readPrecondition_eq_none.mp hp) h
  | some r => simp [resultOf, answerOf, exec_getField, codecGet, hp]

/-- What a `GET_MSGID` answers (R78). -/
theorem resultOf_getMsgId {base : Word} {s : State} (h : CanRead s base [0, 1]) :
    resultOf (.getMsgId (some base) true) s =
      some (((headerByte s.mem base 0 ++ headerByte s.mem base 1) &&& 0xF7FF#16).setWidth 32) := by
  simp [resultOf, answerOf, exec_getMsgId, codecGet_success h, bytesRead_map]

/-- R39 depends on the parameters alone. -/
theorem CanRead.of_params {s t : State} {base : Word} {ks : List Nat} (hp : t.params = s.params) :
    CanRead t base ks ↔ CanRead s base ks := by
  unfold CanRead; rw [hp]

/-- R39 depends on the parameters alone. -/
theorem CanWrite.of_params {s t : State} {base : Word} {ks : List Nat} (hp : t.params = s.params) :
    CanWrite t base ks ↔ CanWrite s base ks := by
  unfold CanWrite; rw [hp]

/-- What a Set may write a Get may read (R39). -/
theorem CanWrite.canRead {s : State} {base : Word} {ks : List Nat} (h : CanWrite s base ks) : CanRead s base ks :=
  ⟨h.1, fun k hk => readable_of_writable (h.2 k hk)⟩

end Sys2Proof.Machine
end

