-- ==== Sys2Proof/Laws/PerInstr.lean ====
section
/-! SUPPORT. The family `EncodeLegal`, per instruction: the packet the encoder gives a command is a legal one by R57's own
list, which is written apart from the decoder. -/

/-- R57: none of the four causes makes the command's packet illegal. -/
def Sys2Proof.Laws.EncodeLegal.Statement (i : Sys2Proof.Instr) : Prop := (Sys2Proof.encode i).wellFormed = true

namespace Sys2Proof.Laws.EncodeLegal

/-- R54: a Get may have any flags. -/
theorem get_word (opc : Byte) (h : ∀ bp out : Bool,
    ({ cmd := commandWord opc bp out, arg0 := 0, arg1 := 0 } : Packet).wellFormed = true) (buf : BufferRef) (out : Bool) :
    (encodeGet opc buf out).wellFormed = true := h buf.isSome out

/-- R54: a Set may have a buffer or none. -/
theorem set_word (opc : Byte) (h : ∀ bp : Bool,
    ({ cmd := commandWord opc bp false, arg0 := 0, arg1 := 0 } : Packet).wellFormed = true) (buf : BufferRef) (v : Word) :
    (encodeSet opc buf v).wellFormed = true := h buf.isSome

/-- R54: a route command has no flags. -/
theorem route_word (opc : Byte)
    (h : ({ cmd := commandWord opc false false, arg0 := 0, arg1 := 0 } : Packet).wellFormed = true) (a0 a1 : Word) :
    (encodeRoute opc a0 a1).wellFormed = true := h

theorem getVersion (buf : BufferRef) (out : Bool) : Statement (.getVersion buf out) := get_word 0x10 (by decide) buf out

theorem getType (buf : BufferRef) (out : Bool) : Statement (.getType buf out) := get_word 0x11 (by decide) buf out

theorem getSecHdr (buf : BufferRef) (out : Bool) : Statement (.getSecHdr buf out) := get_word 0x12 (by decide) buf out

theorem getApid (buf : BufferRef) (out : Bool) : Statement (.getApid buf out) := get_word 0x13 (by decide) buf out

theorem getSegFlag (buf : BufferRef) (out : Bool) : Statement (.getSegFlag buf out) := get_word 0x14 (by decide) buf out

theorem getSeqCnt (buf : BufferRef) (out : Bool) : Statement (.getSeqCnt buf out) := get_word 0x15 (by decide) buf out

theorem getSize (buf : BufferRef) (out : Bool) : Statement (.getSize buf out) := get_word 0x16 (by decide) buf out

theorem getMsgId (buf : BufferRef) (out : Bool) : Statement (.getMsgId buf out) := get_word 0x17 (by decide) buf out

theorem setVersion (buf : BufferRef) (v : Word) : Statement (.setVersion buf v) := set_word 0x20 (by decide) buf v

theorem setType (buf : BufferRef) (v : Word) : Statement (.setType buf v) := set_word 0x21 (by decide) buf v

theorem setSecHdr (buf : BufferRef) (v : Word) : Statement (.setSecHdr buf v) := set_word 0x22 (by decide) buf v

theorem setApid (buf : BufferRef) (v : Word) : Statement (.setApid buf v) := set_word 0x23 (by decide) buf v

theorem setSegFlag (buf : BufferRef) (v : Word) : Statement (.setSegFlag buf v) := set_word 0x24 (by decide) buf v

theorem setSeqCnt (buf : BufferRef) (v : Word) : Statement (.setSeqCnt buf v) := set_word 0x25 (by decide) buf v

theorem setSize (buf : BufferRef) (v : Word) : Statement (.setSize buf v) := set_word 0x26 (by decide) buf v

theorem rtInit : Statement (.rtInit) := route_word 0x30 (by decide) 0 0

theorem rtGet (m : Word) : Statement (.rtGet m) := route_word 0x31 (by decide) m 0

theorem rtSet (m r : Word) : Statement (.rtSet m r) := route_word 0x32 (by decide) m r

theorem rtDereg (r : Word) : Statement (.rtDereg r) := route_word 0x33 (by decide) 0 r

theorem rtIter (c : Word) : Statement (.rtIter c) := route_word 0x34 (by decide) c 0

end Sys2Proof.Laws.EncodeLegal
end

