-- ==== Sys2Proof/Laws/Step.lean ====
section
/-! SUPPORT. One step: everything it can do, event by event. Later proofs cite `step_cases` and do not unfold the step. -/

namespace Sys2Proof.Machine

/-- The state in which an event happens: the event is off the list, the last response and record of accesses are over. -/
def State.begin (s : State) (es : List Event) : State := { s with events := es, response := none, accesses := [] }

section begin
variable (s : State) (es : List Event)

@[simp] theorem begin_params : (s.begin es).params = s.params := rfl
@[simp] theorem begin_rtInited : (s.begin es).rtInited = s.rtInited := rfl
@[simp] theorem begin_slots : (s.begin es).slots = s.slots := rfl
@[simp] theorem begin_mem : (s.begin es).mem = s.mem := rfl
@[simp] theorem begin_queues : (s.begin es).queues = s.queues := rfl
@[simp] theorem begin_inboxes : (s.begin es).inboxes = s.inboxes := rfl
@[simp] theorem begin_events : (s.begin es).events = es := rfl
@[simp] theorem begin_response : (s.begin es).response = none := rfl
@[simp] theorem begin_accesses : (s.begin es).accesses = [] := rfl
@[simp] theorem begin_pending (k : Nat) : (s.begin es).pending k = s.pending k := rfl
@[simp] theorem begin_inbox (k : Nat) : (s.begin es).inbox k = s.inbox k := rfl
@[simp] theorem begin_outstanding : (s.begin es).outstanding = s.outstanding := rfl
@[simp] theorem begin_resets : (s.begin es).resets = s.resets := rfl

end begin

/-- The state in which the oldest command of issuer `k` executes: it is off the issuer's queue, on which `rest` stays. -/
def State.taken (s : State) (k : Nat) (rest : List Packet) : State := { s with queues := s.queues.set k rest }

section taken
variable (s : State) (k : Nat) (rest : List Packet)

@[simp] theorem taken_params : (s.taken k rest).params = s.params := rfl
@[simp] theorem taken_rtInited : (s.taken k rest).rtInited = s.rtInited := rfl
@[simp] theorem taken_slots : (s.taken k rest).slots = s.slots := rfl
@[simp] theorem taken_mem : (s.taken k rest).mem = s.mem := rfl
@[simp] theorem taken_queues : (s.taken k rest).queues = s.queues.set k rest := rfl
@[simp] theorem taken_inboxes : (s.taken k rest).inboxes = s.inboxes := rfl
@[simp] theorem taken_events : (s.taken k rest).events = s.events := rfl
@[simp] theorem taken_response : (s.taken k rest).response = s.response := rfl
@[simp] theorem taken_accesses : (s.taken k rest).accesses = s.accesses := rfl
@[simp] theorem taken_resets : (s.taken k rest).resets = s.resets := rfl

end taken

/-- Taking the oldest command of issuer `k`, by the issuers' pending commands (R43(a)). -/
theorem pending_taken {s : State} {k : Nat} {p : Packet} {rest : List Packet} (h : s.queues[k]? = some (p :: rest)) (j : Nat) :
    s.pending j = (if k = j then [p] else []) ++ (s.taken k rest).pending j := by
  simp only [State.pending, taken_queues, List.getElem?_set]
  by_cases hk : k = j
  · subst hk
    have hlt : k < s.queues.length := (List.getElem?_eq_some_iff.mp h).1
    rw [h]
    simp [hlt]
  · simp [hk]

/-- An issuer from which the port takes nothing has nothing pending. -/
theorem pending_of_takeCommand_none {s : State} {k : Nat} (h : s.takeCommand k = none) : s.pending k = [] := by
  unfold State.takeCommand at h
  split at h
  · cases h
  · rename_i hq
    cases hk : s.queues[k]? with
    | none => simp [State.pending, hk]
    | some q =>
      cases q with
      | nil => simp [State.pending, hk]
      | cons p rest => exact absurd hk (hq p rest)

/-- A step with an event is that event (log 7). -/
theorem step_cons {s : State} {e : Event} {es : List Event} (h : s.events = e :: es) :
    step s = runEvent e (s.begin es) := by
  simp [step, h, State.quiet, State.begin]

/-- A step with no event is idle (log 7). -/
theorem step_nil {s : State} (h : s.events = []) : step s = .next s.quiet := by simp [step, h]

/-- The oldest command of an issuer that has sent one (R43(a)). -/
theorem takeCommand_cons {s : State} {k : Nat} {p : Packet} {rest : List Packet} (h : s.queues[k]? = some (p :: rest)) :
    s.takeCommand k = some (p, s.taken k rest) := by
  simp [State.takeCommand, h, State.taken]

/-- A step whose event is a command executes the issuer's oldest packet (R42, R43(a)). -/
theorem step_command {s : State} {k : Nat} {es : List Event} {p : Packet} {rest : List Packet}
    (he : s.events = .command k :: es) (hq : s.queues[k]? = some (p :: rest)) :
    step s = mapNext (fun t => t.deliver k p) (runPacket p ((s.begin es).taken k rest)) := by
  rw [step_cons he]
  simp [runEvent, runCommand, takeCommand_cons (s := s.begin es) hq]

/-- A step whose event is a sending only makes the packet the last of its issuer's commands (R43(a), R150(b)). -/
theorem step_send {s : State} {k : Nat} {p : Packet} {es : List Event} (h : s.events = .send k p :: es) :
    step s = .next ((s.begin es).send k p) := by
  rw [step_cons h]; rfl

/-- The word that was placed runs in the very next step, as the only command of an issuer that had sent none (log 8). -/
theorem step_withFetchWord (s : State) (nbits w : Nat) :
    step (s.withFetchWord nbits w) =
      mapNext (fun t => t.deliver s.queues.length (packetOfBits nbits w))
        (runPacket (packetOfBits nbits w) { s.quiet with queues := s.queues ++ [[]] }) := by
  have h : (s.withFetchWord nbits w).queues[s.queues.length]? = some (packetOfBits nbits w :: []) := by
    simp [State.withFetchWord]
  rw [step_command (es := s.events) rfl h]
  simp [State.withFetchWord, State.taken, State.begin, State.quiet, State.send]

/-- A packet is a command or is answered `BAD_ARGUMENT` (R57, R58). -/
theorem runPacket_cases (p : Packet) (s : State) :
    (∃ i, decode p = some i ∧ runPacket p s = exec i s) ∨
      (decode p = none ∧ runPacket p s = .next (s.raise .badArgument)) := by
  cases h : decode p with
  | some i => exact .inl ⟨i, rfl, by simp [runPacket, h]⟩
  | none => exact .inr ⟨rfl, by simp [runPacket, h, State.answerIllegal]⟩

/-- Everything a step that answers a next state can do. -/
theorem step_cases {s t : State} (h : step s = .next t) :
    (s.events = [] ∧ t = s.quiet) ∨
    ∃ es,
      (∃ k p, s.events = .send k p :: es ∧ t = (s.begin es).send k p) ∨
      (∃ k, s.events = .command k :: es ∧
        (s.pending k = [] ∧ t = s.begin es ∨ ∃ p rest, s.queues[k]? = some (p :: rest) ∧
          ∃ u, runPacket p ((s.begin es).taken k rest) = .next u ∧ t = u.deliver k p)) ∨
      (∃ k, s.events = .receive k :: es ∧ t = (s.begin es).receive k) ∨
      (∃ a v, s.events = .store a v :: es ∧ claimed false a.toNat s = false ∧
        writable s.params a.toNat = true ∧ t = { s.begin es with mem := s.mem.write a.toNat v }) ∨
      (∃ a, s.events = .load a :: es ∧ t = s.begin es) ∨
      (s.events = .reset :: es ∧ t = (s.begin es).resetBlock) ∨
      (∃ k done, s.events = .resetDuring k done :: es ∧
        (s.pending k = [] ∧ t = (s.begin es).resetBlock ∨ ∃ p rest u, s.queues[k]? = some (p :: rest) ∧
          runPacket p ((s.begin es).taken k rest) = .next u ∧
          t = { (s.begin es).taken k rest with mem := performMarked s.mem (writesOf u.accesses) done }.resetBlock)) := by
  cases hs : s.events with
  | nil => rw [step_nil hs] at h; cases h; exact .inl ⟨rfl, rfl⟩
  | cons e es =>
    rw [step_cons hs] at h
    refine .inr ⟨es, ?_⟩
    cases e with
    | send k p => cases h; exact .inl ⟨k, p, rfl, rfl⟩
    | command k =>
      refine .inr (.inl ⟨k, rfl, ?_⟩)
      simp only [runEvent, runCommand] at h
      split at h
      · rename_i p s1 hp
        obtain ⟨rest, hq, rfl⟩ := takeCommand_eq_some hp
        obtain ⟨u, hu, rfl⟩ := mapNext_next_iff.mp h
        exact .inr ⟨p, rest, hq, u, hu, rfl⟩
      · rename_i hp
        cases h
        exact .inl ⟨pending_of_takeCommand_none (s := s.begin es) hp, rfl⟩
    | receive k => cases h; exact .inr (.inr (.inl ⟨k, rfl, rfl⟩))
    | store a v =>
      refine .inr (.inr (.inr (.inl ⟨a, v, rfl, ?_⟩)))
      simp only [runEvent, agentStore] at h
      split at h
      · cases h
      · rename_i h1
        split at h
        · rename_i h2
          cases h
          exact ⟨by simpa [claimed] using h1, by simpa using h2, rfl⟩
        · cases h
    | load a =>
      refine .inr (.inr (.inr (.inr (.inl ⟨a, rfl, ?_⟩))))
      simp only [runEvent, agentLoad] at h
      split_ifs at h
      cases h; rfl
    | reset => cases h; exact .inr (.inr (.inr (.inr (.inr (.inl ⟨rfl, rfl⟩)))))
    | resetDuring k done =>
      refine .inr (.inr (.inr (.inr (.inr (.inr ⟨k, done, rfl, ?_⟩)))))
      simp only [runEvent, resetDuringCommand] at h
      split at h
      · rename_i hp
        cases h
        exact .inl ⟨pending_of_takeCommand_none (s := s.begin es) hp, rfl⟩
      · rename_i p s1 hp
        obtain ⟨rest, hq, rfl⟩ := takeCommand_eq_some hp
        split at h
        · rename_i u hu
          cases h
          exact .inr ⟨p, rest, u, hq, hu, rfl⟩
        · cases h
        · cases h

/-- No command changes what waits at the port. -/
theorem exec_queues {i : Instr} {s t : State} (h : exec i s = .next t) : t.queues = s.queues := by
  rcases group_cases i with hg | hg | hg
  · rcases exec_get_next hg h with rfl | ⟨base, ks, v, rfl⟩ <;> rfl
  · obtain ⟨f, buf, v, rfl⟩ := isSet_cases hg
    rcases exec_set_next h with rfl | ⟨base, -, -, -, rfl⟩
    · rfl
    · simp [writeHeader_eq]
  · rcases exec_route_next hg h with ⟨-, rfl⟩ | ⟨-, ⟨st, -, -, rfl⟩ | ⟨m, -, rfl⟩ | ⟨m, r, k, -, -, -, -, -, rfl⟩ |
      ⟨r, n, -, -, -, rfl⟩ | ⟨c, v0, v1, v2, -, rfl⟩⟩ <;> rfl

/-- No packet changes what waits at the port. -/
theorem runPacket_queues {p : Packet} {s t : State} (h : runPacket p s = .next t) : t.queues = s.queues := by
  rcases runPacket_cases p s with ⟨i, -, hi⟩ | ⟨-, hi⟩ <;> rw [hi] at h
  · exact exec_queues h
  · cases h; rfl

/-- No command changes the responses that wait for their issuers. -/
theorem exec_inboxes {i : Instr} {s t : State} (h : exec i s = .next t) : t.inboxes = s.inboxes := by
  rcases group_cases i with hg | hg | hg
  · rcases exec_get_next hg h with rfl | ⟨base, ks, v, rfl⟩ <;> rfl
  · obtain ⟨f, buf, v, rfl⟩ := isSet_cases hg
    rcases exec_set_next h with rfl | ⟨base, -, -, -, rfl⟩
    · rfl
    · simp [writeHeader_eq]
  · rcases exec_route_next hg h with ⟨-, rfl⟩ | ⟨-, ⟨st, -, -, rfl⟩ | ⟨m, -, rfl⟩ | ⟨m, r, k, -, -, -, -, -, rfl⟩ |
      ⟨r, n, -, -, -, rfl⟩ | ⟨c, v0, v1, v2, -, rfl⟩⟩ <;> rfl

/-- No packet changes the responses that wait for their issuers. -/
theorem runPacket_inboxes {p : Packet} {s t : State} (h : runPacket p s = .next t) : t.inboxes = s.inboxes := by
  rcases runPacket_cases p s with ⟨i, -, hi⟩ | ⟨-, hi⟩ <;> rw [hi] at h
  · exact exec_inboxes h
  · cases h; rfl

/-! Which agents' accesses race (R45(b)). -/

/-- The buffer a command names is written exactly by the Sets. -/
theorem namedBuffer_isSet {i : Instr} {base : Word} {ks : List Nat} {w : Bool} (h : namedBuffer i = some (base, ks, w)) :
    w = isSet i := by
  cases i <;> simp only [namedBuffer, Option.map_eq_some_iff, Prod.mk.injEq, reduceCtorEq] at h <;>
    (obtain ⟨_, -, -, -, rfl⟩ := h; simp [isSet, opcode])

/-- A packet touches an address when its command names a buffer with a touched byte there. -/
theorem touches_iff {b : Bool} {a : Nat} {p : Packet} :
    touches b a p = true ↔ ∃ i base ks w, decode p = some i ∧ (b = true → w = true) ∧ namedBuffer i = some (base, ks, w) ∧
      ∃ k ∈ ks, a = headerAddr base k := by
  unfold touches
  constructor
  · intro h
    split at h
    · rename_i base ks w hb
      obtain ⟨i, hi, hn⟩ := Option.bind_eq_some_iff.mp hb
      simp only [Bool.and_eq_true, Bool.or_eq_true, Bool.not_eq_true', List.any_eq_true, beq_iff_eq] at h
      obtain ⟨hw, k, hk, e⟩ := h
      exact ⟨i, base, ks, w, hi, fun hb => hw.resolve_right (by simp [hb]), hn, k, hk, e.symm⟩
    · cases h
  · rintro ⟨i, base, ks, w, hi, hw, hn, k, hk, e⟩
    simp only [hi, hn, Option.bind_some, Bool.and_eq_true, Bool.or_eq_true, Bool.not_eq_true', List.any_eq_true, beq_iff_eq]
    refine ⟨?_, k, hk, e.symm⟩
    cases b
    · exact .inr rfl
    · exact .inl (hw rfl)

/-- `claimed` for a store, as the statements say it (R45(b)). -/
theorem claimed_store_iff {s : State} {a : Nat} : claimed false a s = true ↔ TouchedByOutstanding s a := by
  simp [claimed, TouchedByOutstanding, touches_iff]

/-- `claimed` for a load, as the statements say it (R45(b)). -/
theorem claimed_load_iff {s : State} {a : Nat} : claimed true a s = true ↔ TouchedByOutstandingSet s a := by
  simp only [claimed, List.any_eq_true, TouchedByOutstandingSet, touches_iff, true_implies]
  refine exists_congr fun p => and_congr_right fun _ =>
    exists_congr fun i => exists_congr fun base => exists_congr fun ks => exists_congr fun w => and_congr_right fun _ => ?_
  constructor
  · rintro ⟨hw, hn, hk⟩
    exact ⟨by rw [← namedBuffer_isSet hn, hw], hn, hk⟩
  · rintro ⟨hw, hn, hk⟩
    exact ⟨by rw [namedBuffer_isSet hn, hw], hn, hk⟩

end Sys2Proof.Machine
end

