-- ==== Sys2Proof/Laws/Table.lean ====
section
/-! SUPPORT. The slot array as registrations: where a pair is live, what the searches of the route commands find in those
terms, and the slot invariants of R16 kept by filling a free slot, freeing one, and emptying the table. -/

namespace Sys2Proof.Machine

/-- A live pair stands in the slot array. -/
theorem LiveAt.mem {s : State} {i : Nat} {m r : Word} (h : LiveAt s i m r) : some { msgid := m, routeid := r } ∈ s.slots :=
  List.mem_of_getElem? h

/-- A live pair's slot is a slot. -/
theorem LiveAt.lt {s : State} {i : Nat} {m r : Word} (h : LiveAt s i m r) : i < s.slots.length :=
  (List.getElem?_eq_some_iff.mp h).1

/-- A pair in the slot array is live at some index. -/
theorem liveAt_of_mem {s : State} {e : RouteEntry} (h : some e ∈ s.slots) : ∃ i, LiveAt s i e.msgid e.routeid := by
  obtain ⟨i, hi⟩ := List.mem_iff_getElem?.mp h
  exact ⟨i, hi⟩

/-- Some live slot holds the MessageId: check (2) of R114. -/
theorem any_holdsMsg {s : State} {m : Word} : s.slots.any (holdsMsg m) = true ↔ ∃ i q, LiveAt s i m q := by
  rw [List.any_eq_true]
  constructor
  · rintro ⟨sl, h1, h2⟩
    obtain ⟨e, rfl, rfl⟩ := holdsMsg_iff.mp h2
    obtain ⟨i, hl⟩ := liveAt_of_mem h1
    exact ⟨i, _, hl⟩
  · rintro ⟨i, q, h⟩
    exact ⟨_, h.mem, holdsMsg_iff.mpr ⟨_, rfl, rfl⟩⟩

/-- Some live slot holds the RouteId: check (4) of R114. -/
theorem any_holdsRoute {s : State} {r : Word} : s.slots.any (holdsRoute r) = true ↔ ∃ i m, LiveAt s i m r := by
  rw [List.any_eq_true]
  constructor
  · rintro ⟨sl, h1, h2⟩
    obtain ⟨e, rfl, rfl⟩ := holdsRoute_iff.mp h2
    obtain ⟨i, hl⟩ := liveAt_of_mem h1
    exact ⟨i, _, hl⟩
  · rintro ⟨i, q, h⟩
    exact ⟨_, h.mem, holdsRoute_iff.mpr ⟨_, rfl, rfl⟩⟩

/-- A slot that is not free is live (R15). -/
theorem not_free_iff {s : State} {i : Nat} (hi : i < s.slots.length) :
    s.slots[i]? ≠ some none ↔ ∃ n q, LiveAt s i n q := by
  unfold LiveAt
  rw [List.getElem?_eq_getElem hi]
  cases s.slots[i] with
  | none => simp
  | some e => simpa using ⟨e.msgid, e.routeid, rfl⟩

/-- A symmetric pairwise relation that fails for the elements at two indices makes the indices equal. -/
theorem pairwise_index_unique {α : Type} {R : α → α → Prop} {l : List α} (hp : l.Pairwise R) {i j : Nat} {a b : α}
    (hi : l[i]? = some a) (hj : l[j]? = some b) (hs : ∀ a b, R a b → R b a) (h : ¬ R a b) : i = j := by
  rw [List.pairwise_iff_getElem] at hp
  obtain ⟨h1, rfl⟩ := List.getElem?_eq_some_iff.mp hi
  obtain ⟨h2, rfl⟩ := List.getElem?_eq_some_iff.mp hj
  rcases lt_trichotomy i j with h3 | h3 | h3
  · exact absurd (hp i j h1 h2 h3) h
  · exact h3
  · exact absurd (hs _ _ (hp j i h2 h1 h3)) h

/-- INV2 makes the slot of a RouteId unique (R16). -/
theorem LiveAt.route_unique {s : State} {i j : Nat} {m n r : Word} (h1 : LiveAt s i m r) (h2 : LiveAt s j n r)
    (hu : handlesUnique s.slots) : i = j :=
  pairwise_index_unique hu h1 h2 (fun _ _ h e he f hf => (h f hf e he).symm) (by simp)

/-- INV1 makes the slot of a MessageId unique (R16). -/
theorem LiveAt.msg_unique {s : State} {i j : Nat} {m q r : Word} (h1 : LiveAt s i m q) (h2 : LiveAt s j m r)
    (hu : keysUnique s.slots) : i = j :=
  pairwise_index_unique hu h1 h2 (fun _ _ h e he f hf => (h f hf e he).symm) (by simp)

/-- What the search of `RT_DEREG` finds (R116). -/
theorem findIdx_holdsRoute {s : State} {r : Word} {n : Nat} (h : s.slots.findIdx? (holdsRoute r) = some n) :
    ∃ m, LiveAt s n m r := by
  rw [List.findIdx?_eq_some_iff_getElem] at h
  obtain ⟨h1, h2, -⟩ := h
  obtain ⟨e, h3, rfl⟩ := holdsRoute_iff.mp h2
  exact ⟨e.msgid, by unfold LiveAt; rw [List.getElem?_eq_getElem h1, h3]⟩

/-- When the search of `RT_DEREG` finds nothing (R116). -/
theorem findIdx_holdsRoute_none {s : State} {r : Word} :
    s.slots.findIdx? (holdsRoute r) = none ↔ ∀ i m, ¬ LiveAt s i m r := by
  rw [List.findIdx?_eq_none_iff]
  constructor
  · intro h i m hl
    have := h _ hl.mem
    simp [holdsRoute] at this
  · intro h sl hsl
    rw [← Bool.not_eq_true, holdsRoute_iff]
    rintro ⟨e, rfl, rfl⟩
    obtain ⟨i, hl⟩ := liveAt_of_mem hsl
    exact h i _ hl

/-- A legal RouteId is not 0 and at most `MAX_ROUTES` (R18). -/
theorem routeIdLegal_iff_ne {n : Nat} {r : Word} : routeIdLegal n r = true ↔ r ≠ 0 ∧ r.toNat ≤ n := by
  simp [routeIdLegal, routeInvalid]

/-- A pairwise relation is kept by putting in one element that is related to every other, both ways. -/
theorem pairwise_set {α : Type} {R : α → α → Prop} {l : List α} {i : Nat} {a : α} (hp : l.Pairwise R)
    (h : ∀ x ∈ l, R x a ∧ R a x) : (l.set i a).Pairwise R := by
  rw [List.pairwise_iff_getElem] at hp ⊢
  intro m n hm hn hmn
  simp only [List.length_set] at hm hn
  rw [List.getElem_set, List.getElem_set]
  split
  · split
    · omega
    · exact (h _ (List.getElem_mem hn)).2
  · split
    · exact (h _ (List.getElem_mem hm)).1
    · exact hp m n hm hn hmn

/-- Checks (1), (2) and (4) of R114 keep R16 (R119). -/
theorem SlotInv.fill {n : Nat} {slots : List Slot} (h : SlotInv n slots) (i : Nat) {m r : Word}
    (hm : slots.any (holdsMsg m) = false) (hr : slots.any (holdsRoute r) = false) (hl : routeIdLegal n r = true) :
    SlotInv n (slots.set i (some { msgid := m, routeid := r })) := by
  rw [List.any_eq_false] at hm hr
  rw [routeIdLegal_iff] at hl
  refine ⟨pairwise_set h.keys ?_, pairwise_set h.handles ?_, ?_⟩
  · intro x hx
    have hxm := hm x hx
    cases x with
    | none => simp
    | some e =>
      simp only [holdsMsg, beq_iff_eq] at hxm
      simpa using ⟨hxm, fun he => hxm he.symm⟩
  · intro x hx
    have hxr := hr x hx
    cases x with
    | none => simp
    | some e =>
      simp only [holdsRoute, beq_iff_eq] at hxr
      simpa using ⟨hxr, fun he => hxr he.symm⟩
  · intro x hx e he
    rcases List.mem_or_eq_of_mem_set hx with hx | rfl
    · exact h.legal x hx e he
    · cases he; exact hl

/-- Freeing a slot keeps R16 (R119). -/
theorem SlotInv.free {n : Nat} {slots : List Slot} (h : SlotInv n slots) (i : Nat) : SlotInv n (slots.set i none) := by
  refine ⟨pairwise_set h.keys (by simp), pairwise_set h.handles (by simp), ?_⟩
  intro x hx e he
  rcases List.mem_or_eq_of_mem_set hx with hx | rfl
  · exact h.legal x hx e he
  · cases he

/-- The empty table satisfies R16 (R119). -/
theorem SlotInv.empty (n k : Nat) : SlotInv n (List.replicate k none) := by
  refine ⟨List.pairwise_replicate.mpr (by simp), List.pairwise_replicate.mpr (by simp), ?_⟩
  intro x hx e he
  rw [List.eq_of_mem_replicate hx] at he
  cases he

/-- Every command keeps the invariant of the state (R119). -/
theorem exec_keeps_inv {i : Instr} {s t : State} (h : StateInv s) (he : exec i s = .next t) : StateInv t := by
  rcases group_cases i with hg | hg | hg
  · rcases exec_get_next hg he with rfl | ⟨base, ks, v, rfl⟩ <;> exact ⟨h.params, h.slotCount, h.mem, h.table⟩
  · obtain ⟨f, buf, v, rfl⟩ := isSet_cases hg
    rcases exec_setField_next h.mem he with rfl | ⟨base, rfl, -, -, e⟩
    · exact ⟨h.params, h.slotCount, h.mem, h.table⟩
    · exact ⟨e.params ▸ h.params, by rw [e.slots, e.params]; exact h.slotCount, e.wf,
        by rw [e.rtInited, e.slots, e.params]; exact h.table⟩
  · rcases exec_route_next hg he with ⟨-, rfl⟩ | ⟨hr, ⟨st, -, -, rfl⟩ | ⟨m, -, rfl⟩ | ⟨m, r, k, -, h1, h2, -, h4, rfl⟩ |
      ⟨r, n, -, -, -, rfl⟩ | ⟨c, v0, v1, v2, -, rfl⟩⟩
    · exact ⟨h.params, by simp, h.mem, fun _ => SlotInv.empty ..⟩
    · exact ⟨h.params, h.slotCount, h.mem, h.table⟩
    · exact ⟨h.params, h.slotCount, h.mem, h.table⟩
    · exact ⟨h.params, by simpa using h.slotCount, h.mem, fun _ => (h.table hr).fill _ h2 h4 h1⟩
    · exact ⟨h.params, by simpa using h.slotCount, h.mem, fun _ => (h.table hr).free _⟩
    · exact ⟨h.params, h.slotCount, h.mem, h.table⟩

end Sys2Proof.Machine
end

