-- ==== Sys2Proof/Tests/Slice0.lean ====
section
/-! SUPPORT. The model's own tests. Expected values are the spec's: its encodings (30_encoding.md sections 2, 4 and 7), its
vectors (95_test_vectors.md, by their names there) and the corner cases of its rules. `test_` theorems check one decode or one
step; `witness_` theorems show that the hypotheses of a statement can be met together. -/

namespace Sys2Proof.Machine

/-! ## Small states -/

/-- `TESTCFG` (R6): `SIZE_OFFSET = 7`, `MAX_ROUTES = 8`, `HASH_MOD`. -/
def testParams : Params := { sizeOffset := 7, maxRoutes := 8, hashTable := [], regions := [] }

/-- Memory with these bytes from this address on. -/
def bytesAt (a : Nat) (bs : List Byte) : Memory :=
  match bs with
  | [] => []
  | b :: rest => Memory.write (bytesAt (a + 1) rest) a b

/-- A state under `TESTCFG` before `RT_INIT`, with these bytes in memory. -/
def bufferState (a : Nat) (bs : List Byte) : State :=
  { params := testParams
    rtInited := false
    slots := List.replicate 8 none
    mem := bytesAt a bs
    queues := []
    inboxes := []
    events := []
    response := none
    accesses := []
    resets := 0 }

/-- The second header of V-GET, at an odd address (R40). -/
def headerState : State := bufferState 0x1003 [0x9F, 0x5A, 0x7B, 0xCD, 0x12, 0x34]

/-- The all-ones buffer of V-SET. -/
def onesState : State := bufferState 0x3000 (List.replicate 8 0xFF)

/-- A live slot. -/
def pair (m r : Word) : Slot := some { msgid := m, routeid := r }

/-- A state under `TESTCFG` after `RT_INIT`, with this table. -/
def tableState (slots : List Slot) : State := { bufferState 0 [] with rtInited := true, slots := slots }

/-- `T0` of V-RT. -/
def t0 : State := tableState [pair 0x16 3, pair 0x800 4, none, none, none, none, pair 0x1006 1, pair 0x80E 2]

/-- The eight registrations of P3, lines 2 to 9. -/
def p3Pairs : List (Word × Word) :=
  [(0x100, 1), (0x108, 2), (0x110, 3), (0x118, 4), (0x120, 5), (0x128, 6), (0x130, 7), (0x138, 8)]

/-- The full table of P3 after line 9. -/
def fullState : State := tableState (p3Pairs.map fun p => pair p.1 p.2)

/-- A state whose issuer 0 has sent these packets and whose next events are these. -/
def portState (s : State) (ps : List Packet) (es : List Event) : State := { s with queues := [ps], events := es }

/-- The bytes of memory from an address on. -/
def readBytes (m : Memory) (a n : Nat) : List Byte := (List.range n).map fun i => m.read (a + i)

/-- The eight bytes at 0x3000 after a command that answers `SUCCESS`. -/
def bufferAfter (i : Instr) (s : State) : Option (List Byte) :=
  match exec i s with
  | .next t => if t.response.map Response.status = some .success then some (readBytes t.mem 0x3000 8) else none
  | .fault _ => none
  | .refused _ => none

/-- The status and results of a command. -/
def answer (i : Instr) (s : State) : Option (List Word) := (answerOf i s).map Response.words

/-- The table after a command. -/
def tableAfter (i : Instr) (s : State) : Option (List Slot) :=
  match exec i s with
  | .next t => some t.slots
  | .fault _ => none
  | .refused _ => none

/-- The state of an answer. -/
def stateOf (a : Answer) : Option State :=
  match a with
  | .next t => some t
  | .fault _ => none
  | .refused _ => none

/-- Why an answer is a refusal. -/
def refusalOf (a : Answer) : Option Refusal :=
  match a with
  | .next _ => none
  | .fault _ => none
  | .refused r => some r

/-! ## Ill-formed packets, one for each cause of R57, and the borders of the reserved opcodes -/

theorem test_illegal_reserved_bit_10 :
    (⟨0x00000713, 0, 0x1000⟩ : Packet).wellFormed = false ∧ decode ⟨0x00000713, 0, 0x1000⟩ = none :=
  by decide

theorem test_illegal_reserved_bit_31 :
    (⟨0x80000310, 0, 0x1000⟩ : Packet).wellFormed = false ∧ decode ⟨0x80000310, 0, 0x1000⟩ = none :=
  by decide

theorem test_illegal_reserved_opcode :
    (⟨0x00000318, 0, 0x1000⟩ : Packet).wellFormed = false ∧ decode ⟨0x00000318, 0, 0x1000⟩ = none :=
  by decide

theorem test_illegal_set_with_out :
    (⟨0x00000323, 5, 0x1000⟩ : Packet).wellFormed = false ∧ decode ⟨0x00000323, 5, 0x1000⟩ = none :=
  by decide

theorem test_illegal_route_with_buffer :
    (⟨0x00000131, 0x1006, 0⟩ : Packet).wellFormed = false ∧ decode ⟨0x00000131, 0x1006, 0⟩ = none :=
  by decide

theorem test_illegal_route_with_out :
    (⟨0x00000230, 0, 0⟩ : Packet).wellFormed = false ∧ decode ⟨0x00000230, 0, 0⟩ = none :=
  by decide

theorem test_illegal_opcode_borders :
    ([0x00#32, 0x0F#32, 0x18#32, 0x1F#32, 0x27#32, 0x2F#32, 0x35#32, 0xFF#32].all fun c =>
      !(⟨c, 0, 0⟩ : Packet).wellFormed && (decode ⟨c, 0, 0⟩).isNone) = true :=
  by decide

/-! ## Decoding: a word written out for every command (R52 to R55, section 7 of 30_encoding.md, V-ENC) -/

theorem test_decode_getVersion :
    decode ⟨0x00000310, 0xDEADBEEF, 0x1000⟩ = some (.getVersion (some 0x1000) true) :=
  by decide

theorem test_decode_getType : decode ⟨0x00000311, 0xDEADBEEF, 0x1000⟩ = some (.getType (some 0x1000) true) := by decide

theorem test_decode_getSecHdr : decode ⟨0x00000312, 0xDEADBEEF, 0x1000⟩ = some (.getSecHdr (some 0x1000) true) := by decide

theorem test_decode_getApid : decode ⟨0x00000313, 0xDEADBEEF, 0x1000⟩ = some (.getApid (some 0x1000) true) := by decide

theorem test_decode_getSegFlag :
    decode ⟨0x00000314, 0xDEADBEEF, 0x1000⟩ = some (.getSegFlag (some 0x1000) true) :=
  by decide

theorem test_decode_getSeqCnt : decode ⟨0x00000315, 0xDEADBEEF, 0x1000⟩ = some (.getSeqCnt (some 0x1000) true) := by decide

theorem test_decode_getSize : decode ⟨0x00000316, 0xDEADBEEF, 0x1000⟩ = some (.getSize (some 0x1000) true) := by decide

theorem test_decode_getMsgId : decode ⟨0x00000317, 0xDEADBEEF, 0x1000⟩ = some (.getMsgId (some 0x1000) true) := by decide

theorem test_decode_setVersion :
    decode ⟨0x00000120, 0x80000005, 0x1000⟩ = some (.setVersion (some 0x1000) 0x80000005) :=
  by decide

theorem test_decode_setType :
    decode ⟨0x00000121, 0x80000005, 0x1000⟩ = some (.setType (some 0x1000) 0x80000005) :=
  by decide

theorem test_decode_setSecHdr :
    decode ⟨0x00000122, 0x80000005, 0x1000⟩ = some (.setSecHdr (some 0x1000) 0x80000005) :=
  by decide

theorem test_decode_setApid :
    decode ⟨0x00000123, 0x80000005, 0x1000⟩ = some (.setApid (some 0x1000) 0x80000005) :=
  by decide

theorem test_decode_setSegFlag :
    decode ⟨0x00000124, 0x80000005, 0x1000⟩ = some (.setSegFlag (some 0x1000) 0x80000005) :=
  by decide

theorem test_decode_setSeqCnt :
    decode ⟨0x00000125, 0x80000005, 0x1000⟩ = some (.setSeqCnt (some 0x1000) 0x80000005) :=
  by decide

theorem test_decode_setSize :
    decode ⟨0x00000126, 0x80000005, 0x1000⟩ = some (.setSize (some 0x1000) 0x80000005) :=
  by decide

theorem test_decode_rtInit : decode ⟨0x00000030, 0x5, 0x7⟩ = some .rtInit := by decide

theorem test_decode_rtGet : decode ⟨0x00000031, 0x1006, 0xDEADBEEF⟩ = some (.rtGet 0x1006) := by decide

theorem test_decode_rtSet : decode ⟨0x00000032, 0x1006, 0x1⟩ = some (.rtSet 0x1006 1) := by decide

theorem test_decode_rtDereg : decode ⟨0x00000033, 0x9, 0x2⟩ = some (.rtDereg 2) := by decide

theorem test_decode_rtIter : decode ⟨0x00000034, 0x7, 0x9⟩ = some (.rtIter 7) := by decide

theorem test_decode_absent_references :
    decode ⟨0x00000113, 0, 0x1000⟩ = some (.getApid (some 0x1000) false) ∧
      decode ⟨0x00000213, 0, 0x1000⟩ = some (.getApid none true) ∧ decode ⟨0x00000013, 0, 0⟩ = some (.getApid none false) ∧
      decode ⟨0x00000026, 0x10, 0⟩ = some (.setSize none 16) :=
  by decide

theorem test_encode_examples :
    encode (.getApid (some 0x1000) true) = ⟨0x00000313, 0, 0x1000⟩ ∧
      encode (.setApid (some 0x1000) 0x7FF) = ⟨0x00000123, 0x7FF, 0x1000⟩ ∧ encode (.rtSet 0x1006 1) = ⟨0x00000032, 0x1006, 1⟩ ∧
      assemble .rtFirst = ⟨0x00000034, 0, 0⟩ :=
  by decide

theorem test_decodeTableWord :
    decodeTableWord 32 0x32 = some (.rtSet 0 0) ∧ decodeTableWord 32 0x323 = none ∧
      decodeTableWord 96 0x00001000000007FF00000123 = some (.setApid (some 0x1000) 0x7FF) :=
  by decide

/-! ## The Gets: second row of V-GET, and the corner cases of R71 to R78 -/

theorem test_getVersion : answer (.getVersion (some 0x1003) true) headerState = some [0, 4, 0, 0] := by decide

theorem test_getVersion_corner :
    answer (.getVersion (some 0x1000) true) (bufferState 0x1000 [0x1F]) = some [0, 0, 0, 0] :=
  by decide

theorem test_getType : answer (.getType (some 0x1003) true) headerState = some [0, 1, 0, 0] := by decide

theorem test_getType_corner :
    answer (.getType (some 0x1000) true) (bufferState 0x1000 [0xEF]) = some [0, 0, 0, 0] :=
  by decide

theorem test_getSecHdr : answer (.getSecHdr (some 0x1003) true) headerState = some [0, 1, 0, 0] := by decide

theorem test_getSecHdr_corner :
    answer (.getSecHdr (some 0x1000) true) (bufferState 0x1000 [0xF7]) = some [0, 0, 0, 0] :=
  by decide

theorem test_getApid : answer (.getApid (some 0x1003) true) headerState = some [0, 0x75A, 0, 0] := by decide

theorem test_getApid_corner :
    answer (.getApid (some 0x1000) true) (bufferState 0x1000 [0xF8, 0x00]) = some [0, 0, 0, 0] :=
  by decide

theorem test_getSegFlag : answer (.getSegFlag (some 0x1003) true) headerState = some [0, 1, 0, 0] := by decide

theorem test_getSegFlag_corner :
    answer (.getSegFlag (some 0x1000) true) (bufferState 0x1000 [0, 0, 0x3F]) = some [0, 0, 0, 0] :=
  by decide

theorem test_getSeqCnt : answer (.getSeqCnt (some 0x1003) true) headerState = some [0, 0x3BCD, 0, 0] := by decide

theorem test_getSeqCnt_corner :
    answer (.getSeqCnt (some 0x1000) true) (bufferState 0x1000 [0, 0, 0xC0, 0x00]) = some [0, 0, 0, 0] :=
  by decide

theorem test_getSize : answer (.getSize (some 0x1003) true) headerState = some [0, 0x123B, 0, 0] := by decide

theorem test_getSize_corner :
    answer (.getSize (some 0x1000) true) (bufferState 0x1000 [0, 0, 0, 0, 0xFF, 0xFF]) = some [0, 0x10006, 0, 0] :=
  by decide

theorem test_getMsgId : answer (.getMsgId (some 0x1003) true) headerState = some [0, 0x975A, 0, 0] := by decide

theorem test_getMsgId_corner :
    answer (.getMsgId (some 0x1000) true) (bufferState 0x1000 [0xFF, 0xFF]) = some [0, 0xF7FF, 0, 0] :=
  by decide

theorem test_get_absent_references :
    answer (.getApid none true) headerState = some [1, 0, 0, 0] ∧
      answer (.getApid (some 0x1003) false) headerState = some [1, 0, 0, 0] :=
  by decide

theorem test_get_reads_only_touched_bytes :
    (stateOf (exec (.getSize (some 0x1003) true) headerState)).map State.accesses = some [.read 0x1007 0x12, .read 0x1008 0x34] :=
  by decide

/-! ## The Sets: V-SET on the all-ones buffer, in range and out of range -/

theorem test_setVersion :
    bufferAfter (.setVersion (some 0x3000) 5) onesState = some [0xBF, 0xFF, 0xFF, 0xFF, 0xFF, 0xFF, 0xFF, 0xFF] :=
  by decide

theorem test_setVersion_out_of_range :
    exec (.setVersion (some 0x3000) 8) onesState = .next (onesState.raise .badArgument) :=
  rfl

theorem test_setType :
    bufferAfter (.setType (some 0x3000) 0) onesState = some [0xEF, 0xFF, 0xFF, 0xFF, 0xFF, 0xFF, 0xFF, 0xFF] :=
  by decide

theorem test_setType_out_of_range : exec (.setType (some 0x3000) 2) onesState = .next (onesState.raise .badArgument) := rfl

theorem test_setSecHdr :
    bufferAfter (.setSecHdr (some 0x3000) 0) onesState = some [0xF7, 0xFF, 0xFF, 0xFF, 0xFF, 0xFF, 0xFF, 0xFF] :=
  by decide

theorem test_setSecHdr_out_of_range :
    exec (.setSecHdr (some 0x3000) 2) onesState = .next (onesState.raise .badArgument) :=
  rfl

theorem test_setApid :
    bufferAfter (.setApid (some 0x3000) 0x123) onesState = some [0xF9, 0x23, 0xFF, 0xFF, 0xFF, 0xFF, 0xFF, 0xFF] :=
  by decide

theorem test_setApid_out_of_range :
    exec (.setApid (some 0x3000) 0x80000000) onesState = .next (onesState.raise .badArgument) :=
  rfl

theorem test_setSegFlag :
    bufferAfter (.setSegFlag (some 0x3000) 1) onesState = some [0xFF, 0xFF, 0x7F, 0xFF, 0xFF, 0xFF, 0xFF, 0xFF] :=
  by decide

theorem test_setSegFlag_out_of_range :
    exec (.setSegFlag (some 0x3000) 4) onesState = .next (onesState.raise .badArgument) :=
  rfl

theorem test_setSeqCnt :
    bufferAfter (.setSeqCnt (some 0x3000) 0x1234) onesState = some [0xFF, 0xFF, 0xD2, 0x34, 0xFF, 0xFF, 0xFF, 0xFF] :=
  by decide

theorem test_setSeqCnt_out_of_range :
    exec (.setSeqCnt (some 0x3000) 0x4000) onesState = .next (onesState.raise .badArgument) :=
  rfl

theorem test_setSize :
    bufferAfter (.setSize (some 0x3000) 0x107) onesState = some [0xFF, 0xFF, 0xFF, 0xFF, 0x01, 0x00, 0xFF, 0xFF] :=
  by decide

theorem test_setSize_borders :
    answer (.setSize (some 0x3000) 6) onesState = some [1, 0, 0, 0] ∧
      answer (.setSize (some 0x3000) 0) onesState = some [1, 0, 0, 0] ∧
      answer (.setSize (some 0x3000) 0x10006) onesState = some [0, 0, 0, 0] ∧
      answer (.setSize (some 0x3000) 0x10007) onesState = some [1, 0, 0, 0] :=
  by decide

theorem test_set_reads_then_writes :
    (stateOf (exec (.setApid (some 0x3000) 0x123) onesState)).map State.accesses =
      some [.read 0x3000 0xFF, .read 0x3001 0xFF, .write 0x3000 0xF9, .write 0x3001 0x23] :=
  by decide

/-! ## The route table: V-RT on T0, P3 on the full table, R121 -/

theorem test_rtInit :
    tableAfter .rtInit t0 = some (List.replicate 8 none) ∧ answer .rtInit (bufferState 0 []) = some [0, 0, 0, 0] :=
  by decide

theorem test_rtGet : answer (.rtGet 0x16) t0 = some [0, 3, 0, 0] ∧ answer (.rtGet 0x801) t0 = some [0, 0, 0, 0] := by decide

theorem test_rtGet_before_init :
    refusalOf (exec (.rtGet 0x16) (bufferState 0 [])) = some .routeTableNotInitialised :=
  by decide

theorem test_rtSet :
    answer (.rtSet 0x1E 5) t0 = some [0, 4, 0, 0] ∧
      tableAfter (.rtSet 0x1E 5) t0 = some (t0.slots.set 2 (pair 0x1E 5)) :=
  by decide

theorem test_rtSet_checks :
    answer (.rtSet 0x1006 0) t0 = some [1, 0, 0, 0] ∧ answer (.rtSet 0x2000 9) t0 = some [1, 0, 0, 0] ∧
      answer (.rtSet 0x1006 1) t0 = some [3, 0, 0, 0] ∧ answer (.rtSet 0x2000 1) t0 = some [1, 0, 0, 0] ∧
      answer (.rtSet 0x999 1) fullState = some [2, 0, 0, 0] ∧ answer (.rtSet 0x100 5) fullState = some [3, 0, 0, 0] :=
  by decide

theorem test_rtDereg :
    answer (.rtDereg 2) t0 = some [0, 0, 0, 0] ∧ tableAfter (.rtDereg 2) t0 = some (t0.slots.set 7 none) :=
  by decide

theorem test_rtDereg_bad :
    answer (.rtDereg 5) t0 = some [1, 0, 0, 0] ∧ answer (.rtDereg 0) t0 = some [1, 0, 0, 0] ∧
      answer (.rtDereg 9) t0 = some [1, 0, 0, 0] :=
  by decide

theorem test_rtIter :
    answer (.rtIter 2) t0 = some [0, 0x1006, 1, 7] ∧ answer (.rtIter 7) t0 = some [0, 0x80E, 2, 8] :=
  by decide

theorem test_rtIter_end :
    answer (.rtIter 8) t0 = some [0, 0, 0, 8] ∧ answer (.rtIter 0xFFFFFFFF) t0 = some [0, 0, 0, 8] :=
  by decide

/-! ## The fixed-width pattern (R50), and the numbering of table words (log 8) -/

theorem test_encodePattern_cmd_most_significant :
    encodePattern (.rtSet 0x1006 1) = 0x00000032_00001006_00000001#96 ∧
      encodePattern (.setApid (some 0x1000) 0x7FF) = 0x00000123_000007FF_00001000#96 :=
  by decide

theorem test_decodeTableWord_numbers_cmd_first :
    decodeTableWord 96 (1 * 2 ^ 64 + 0x1006 * 2 ^ 32 + 0x32) = some (.rtSet 0x1006 1) ∧
      decodeTableWord 32 0x31 = some (.rtGet 0) :=
  by decide

/-! ## Steps -/

theorem test_step_runs_the_placed_word :
    (stateOf (step (t0.withFetchWord 32 0x00000031))).map State.response =
      some (some { status := .success, res0 := 0, res1 := 0, res2 := 0 }) :=
  by decide

theorem test_step_illegal_before_init :
    (stateOf (step (portState (bufferState 0 []) [⟨0x131, 1, 0⟩] [.command 0]))).map State.response =
      some (some { status := .badArgument, res0 := 0, res1 := 0, res2 := 0 }) :=
  by decide

theorem test_step_store_race :
    refusalOf (step (portState onesState [⟨0x120, 5, 0x3000⟩] [.store 0x3000 1])) = some .dataRace ∧
      refusalOf (step (portState onesState [⟨0x120, 5, 0x3000⟩] [.store 0x3001 1])) = none :=
  by decide

/-- R45(a), R164: the window opens when the command is sent, not before. -/
theorem test_step_store_before_sending_lands :
    (stateOf (step (portState onesState [] [.store 0x3000 1, .send 0 ⟨0x120, 5, 0x3000⟩, .command 0]))).map
      (fun t => readBytes t.mem 0x3000 2) = some [0x01, 0xFF] :=
  by decide

/-- R43(a): a sent command waits behind its issuer's earlier ones. -/
theorem test_step_send_waits_last :
    (stateOf (step (portState t0 [⟨0x30, 0, 0⟩] [.send 0 ⟨0x31, 0x16, 0⟩]))).map State.queues =
        some [[⟨0x30, 0, 0⟩, ⟨0x31, 0x16, 0⟩]] ∧
      (stateOf (step (portState t0 [] [.send 1 ⟨0x31, 0x16, 0⟩]))).map State.queues = some [[], [⟨0x31, 0x16, 0⟩]] :=
  by decide

/-- R164: the window closes when the response is received, not before. -/
theorem test_step_window_closes_at_receipt :
    let answered := { portState onesState [] [.store 0x3000 1] with
      inboxes := [[(⟨0x120, 5, 0x3000⟩, ⟨.success, 0, 0, 0⟩)]] }
    refusalOf (step answered) = some .dataRace ∧
      (stateOf (step { answered with events := [.receive 0] })).map State.inboxes = some [[]] :=
  by decide

theorem test_step_load_of_get_is_no_race :
    refusalOf (step (portState onesState [⟨0x310, 0, 0x3000⟩] [.load 0x3000])) = none ∧
      refusalOf (step (portState onesState [⟨0x120, 5, 0x3000⟩] [.load 0x3000])) = some .dataRace :=
  by decide

theorem test_step_reset_cuts_a_set :
    (stateOf (step (portState onesState [⟨0x123, 0x123, 0x3000⟩] [.resetDuring 0 [false, true]]))).map
      (fun t => (readBytes t.mem 0x3000 2, t.response, t.rtInited)) = some ([0xFF, 0x23], none, false) :=
  by decide

/-! ## Witnesses: the hypotheses of the statements, met together by concrete states and operands -/

/-- `T0` is a state the invariant allows. -/
theorem t0_inv : StateInv t0 :=
  { params := by decide, slotCount := by decide, mem := by decide
    table := fun _ => { keys := by decide, handles := by decide, legal := by decide } }

/-- So is the full table. -/
theorem fullState_inv : StateInv fullState :=
  { params := by decide, slotCount := by decide, mem := by decide
    table := fun _ => { keys := by decide, handles := by decide, legal := by decide } }

/-- A MessageId no slot of `T0` holds. -/
theorem t0_no_msg : ∀ i q, ¬ LiveAt t0 i 0x2003 q := by
  have h : t0.slots.any (holdsMsg 0x2003) = false := by decide
  intro i q hl
  rw [any_holdsMsg.mpr ⟨i, q, hl⟩] at h
  cases h

/-- A legal RouteId no slot of `T0` holds. -/
theorem t0_no_route : ∀ i m, ¬ LiveAt t0 i m 8 := by
  have h : t0.slots.any (holdsRoute 8) = false := by decide
  intro i m hl
  rw [any_holdsRoute.mpr ⟨i, m, hl⟩] at h
  cases h

theorem witness_EncodeOfDecodedZeroesIgnoredFieldsOnly :
    decode ⟨0x00000031, 0x1006, 0xDEADBEEF⟩ = some (.rtGet 0x1006) := by decide

theorem witness_DecoderAgreesWithOpcodeTable :
    ((0x313#32) &&& 0xFFFFFCFF#32 = 0x13#32) ∧ decode ⟨0x313, 0, 0⟩ = some (.getApid (some 0) true) ∧
      (opcode (.getApid (some 0) true)).setWidth 32 = 0x13#32 := by decide

theorem witness_StepExecutesTheDecodedCommand :
    (portState t0 [⟨0x31, 0x16, 0⟩, ⟨0x30, 0, 0⟩] [.command 0, .reset]).events = [.command 0, .reset] ∧
      (portState t0 [⟨0x31, 0x16, 0⟩, ⟨0x30, 0, 0⟩] []).queues[0]? = some [⟨0x31, 0x16, 0⟩, ⟨0x30, 0, 0⟩] ∧
      decode ⟨0x31, 0x16, 0⟩ = some (.rtGet 0x16) := by decide

/-- Two steps: issuer 0, with one command waiting, sends another, and the port takes the first. -/
theorem witness_CommandsOfAnIssuerAreTakenInTheOrderSent :
    ((traffic 2 0 (portState t0 [⟨0x30, 0, 0⟩] [.send 0 ⟨0x31, 0x16, 0⟩, .command 0])).map
        fun x => (x.1, x.2.1, x.2.2.pending 0)) =
      some ([⟨0x31, 0x16, 0⟩], [⟨0x30, 0, 0⟩], [⟨0x31, 0x16, 0⟩]) ∧
    (portState t0 [] [.receive 0]).events = [.receive 0] := by decide

theorem witness_IllegalCommandIsAnsweredBadArgument :
    (portState t0 [⟨0x323, 5, 0x1000⟩] [.command 0]).events = [.command 0] ∧
      (portState t0 [⟨0x323, 5, 0x1000⟩] [.command 0]).queues[0]? = some [⟨0x323, 5, 0x1000⟩] ∧
      (⟨0x323, 5, 0x1000⟩ : Packet).illegal = true := by decide

theorem witness_EveryCompletedCommandSendsOneResponse :
    runPacket ⟨0x31, 0x16, 0⟩ t0 = .next (t0.respond .success 3 0 0) ∧ ∀ c, decode ⟨0x31, 0x16, 0⟩ ≠ some (.rtIter c) :=
  ⟨rfl, by
    have h : decode ⟨0x31, 0x16, 0⟩ = some (.rtGet 0x16) := by decide
    intro c; rw [h]; simp⟩

/-- A step that executes a command of the second of two issuers. -/
theorem witness_EveryCompletedCommandSendsOneResponse_step :
    let s := { t0 with queues := [[], [⟨0x31, 0x16, 0⟩]], events := [.command 1] }
    s.events = [.command 1] ∧ s.queues[1]? = some [⟨0x31, 0x16, 0⟩] ∧
      (stateOf (step s)).map State.inboxes = some [[], [(⟨0x31, 0x16, 0⟩, ⟨.success, 3, 0, 0⟩)]] := by decide

theorem witness_ErrorChangesNothing :
    runPacket ⟨0x33, 0, 5⟩ t0 = .next (t0.raise .badArgument) ∧
      (t0.raise .badArgument).response = some { status := .badArgument, res0 := 0, res1 := 0, res2 := 0 } ∧
      Status.badArgument ≠ .success := ⟨rfl, rfl, by decide⟩

theorem witness_UnitsAreIndependent :
    (isGet (.getApid none true) || isSet (.getApid none true)) = true ∧
      (isGet (.setApid none 5) || isSet (.setApid none 5)) = true ∧ isRoute (.rtGet 5) = true := by decide

/-- R39 for a Get at the lowest and the highest base, for every field and for `GET_MSGID`; the parameters are legal. -/
theorem witness_GetContracts :
    (∀ f, CanRead headerState 0 (touchedBytes f) ∧ CanRead headerState 0xFFFFFFFA (touchedBytes f)) ∧
      CanRead headerState 0 [0, 1] ∧ CanRead headerState 0xFFFFFFFA [0, 1] ∧ headerState.params.legal = true := by
  refine ⟨fun f => ?_, ⟨by decide, by decide⟩, ⟨by decide, by decide⟩, by decide⟩
  cases f <;> exact ⟨⟨by decide, by decide⟩, ⟨by decide, by decide⟩⟩

theorem witness_MsgIdsAgreeExactlyWhenTheirFieldsDo :
    CanRead headerState 0x1003 [0, 1] ∧ CanRead headerState 0 [0, 1] :=
  ⟨⟨by decide, by decide⟩, ⟨by decide, by decide⟩⟩

theorem witness_GetChangesOnlyTheResponse :
    isGet (.getApid none true) = true ∧ exec (.getApid none true) t0 = .next (t0.raise .badArgument) := ⟨by decide, rfl⟩

/-- Two headers that differ outside the ApplicationId and agree inside it (first and last row of V-GET). -/
theorem witness_GetDependsOnlyOnItsFieldsBits :
    CanRead (bufferState 0x1000 [0x18, 0x06]) 0x1000 (touchedBytes .apid) ∧
      CanRead (bufferState 0x1000 [0x10, 0x06]) 0x1000 (touchedBytes .apid) ∧
      headerByte (bufferState 0x1000 [0x18, 0x06]).mem 0x1000 0 ≠ headerByte (bufferState 0x1000 [0x10, 0x06]).mem 0x1000 0 ∧
      ∀ i < 16, 5 ≤ i → headerBit (headerByte (bufferState 0x1000 [0x18, 0x06]).mem 0x1000) i =
        headerBit (headerByte (bufferState 0x1000 [0x10, 0x06]).mem 0x1000) i :=
  ⟨⟨by decide, by decide⟩, ⟨by decide, by decide⟩, by decide, by decide⟩

/-- R39 for a Set at the lowest and the highest base, canonical memory, legal parameters. -/
theorem witness_SetContracts :
    onesState.mem.wf ∧ onesState.params.legal = true ∧
      ∀ f, CanWrite onesState 0 (touchedBytes f) ∧ CanWrite onesState 0xFFFFFFFA (touchedBytes f) := by
  refine ⟨by decide, by decide, fun f => ?_⟩
  cases f <;> exact ⟨⟨by decide, by decide⟩, ⟨by decide, by decide⟩⟩

/-- The borders of the ranges of R91 to R97 under `TESTCFG`: the last value inside and the first outside. -/
theorem witness_InRange_borders :
    (InRange testParams .version 7 ∧ ¬ InRange testParams .version 8) ∧
      (InRange testParams .type 1 ∧ ¬ InRange testParams .type 2) ∧
      (InRange testParams .secHdr 1 ∧ ¬ InRange testParams .secHdr 2) ∧
      (InRange testParams .apid 0x7FF ∧ ¬ InRange testParams .apid 0x800) ∧
      (InRange testParams .segFlag 3 ∧ ¬ InRange testParams .segFlag 4) ∧
      (InRange testParams .seqCnt 0x3FFF ∧ ¬ InRange testParams .seqCnt 0x4000) ∧
      (InRange testParams .size 7 ∧ ¬ InRange testParams .size 6) ∧
      InRange testParams .size 0x10006 ∧ ¬ InRange testParams .size 0x10007 := by
  simp [InRange, fieldWidth, testParams]

/-- The hypotheses of the statements about one successful Set, at both borders of the Size. -/
theorem witness_SetStatements :
    onesState.mem.wf ∧ CanWrite onesState 0x3000 (touchedBytes .size) ∧ InRange onesState.params .size 7 ∧
      InRange onesState.params .size 0x10006 ∧ ¬ InRange onesState.params .size 0x10007 ∧ CanRead onesState 0x3000 [0, 1] := by
  refine ⟨by decide, ⟨by decide, by decide⟩, ?_, ?_, ?_, ⟨by decide, by decide⟩⟩ <;>
    simp [InRange, onesState, bufferState, testParams]

theorem witness_SetChangesOnlyItsTouchedBytes :
    isSet (.setApid none 5) = true ∧ exec (.setApid none 5) t0 = .next (t0.raise .badArgument) ∧
      isSet (.setVersion (some 0x3000) 5) = true ∧
      (stateOf (exec (.setVersion (some 0x3000) 5) onesState)).isSome = true ∧
      namedBuffer (.setVersion (some 0x3000) 5) = some (0x3000, [0], true) := ⟨by decide, rfl, by decide, by decide, by decide⟩

theorem witness_CodecCommandsAreIdempotent :
    (isGet (.setVersion (some 0x3000) 5) || isSet (.setVersion (some 0x3000) 5)) = true ∧ onesState.mem.wf ∧
      (stateOf (exec (.setVersion (some 0x3000) 5) onesState)).isSome = true := ⟨by decide, by decide, by decide⟩

/-- A window that wraps, an absent byte for a Get, a read-only byte for a Set; the borders of the window. -/
theorem witness_BrokenBufferIsRefused :
    namedBuffer (.getVersion (some 0xFFFFFFFB) true) = some (0xFFFFFFFB, [0], false) ∧
      2 ^ 32 - 1 < (0xFFFFFFFB#32).toNat + 5 ∧ (0xFFFFFFFA#32).toNat + 5 ≤ 2 ^ 32 - 1 ∧
      isGet (.getVersion (some 0x1000) true) = true ∧
      (∃ k ∈ [0], readable { testParams with regions := [⟨0x1000, 1, .absent⟩] } (headerAddr 0x1000 k) = false) ∧
      isSet (.setVersion (some 0x1000) 1) = true ∧
      ∃ k ∈ [0], writable { testParams with regions := [⟨0x1000, 1, .readOnly⟩] } (headerAddr 0x1000 k) = false := by
  decide

theorem witness_RtGetAnswersTheRegisteredRoute :
    StateInv t0 ∧ t0.rtInited = true ∧ LiveAt t0 0 0x16 3 ∧ ∀ i r, ¬ LiveAt t0 i 0x2003 r :=
  ⟨t0_inv, rfl, rfl, t0_no_msg⟩

/-- The five cases of R114, each with operands at a border: RouteId 0 and 9; a registered MessageId with RouteId 8; a full
table; a RouteId in use; and MessageId 0x2003 with RouteId 8 on `T0`, which no case but the last has. -/
theorem witness_RtSetChecksThenFillsTheFirstFreeSlot :
    (StateInv t0 ∧ t0.rtInited = true) ∧ t0.params.maxRoutes < (9#32).toNat ∧ (8#32) ≠ 0 ∧
      (8#32).toNat ≤ t0.params.maxRoutes ∧ LiveAt t0 6 0x1006 1 ∧
      (StateInv fullState ∧ fullState.rtInited = true ∧ (∀ i < fullState.params.maxRoutes, ∃ n q, LiveAt fullState i n q) ∧
        ∀ i q, ¬ LiveAt fullState i 0x999 q) ∧
      (∃ i < t0.params.maxRoutes, t0.slots[i]? = some none) ∧ (∀ i q, ¬ LiveAt t0 i 0x2003 q) ∧ ∀ i m, ¬ LiveAt t0 i m 8 := by
  refine ⟨⟨t0_inv, rfl⟩, by decide, by decide, by decide, rfl, ⟨fullState_inv, rfl, ?_, ?_⟩, ⟨2, by decide, rfl⟩, t0_no_msg,
    t0_no_route⟩
  · intro i hi
    refine (not_free_iff (hi.trans_eq (by decide))).mp ?_
    revert i
    decide
  · have h : fullState.slots.any (holdsMsg 0x999) = false := by decide
    intro i q hl
    rw [any_holdsMsg.mpr ⟨i, q, hl⟩] at h
    cases h

theorem witness_ProbeSequenceVisitsEverySlotOnce :
    1 ≤ testParams.maxRoutes ∧ 1 ≤ ({ testParams with maxRoutes := 1 } : Params).maxRoutes := by decide

theorem witness_RtDeregFreesTheSlotOfTheRoute :
    StateInv t0 ∧ t0.rtInited = true ∧ t0.params.maxRoutes < (9#32).toNat ∧ LiveAt t0 7 0x80E 2 ∧ ∀ i m, ¬ LiveAt t0 i m 8 :=
  ⟨t0_inv, rfl, by decide, rfl, t0_no_route⟩

/-- A cursor with a live slot ahead, and one at `MAX_ROUTES` with none. -/
theorem witness_RtIterAnswersTheNextLivePair :
    StateInv t0 ∧ t0.rtInited = true ∧ (2#32).toNat ≤ 6 ∧ LiveAt t0 6 0x1006 1 ∧
      (∀ j n q, (2#32).toNat ≤ j → j < 6 → ¬ LiveAt t0 j n q) ∧ ∀ i m r, (8#32).toNat ≤ i → ¬ LiveAt t0 i m r := by
  refine ⟨t0_inv, rfl, by decide, rfl, ?_, ?_⟩
  · intro j n q h1 h2
    have hj : j = 2 ∨ j = 3 ∨ j = 4 ∨ j = 5 := by have h3 : 2 ≤ j := h1; omega
    rcases hj with rfl | rfl | rfl | rfl <;> exact nofun
  · intro i m r h1 hl
    have h2 : i < 8 := hl.lt
    have h3 : 8 ≤ i := h1
    omega

theorem witness_RouteCommandsBeforeInitAreRefused :
    (bufferState 0 []).rtInited = false ∧ (⟨0x131, 1, 0⟩ : Packet).illegal = true := by decide

theorem witness_RouteCommandsChangeOnlyTheirSlot :
    isRoute (.rtSet 0x2003 5) = true ∧ (stateOf (exec (.rtSet 0x2003 5) t0)).isSome = true ∧
      isRoute (.rtDereg 2) = true ∧ (stateOf (exec (.rtDereg 2) t0)).isSome = true := by decide

/-- After `RT_SET 0x2003, 5` on `T0`, another registration and a deregistration of another RouteId. -/
theorem witness_RouteIsFoundUntilDeregisteredOrReinitialised :
    StateInv t0 ∧ exec (.rtSet 0x2003 5) t0 =
        .next (({ t0 with slots := t0.slots.set 3 (pair 0x2003 5) } : State).respond .success 0 0 0) ∧
      Instr.rtInit ∉ [Instr.rtSet 0x13 6, .rtDereg 2] ∧ Instr.rtDereg 5 ∉ [Instr.rtSet 0x13 6, .rtDereg 2] ∧
      (runAll [.rtSet 0x2003 5, .rtSet 0x13 6, .rtDereg 2] t0).isSome = true :=
  ⟨t0_inv, rfl, by decide, by decide, by decide⟩

/-- Among the commands between is an `RT_SET` of the same MessageId that fails: its RouteId is 0. -/
theorem witness_RouteIsGoneUntilRegisteredAgain :
    StateInv t0 ∧ t0.rtInited = true ∧ LiveAt t0 7 0x80E 2 ∧
      exec (.rtDereg 2) t0 = .next (({ t0 with slots := t0.slots.set 7 none } : State).respond .success 0 0 0) ∧
      (∀ pre q post v, [Instr.rtSet 0x80E 0, .rtInit] = pre ++ .rtSet 0x80E q :: post →
        runAll pre (({ t0 with slots := t0.slots.set 7 none } : State).respond .success 0 0 0) = some v →
        resultOf (.rtSet 0x80E q) v = none) ∧
      (runAll [.rtDereg 2, .rtSet 0x80E 0, .rtInit] t0).isSome = true := by
  refine ⟨t0_inv, rfl, rfl, rfl, ?_, by decide⟩
  intro pre q post v h hv
  match pre, h with
  | [], h =>
    cases h; cases hv; decide
  | [_], h => cases h
  | _ :: _ :: [], h => cases h
  | _ :: _ :: _ :: _, h => cases h

/-- Two tables with the same live slots and other pairs in them. -/
theorem witness_PlacementDependsOnlyOnOccupancy :
    (∀ i : Nat, (tableState [pair 1 1, none]).slots[i]?.map Option.isSome =
        (tableState [pair 2 2, none]).slots[i]?.map Option.isSome) ∧
      (stateOf (exec (.rtSet 9 3) (tableState [pair 1 1, none]))).map State.response =
        some (some { status := .success, res0 := 0, res1 := 0, res2 := 0 }) ∧
      (stateOf (exec (.rtSet 9 4) (tableState [pair 2 2, none]))).map State.response =
        some (some { status := .success, res0 := 0, res1 := 0, res2 := 0 }) := by
  refine ⟨?_, by decide, by decide⟩
  intro i
  match i with
  | 0 => rfl
  | 1 => rfl
  | n + 2 => rfl

theorem witness_SecondRegistrationOfAMessageIsDuplicate :
    StateInv t0 ∧ exec (.rtSet 0x2003 5) t0 =
        .next (({ t0 with slots := t0.slots.set 3 (pair 0x2003 5) } : State).respond .success 0 0 0) ∧
      (8#32) ≠ 0 ∧ (8#32).toNat ≤ t0.params.maxRoutes := ⟨t0_inv, rfl, by decide, by decide⟩

/-- The eight registrations of P3, and a ninth. -/
theorem witness_MaxRoutesRegistrationsFitAndNoMore :
    StateInv t0 ∧ exec .rtInit t0 = .next (({ t0 with slots := List.replicate 8 none } : State).respond .success 0 0 0) ∧
      p3Pairs.length ≤ t0.params.maxRoutes ∧ p3Pairs.length = t0.params.maxRoutes ∧ (p3Pairs.map Prod.fst).Nodup ∧
      (p3Pairs.map Prod.snd).Nodup ∧ (∀ p ∈ p3Pairs, p.2 ≠ 0 ∧ p.2.toNat ≤ t0.params.maxRoutes) ∧
      0x999#32 ∉ p3Pairs.map Prod.fst ∧ (8#32) ≠ 0 ∧ (8#32).toNat ≤ t0.params.maxRoutes :=
  ⟨t0_inv, rfl, by decide, rfl, by decide, by decide, by simp [p3Pairs, t0, tableState, bufferState, testParams], by decide,
    by decide, by decide⟩

theorem witness_IterationEmitsExactlyTheLivePairs :
    StateInv t0 ∧ t0.rtInited = true ∧ t0.params.maxRoutes + 1 ≤ 9 ∧
      dump 9 0 t0 = [⟨0x16, 3⟩, ⟨0x800, 4⟩, ⟨0x1006, 1⟩, ⟨0x80E, 2⟩] := ⟨t0_inv, rfl, by decide, by decide⟩

theorem witness_EveryStepKeepsTheInvariant :
    StateInv t0 ∧ step t0 = .next t0.quiet ∧ StateInv (portState t0 [⟨0x33, 0, 2⟩] [.command 0]) ∧
      (stateOf (step (portState t0 [⟨0x33, 0, 2⟩] [.command 0]))).isSome = true :=
  ⟨t0_inv, rfl, ⟨t0_inv.params, t0_inv.slotCount, t0_inv.mem, t0_inv.table⟩, by decide⟩

/-- `RT_INIT` from a state not yet initialised, and each reset event from an initialised one. -/
theorem witness_OnlyInitSetsAndOnlyResetClearsInited :
    (bufferState 0 []).rtInited = false ∧
      (stateOf (step (portState (bufferState 0 []) [⟨0x30, 0, 0⟩] [.command 0]))).map State.rtInited = some true ∧
      t0.rtInited = true ∧ (stateOf (step (portState t0 [] [.reset]))).map State.rtInited = some false ∧
      (stateOf (step (portState t0 [⟨0x31, 1, 0⟩] [.resetDuring 0 []]))).map State.rtInited = some false :=
  ⟨by decide, by decide, by decide, rfl, rfl⟩

/-- A live slot in a command that keeps it, in one that frees it, and in one that empties the table; a free slot that is
filled. -/
theorem witness_SlotsChangeOnlyBySetDeregAndInit :
    t0.slots.length = t0.params.maxRoutes ∧ LiveAt t0 7 0x80E 2 ∧
      (stateOf (runPacket ⟨0x33, 0, 3⟩ t0)).isSome = true ∧ (stateOf (runPacket ⟨0x33, 0, 2⟩ t0)).isSome = true ∧
      (stateOf (runPacket ⟨0x30, 0, 0⟩ t0)).isSome = true ∧ t0.slots[3]? = some none ∧
      (stateOf (runPacket ⟨0x32, 0x2003, 5⟩ t0)).isSome = true :=
  ⟨by decide, rfl, by decide, by decide, by decide, rfl, by decide⟩

theorem witness_ResetClearsInitedAndLeavesMemory : (portState t0 [] [.reset, .load 5]).events = [.reset, .load 5] := rfl

theorem witness_CommandCutByResetLeavesOldOrNewBytes :
    onesState.mem.wf ∧
      (portState onesState [⟨0x123, 0x123, 0x3000⟩] [.resetDuring 0 [false, true]]).events = [.resetDuring 0 [false, true]] ∧
      (portState onesState [⟨0x123, 0x123, 0x3000⟩] []).queues[0]? = some [⟨0x123, 0x123, 0x3000⟩] ∧
      (stateOf (step (portState onesState [⟨0x123, 0x123, 0x3000⟩] [.resetDuring 0 [false, true]]))).isSome = true :=
  ⟨by decide, rfl, rfl, rfl⟩

/-- No command, no byte touched. -/
theorem not_touched (s : State) (es : List Event) (a : Nat) (h : s.inboxes = []) :
    ¬ TouchedByOutstanding (portState s [] es) a := by
  rintro ⟨p, hp, -⟩
  simp [portState, State.outstanding, h] at hp

/-- A Set of the Version at 0x3000, waiting at the port. -/
def waitingSet : State := portState onesState [⟨0x120, 5, 0x3000⟩] []

theorem waitingSet_outstanding : (⟨0x120, 5, 0x3000⟩ : Packet) ∈ waitingSet.outstanding := by decide

/-- A store to a touched byte of a waiting Set; one to a byte no command touches, writable or (below) read-only. -/
theorem witness_AgentAccessIsARaceOrRefusedOrTakesEffect :
    TouchedByOutstanding waitingSet (0x3000#32).toNat ∧ TouchedByOutstandingSet waitingSet (0x3000#32).toNat ∧
      onesState.mem.wf ∧ ¬ TouchedByOutstanding (portState onesState [] []) (0x3001#32).toNat ∧
      writable onesState.params (0x3001#32).toNat = true ∧
      writable { testParams with regions := [⟨0x3000, 16, .readOnly⟩] } (0x3001#32).toNat = false := by
  refine ⟨?_, ?_, by decide, not_touched onesState [] _ rfl, by decide, by decide⟩
  · exact ⟨_, waitingSet_outstanding, .setVersion (some 0x3000) 5, 0x3000, [0], true, by decide, by decide, 0, by decide,
      by decide⟩
  · exact ⟨_, waitingSet_outstanding, .setVersion (some 0x3000) 5, 0x3000, [0], true, by decide, by decide, by decide, 0,
      by decide, by decide⟩

/-- A load of a byte no Set touches, readable and (a device's byte) not. -/
theorem witness_load_that_races_with_nothing :
    ¬ TouchedByOutstandingSet (portState onesState [] [.load 0x3001]) (0x3001#32).toNat ∧
      readable onesState.params (0x3001#32).toNat = true ∧
      readable { testParams with regions := [⟨0x3000, 16, .device⟩] } (0x3001#32).toNat = false := by
  refine ⟨?_, by decide, by decide⟩
  rintro ⟨p, hp, i, base, ks, w, h1, -, h2, h3⟩
  exact not_touched onesState [.load 0x3001] _ rfl ⟨p, hp, i, base, ks, w, h1, h2, h3⟩

end Sys2Proof.Machine
end

section
/-! SUPPORT. The state's invariant and parameters along every step (R5, R15, R16, R119): which parts of the state the
invariant speaks of, which accesses of a command are writes and where, and what no command changes. -/

namespace Sys2Proof.Machine

/-- The invariant speaks of four fields only; a state that agrees in them has it too. -/
theorem StateInv.of_same {s t : State} (h : StateInv s) (hp : t.params = s.params) (hr : t.rtInited = s.rtInited)
    (hs : t.slots = s.slots) (hm : t.mem = s.mem) : StateInv t :=
  ⟨hp ▸ h.params, by rw [hs, hp]; exact h.slotCount, hm ▸ h.mem, by rw [hr, hp, hs]; exact h.table⟩

/-- Reset needs no slot invariant: `rt_inited` is 0 after it, and there are `MAX_ROUTES` slots (R15, R23). -/
theorem resetBlock_inv {s : State} (hp : s.params.legal = true) (hm : s.mem.wf) : StateInv s.resetBlock :=
  ⟨hp, resetSlots_length .., hm, nofun⟩

/-! ## What is written -/

@[simp] theorem writesOf_append (as bs : List Access) : writesOf (as ++ bs) = writesOf as ++ writesOf bs :=
  List.filterMap_append

/-- Reads are no writes (R37). -/
@[simp] theorem writesOf_readsOf (m : Memory) (base : Word) (ks : List Nat) : writesOf (readsOf m base ks) = [] := by
  simp [writesOf, readsOf]

/-- The writes on record for some header bytes are these bytes at their addresses (R38). -/
@[simp] theorem writesOf_map_write (base : Word) (ws : List (Nat × Byte)) :
    writesOf (ws.map fun w => .write (headerAddr base w.1) w.2) = ws.map fun w => (headerAddr base w.1, w.2) := by
  simp [writesOf]

/-- The bytes a Set writes lie in the address space (R31, R39(a)). -/
theorem mergeField_addr_lt {f : HeaderField} {bits : List Byte} {B : Nat → Byte} {base : Word} {w : Nat × Byte}
    (hb : base.toNat + 5 ≤ 2 ^ 32 - 1) (hw : w ∈ mergeField (fieldBytes f) bits B) : headerAddr base w.1 < 2 ^ 32 :=
  headerAddr_lt hb (touchedBytes_le (mergeField_fst hw))

/-- Every write a command puts on record is inside the address space; the others were on record before. -/
theorem exec_writes_lt {i : Instr} {s t : State} (h : exec i s = .next t) {w : Nat × Byte}
    (hw : w ∈ writesOf t.accesses) : w ∈ writesOf s.accesses ∨ w.1 < 2 ^ 32 := by
  rcases group_cases i with hg | hg | hg
  · rcases exec_get_next hg h with rfl | ⟨base, ks, v, rfl⟩ <;> exact .inl (by simpa using hw)
  · obtain ⟨f, buf, v, rfl⟩ := isSet_cases hg
    rcases exec_set_next h with rfl | ⟨base, -, -, hc, rfl⟩
    · exact .inl hw
    · simp only [writeHeader_eq, respond_accesses, recordReads_accesses, writesOf_append, writesOf_readsOf,
        writesOf_map_write, List.append_nil, List.mem_append, List.mem_map] at hw
      rcases hw with hw | ⟨x, hx, rfl⟩
      · exact .inl hw
      · exact .inr (mergeField_addr_lt hc.1 hx)
  · rcases exec_route_next hg h with ⟨-, rfl⟩ | ⟨-, ⟨st, -, -, rfl⟩ | ⟨m, -, rfl⟩ | ⟨m, r, k, -, -, -, -, -, rfl⟩ |
      ⟨r, n, -, -, -, rfl⟩ | ⟨c, v0, v1, v2, -, rfl⟩⟩ <;> exact .inl hw

/-- Every write a packet puts on record is inside the address space; the others were on record before. -/
theorem runPacket_writes_lt {p : Packet} {s t : State} (h : runPacket p s = .next t) {w : Nat × Byte}
    (hw : w ∈ writesOf t.accesses) : w ∈ writesOf s.accesses ∨ w.1 < 2 ^ 32 := by
  rcases runPacket_cases p s with ⟨i, -, hi⟩ | ⟨-, hi⟩ <;> rw [hi] at h
  · exact exec_writes_lt h hw
  · cases h; exact .inl hw

/-! ## The invariant -/

/-- Every packet keeps the invariant, an illegal word too (R58, R119). -/
theorem runPacket_keeps_inv {p : Packet} {s t : State} (h : StateInv s) (he : runPacket p s = .next t) : StateInv t := by
  rcases runPacket_cases p s with ⟨i, -, hi⟩ | ⟨-, hi⟩ <;> rw [hi] at he
  · exact exec_keeps_inv h he
  · cases he; exact h.of_same rfl rfl rfl rfl

/-- Settles O52, by the events of a step: a command keeps the invariant whole, a store and a cut Set keep the canonical memory,
and reset leaves `rt_inited = 0`. -/
theorem everyStepKeepsTheInvariant : Obligations.EveryStepKeepsTheInvariant := by
  intro s t h hstep
  have hbegin (es : List Event) : StateInv (s.begin es) := h.of_same rfl rfl rfl rfl
  have htaken (es : List Event) (k : Nat) (rest : List Packet) : StateInv ((s.begin es).taken k rest) :=
    h.of_same rfl rfl rfl rfl
  rcases step_cases hstep with ⟨-, rfl⟩ | ⟨es, ⟨k, p, -, rfl⟩ | ⟨k, -, ⟨-, rfl⟩ | ⟨p, rest, -, u, hu, rfl⟩⟩ | ⟨k, -, rfl⟩ |
    ⟨a, v, -, -, -, rfl⟩ | ⟨a, -, rfl⟩ | ⟨-, rfl⟩ | ⟨k, done, -, ⟨-, rfl⟩ | ⟨p, rest, u, -, hu, rfl⟩⟩⟩
  · -- no event
    exact h.of_same rfl rfl rfl rfl
  · -- send
    exact h.of_same rfl rfl rfl rfl
  · -- command, of an issuer that has sent none
    exact hbegin es
  · -- command
    exact (runPacket_keeps_inv (htaken es k rest) hu).of_same (by simp) (by simp) (by simp) (by simp)
  · -- receive
    exact h.of_same rfl rfl rfl rfl
  · -- store
    exact ⟨h.params, h.slotCount, write_wf v h.mem a.isLt, h.table⟩
  · -- load
    exact hbegin es
  · -- reset
    exact resetBlock_inv h.params h.mem
  · -- reset during the command of an issuer that has sent none
    exact resetBlock_inv h.params h.mem
  · -- reset during a command: the writes performed are among those on record
    refine resetBlock_inv h.params (performMarked_wf _ done h.mem fun w hw => ?_)
    exact (runPacket_writes_lt hu hw).resolve_left (by simp [writesOf])

/-- Settles O53: the parameters are folded into R5's range, and `rt_inited` is 0 after reset. -/
theorem resetMeetsTheInvariant : Obligations.ResetMeetsTheInvariant := by
  refine ⟨legal_iff.mpr ?_, resetSlots_length .., reset_mem_wf, nofun⟩
  have hoff := Nat.mod_lt Config.rawSizeOffset (show 2 ^ 32 - 0x10000 > 0 by decide)
  have hroutes := Nat.mod_lt Config.rawMaxRoutes (show 2 ^ 32 - 2 > 0 by decide)
  simp only [State.reset, Config.params, Config.sizeOffset, Config.maxRoutes]
  omega

/-! ## The parameters -/

/-- No command changes a parameter (R5). -/
theorem exec_params {i : Instr} {s t : State} (h : exec i s = .next t) : t.params = s.params := by
  rcases group_cases i with hg | hg | hg
  · rcases exec_get_next hg h with rfl | ⟨base, ks, v, rfl⟩ <;> rfl
  · obtain ⟨f, buf, v, rfl⟩ := isSet_cases hg
    rcases exec_set_next h with rfl | ⟨base, -, -, -, rfl⟩
    · rfl
    · simp [writeHeader_eq]
  · rcases exec_route_next hg h with ⟨-, rfl⟩ | ⟨-, ⟨st, -, -, rfl⟩ | ⟨m, -, rfl⟩ | ⟨m, r, k, -, -, -, -, -, rfl⟩ |
      ⟨r, n, -, -, -, rfl⟩ | ⟨c, v0, v1, v2, -, rfl⟩⟩ <;> rfl

/-- No packet changes a parameter (R5). -/
theorem runPacket_params {p : Packet} {s t : State} (h : runPacket p s = .next t) : t.params = s.params := by
  rcases runPacket_cases p s with ⟨i, -, hi⟩ | ⟨-, hi⟩ <;> rw [hi] at h
  · exact exec_params h
  · cases h; rfl

/-- Settles O55, by the events of a step: of them only a command could, and `runPacket_params` says it does not. -/
theorem noStepChangesAParameter : Obligations.NoStepChangesAParameter := by
  intro s t hstep
  rcases step_cases hstep with ⟨-, rfl⟩ | ⟨es, ⟨k, p, -, rfl⟩ | ⟨k, -, ⟨-, rfl⟩ | ⟨p, rest, -, u, hu, rfl⟩⟩ | ⟨k, -, rfl⟩ |
    ⟨a, v, -, -, -, rfl⟩ | ⟨a, -, rfl⟩ | ⟨-, rfl⟩ | ⟨k, done, -, ⟨-, rfl⟩ | ⟨p, rest, u, -, -, rfl⟩⟩⟩
  · rfl
  · rfl
  · rfl
  · calc (u.deliver k p).params = u.params := deliver_params ..
      _ = ((s.begin es).taken k rest).params := runPacket_params hu
  · rfl
  · rfl
  · rfl
  · rfl
  · rfl
  · rfl

end Sys2Proof.Machine
end

section
/-! SUPPORT. The scope of the units (R2, R9, R20, R35): the codec is independent of the route table and the route table of
buffer memory, a route command changes at most its slot, and the fields of the header as slices of its words. -/

namespace Sys2Proof.Machine

/-! ## Independence of the units -/

/-- The state with another route table: `rt_inited` and the slots (R10). -/
def State.withTable (s : State) (inited : Bool) (slots : List Slot) : State :=
  { s with rtInited := inited, slots := slots }

/-- The state with other buffer memory. -/
def State.withMem (s : State) (m : Memory) : State := { s with mem := m }

/-- A Get carries the route table along (R2, R70). -/
theorem codecGet_withTable (touched : List Nat) (value : (Nat → Byte) → Word) (buf : BufferRef) (out : Bool) (s : State)
    (inited : Bool) (slots : List Slot) :
    codecGet touched value buf out (s.withTable inited slots) =
      mapNext (·.withTable inited slots) (codecGet touched value buf out s) := by
  cases buf with
  | none => rfl
  | some base =>
    simp only [codecGet, readHeader_eq, State.withTable]
    split
    · rfl
    · split <;> rfl

/-- A Set carries the route table along (R2, R90). -/
theorem codecSet_withTable (f : HeaderField) (inRange : Bool) (bits : List Byte) (buf : BufferRef) (s : State)
    (inited : Bool) (slots : List Slot) :
    codecSet f inRange bits buf (s.withTable inited slots) =
      mapNext (·.withTable inited slots) (codecSet f inRange bits buf s) := by
  cases buf with
  | none => rfl
  | some base =>
    simp only [codecSet, readHeader_eq, writeHeader_eq, State.withTable]
    split
    · rfl
    · split <;> rfl

/-- The check of R121 looks at no buffer memory. -/
theorem whenInited_withMem (s : State) (m : Memory) (a : Answer) :
    whenInited (s.withMem m) (mapNext (·.withMem m) a) = mapNext (·.withMem m) (whenInited s a) := by
  rw [whenInited, whenInited, apply_ite (mapNext _)]
  rfl

/-- A route command carries buffer memory along (R2): its checks and searches are about the slots and the parameters. -/
theorem exec_route_withMem {i : Instr} (hi : isRoute i = true) (s : State) (m : Memory) :
    exec i (s.withMem m) = mapNext (·.withMem m) (exec i s) := by
  cases i with
  | getVersion | getType | getSecHdr | getApid | getSegFlag | getSeqCnt | getSize | getMsgId => simp [isRoute, opcode] at hi
  | setVersion | setType | setSecHdr | setApid | setSegFlag | setSeqCnt | setSize => simp [isRoute, opcode] at hi
  | rtInit => rfl
  | rtGet n => exact whenInited_withMem s m (.next (s.respond .success (routeOf s.slots n) 0 0))
  | rtSet n r =>
    refine Eq.trans (congrArg (whenInited _) ?_) (whenInited_withMem s m _)
    simp only [State.withMem, apply_ite (mapNext _)]
    cases firstFree s.params s.slots n <;> simp only [apply_ite (mapNext _)] <;> rfl
  | rtDereg r =>
    refine Eq.trans (congrArg (whenInited _) ?_) (whenInited_withMem s m _)
    simp only [State.withMem, apply_ite (mapNext _)]
    cases s.slots.findIdx? (holdsRoute r) <;> rfl
  | rtIter c =>
    refine Eq.trans (congrArg (whenInited _) ?_) (whenInited_withMem s m _)
    simp only [State.withMem]
    cases nextLive s.slots 0 c.toNat <;> rfl

/-- Settles O12: the codec through the contracts every Get and Set shares, the route commands one by one. -/
theorem unitsAreIndependent : Obligations.UnitsAreIndependent := by
  refine ⟨fun i s inited slots hi => ?_, fun i s m hi => exec_route_withMem hi s m⟩
  rcases Bool.or_eq_true_iff.mp hi with hg | hg
  · rcases isGet_cases hg with ⟨f, buf, out, rfl⟩ | ⟨buf, out, rfl⟩
    · rw [exec_getField, exec_getField]
      exact codecGet_withTable _ _ buf out s inited slots
    · rw [exec_getMsgId, exec_getMsgId]
      exact codecGet_withTable _ _ buf out s inited slots
  · obtain ⟨f, buf, v, rfl⟩ := isSet_cases hg
    rw [exec_setField, exec_setField]
    exact codecSet_withTable f _ _ buf s inited slots

/-! ## The frame of the route commands -/

/-- A route command changes nothing outside the route table but the response (R2). -/
theorem exec_route_onlyChangesTable {i : Instr} {s t : State} (hi : isRoute i = true) (h : exec i s = .next t) :
    OnlyChangesTable s t := by
  rcases exec_route_next hi h with ⟨-, rfl⟩ | ⟨-, ⟨st, -, -, rfl⟩ | ⟨m, -, rfl⟩ | ⟨m, r, k, -, -, -, -, -, rfl⟩ |
    ⟨r, n, -, -, -, rfl⟩ | ⟨c, v0, v1, v2, -, rfl⟩⟩ <;> exact ⟨rfl, rfl, rfl, rfl, rfl, rfl, rfl⟩

/-- Only `RT_INIT` changes `rt_inited`, and only it can change how many slots there are (R15, R17). -/
theorem exec_route_inited_of_ne_rtInit {i : Instr} {s t : State} (hi : isRoute i = true) (hne : i ≠ .rtInit)
    (h : exec i s = .next t) : t.rtInited = s.rtInited ∧ t.slots.length = s.slots.length := by
  rcases exec_route_next hi h with ⟨h0, -⟩ | ⟨-, ⟨st, -, -, rfl⟩ | ⟨m, -, rfl⟩ | ⟨m, r, k, -, -, -, -, -, rfl⟩ |
    ⟨r, n, -, -, -, rfl⟩ | ⟨c, v0, v1, v2, -, rfl⟩⟩
  · exact absurd h0 hne
  all_goals simp

/-- `RT_GET` changes no slot (R113). -/
theorem exec_rtGet_slots {m : Word} {s t : State} (h : exec (.rtGet m) s = .next t) : t.slots = s.slots := by
  have hi : isRoute (.rtGet m) = true := by simp [isRoute, opcode]
  rcases exec_route_next hi h with ⟨⟨⟩, -⟩ | ⟨-, ⟨st, -, -, rfl⟩ | ⟨m', -, rfl⟩ | ⟨m', r, k, ⟨⟩, -⟩ | ⟨r, n, ⟨⟩, -⟩ |
    ⟨c, v0, v1, v2, -, rfl⟩⟩ <;> rfl

/-- `RT_ITER` changes no slot (R117). -/
theorem exec_rtIter_slots {c : Word} {s t : State} (h : exec (.rtIter c) s = .next t) : t.slots = s.slots := by
  have hi : isRoute (.rtIter c) = true := by simp [isRoute, opcode]
  rcases exec_route_next hi h with ⟨⟨⟩, -⟩ | ⟨-, ⟨st, -, -, rfl⟩ | ⟨m, -, rfl⟩ | ⟨m, r, k, ⟨⟩, -⟩ | ⟨r, n, ⟨⟩, -⟩ |
    ⟨c', v0, v1, v2, -, rfl⟩⟩ <;> rfl

/-- `RT_SET` changes no slot or fills a free one with its pair (R114). -/
theorem exec_rtSet_slots {m r : Word} {s t : State} (h : exec (.rtSet m r) s = .next t) :
    t.slots = s.slots ∨ ∃ n, s.slots[n]? = some none ∧ t.slots = s.slots.set n (some { msgid := m, routeid := r }) := by
  have hi : isRoute (.rtSet m r) = true := by simp [isRoute, opcode]
  rcases exec_route_next hi h with ⟨⟨⟩, -⟩ | ⟨-, ⟨st, -, -, rfl⟩ | ⟨m', ⟨⟩, -⟩ | ⟨m', r', k, ⟨⟩, -, -, hk, -, rfl⟩ |
    ⟨r', n, ⟨⟩, -⟩ | ⟨c, v0, v1, v2, ⟨⟩, -⟩⟩
  · exact .inl rfl
  · exact .inr ⟨_, (firstFree_eq_some hk).2.1, rfl⟩

/-- `RT_DEREG` changes no slot or frees one that is live with its RouteId (R116). -/
theorem exec_rtDereg_slots {r : Word} {s t : State} (h : exec (.rtDereg r) s = .next t) :
    t.slots = s.slots ∨ ∃ n m, LiveAt s n m r ∧ t.slots = s.slots.set n none := by
  have hi : isRoute (.rtDereg r) = true := by simp [isRoute, opcode]
  rcases exec_route_next hi h with ⟨⟨⟩, -⟩ | ⟨-, ⟨st, -, -, rfl⟩ | ⟨m', ⟨⟩, -⟩ | ⟨m', r', k, ⟨⟩, -⟩ |
    ⟨r', n, ⟨⟩, -, hn, rfl⟩ | ⟨c, v0, v1, v2, ⟨⟩, -⟩⟩
  · exact .inl rfl
  · obtain ⟨m, hl⟩ := findIdx_holdsRoute hn
    exact .inr ⟨n, m, hl, rfl⟩

/-- Settles O45, from what each route command does to the slots: a slot that is set reads as set, every other as before. -/
theorem routeCommandsChangeOnlyTheirSlot : Obligations.RouteCommandsChangeOnlyTheirSlot := by
  intro i s t hi h
  obtain ⟨-, hmem, -⟩ := exec_route_onlyChangesTable hi h
  refine ⟨exec_route_onlyChangesTable hi h, fun a => by rw [hmem],
    fun hne => exec_route_inited_of_ne_rtInit hi hne h, ?_, ?_, ?_, ?_⟩
  · rintro m rfl
    exact exec_rtGet_slots h
  · rintro c rfl
    exact exec_rtIter_slots h
  · rintro m r rfl
    refine (exec_rtSet_slots h).imp_right fun ⟨n, hfree, ht⟩ => ⟨n, hfree, ?_, fun j hj => ?_⟩
    · rw [LiveAt, ht, List.getElem?_set_self (List.getElem?_eq_some_iff.mp hfree).1]
    · rw [ht, List.getElem?_set_ne hj.symm]
  · rintro r rfl
    refine (exec_rtDereg_slots h).imp_right fun ⟨n, m, hl, ht⟩ => ⟨n, m, hl, ?_, fun j hj => ?_⟩
    · rw [ht, List.getElem?_set_self hl.lt]
    · rw [ht, List.getElem?_set_ne hj.symm]

/-! ## The fields as slices of the header -/

/-- A byte appended at the low end (R35, R74). -/
theorem toNat_append_byte {w : Nat} (x : BitVec w) (y : Byte) : (x ++ y).toNat = x.toNat * 2 ^ 8 + y.toNat := by
  rw [BitVec.toNat_append, ← Nat.shiftLeft_add_eq_or_of_lt y.isLt, Nat.shiftLeft_eq]

/-- A word of the header as a number (R35). -/
theorem toNat_headerWord (B : Nat → Byte) (j : Nat) :
    (headerWord B j).toNat = (B (2 * j)).toNat * 2 ^ 8 + (B (2 * j + 1)).toNat := toNat_append_byte _ _

/-- The slice of `W0`, `W1` or `W2` that R35's table gives the field. -/
def wordSlice (f : HeaderField) (B : Nat → Byte) : Nat :=
  match f with
  | .version => ((headerWord B 0).extractLsb' 13 3).toNat
  | .type => ((headerWord B 0).extractLsb' 12 1).toNat
  | .secHdr => ((headerWord B 0).extractLsb' 11 1).toNat
  | .apid => ((headerWord B 0).extractLsb' 0 11).toNat
  | .segFlag => ((headerWord B 1).extractLsb' 14 2).toNat
  | .seqCnt => ((headerWord B 1).extractLsb' 0 14).toNat
  | .size => (headerWord B 2).toNat

/-- The general formula of R9 over the 48-bit header is the slice of R35's word: for every field the same arithmetic, dividing
off the bytes below and taking the remainder above. -/
theorem rawField_eq_wordSlice (f : HeaderField) (B : Nat → Byte) : rawField f B = wordSlice f B := by
  have h0 := (B 0).isLt
  have h1 := (B 1).isLt
  have h2 := (B 2).isLt
  have h3 := (B 3).isLt
  have h4 := (B 4).isLt
  have h5 := (B 5).isLt
  cases f <;>
    simp only [rawField, header48, fieldOffset, fieldWidth, wordSlice, toNat_headerWord,
      BitVec.extractLsb'_toNat, Nat.reduceMul, Nat.reduceAdd, Nat.reduceSub] <;>
    omega

/-- A Get's formula over its own bytes is the slice of R35's word, for Size with the offset of R77. -/
theorem fieldValue_eq_wordSlice (p : Params) (f : HeaderField) (B : Nat → Byte) :
    fieldValue p f B = BitVec.ofNat 32 (wordSlice f B + if f = .size then p.sizeOffset else 0) := by
  have h0 := (B 0).isLt
  have h1 := (B 1).isLt
  have h2 := (B 2).isLt
  have h3 := (B 3).isLt
  apply BitVec.eq_of_toNat_eq
  cases f <;>
    simp [fieldValue, wordSlice, toNat_headerWord, toNat_append_byte] <;>
    omega

/-- Swapping a header word puts its second byte first (R35). -/
theorem swap16_headerWord (B : Nat → Byte) (j : Nat) : swap16 (headerWord B j) = B (2 * j + 1) ++ B (2 * j) := by
  rw [swap16, headerWord, BitVec.extractLsb'_append_eq_right, BitVec.extractLsb'_append_eq_left]

/-- Settles O24: the value of a Get is the slice of R35's word, which is R9's raw value. -/
theorem getAnswersTheGeneralRawValueAndTheWordSlice : Obligations.GetAnswersTheGeneralRawValueAndTheWordSlice := by
  refine ⟨fun f s base hread => ⟨?_, ?_⟩, swap16_headerWord⟩
  · rw [resultOf_getField hread, fieldValue_eq_wordSlice, rawField_eq_wordSlice]
  · rw [rawField_eq_wordSlice]
    cases f <;> rfl

end Sys2Proof.Machine
end

section
/-! SUPPORT. The block's state along commands and events (R17, R20, R23, R123): which command changes `rt_inited` or a slot, a
registration kept by every command but `RT_INIT` and its own `RT_DEREG`, what `RT_GET` and `RT_DEREG` answer in terms of live
pairs, and reset. -/

namespace Sys2Proof.Machine

/-! ## What a command does to the route table -/

/-- A codec command changes neither `rt_inited` nor a slot (R2). -/
theorem exec_codec_table {i : Instr} {s t : State} (hi : isGet i = true ∨ isSet i = true) (h : exec i s = .next t) :
    t.rtInited = s.rtInited ∧ t.slots = s.slots := by
  rcases hi with hg | hg
  · rcases exec_get_next hg h with rfl | ⟨base, ks, v, rfl⟩ <;> exact ⟨rfl, rfl⟩
  · obtain ⟨f, buf, v, rfl⟩ := isSet_cases hg
    rcases exec_set_next h with rfl | ⟨base, -, -, -, rfl⟩
    · exact ⟨rfl, rfl⟩
    · simp [writeHeader_eq]

/-- No command but `RT_INIT` changes `rt_inited` (R17). -/
theorem exec_rtInited_of_ne_rtInit {i : Instr} {s t : State} (hne : i ≠ .rtInit) (h : exec i s = .next t) :
    t.rtInited = s.rtInited := by
  rcases group_cases i with hg | hg | hg
  · exact (exec_codec_table (.inl hg) h).1
  · exact (exec_codec_table (.inr hg) h).1
  · exact (exec_route_inited_of_ne_rtInit hg hne h).1

/-- What `RT_INIT` leaves of the route table (R112). -/
theorem exec_rtInit_table {s t : State} (h : exec .rtInit s = .next t) :
    t.rtInited = true ∧ t.slots = List.replicate s.params.maxRoutes none := by
  cases h; exact ⟨rfl, rfl⟩

/-- Everything a command can do to the slots (R20): nothing, empty them all, fill a free one, or free a live one. -/
theorem exec_slots_cases {i : Instr} {s t : State} (h : exec i s = .next t) :
    t.slots = s.slots ∨
    (i = .rtInit ∧ t.slots = List.replicate s.params.maxRoutes none) ∨
    (∃ m r n, i = .rtSet m r ∧ s.slots[n]? = some none ∧ t.slots = s.slots.set n (some { msgid := m, routeid := r })) ∨
    ∃ r n m, i = .rtDereg r ∧ LiveAt s n m r ∧ t.slots = s.slots.set n none := by
  rcases group_cases i with hg | hg | hg
  · exact .inl (exec_codec_table (.inl hg) h).2
  · exact .inl (exec_codec_table (.inr hg) h).2
  · rcases exec_route_next hg h with ⟨rfl, rfl⟩ | ⟨-, ⟨st, -, -, rfl⟩ | ⟨m, -, rfl⟩ | ⟨m, r, k, rfl, -, -, hk, -, rfl⟩ |
      ⟨r, n, rfl, -, hn, rfl⟩ | ⟨c, v0, v1, v2, -, rfl⟩⟩
    · exact .inr (.inl ⟨rfl, rfl⟩)
    · exact .inl rfl
    · exact .inl rfl
    · exact .inr (.inr (.inl ⟨m, r, _, rfl, (firstFree_eq_some hk).2.1, rfl⟩))
    · obtain ⟨m, hl⟩ := findIdx_holdsRoute hn
      exact .inr (.inr (.inr ⟨r, n, m, rfl, hl, rfl⟩))
    · exact .inl rfl

/-- A live slot keeps its pair, or is freed by `RT_INIT` or by `RT_DEREG` of its own RouteId (R20). -/
theorem LiveAt.exec_cases {c : Instr} {s t : State} {i : Nat} {m r : Word} (hl : LiveAt s i m r)
    (h : exec c s = .next t) :
    LiveAt t i m r ∨ (c = .rtInit ∧ t.slots = List.replicate s.params.maxRoutes none) ∨
      (c = .rtDereg r ∧ t.slots[i]? = some none) := by
  rcases exec_slots_cases h with hs | hinit | ⟨m', r', n, -, hfree, hs⟩ | ⟨r', n, m', rfl, hn, hs⟩
  · exact .inl (by rwa [LiveAt, hs])
  · exact .inr (.inl hinit)
  · have hne : n ≠ i := by
      rintro rfl
      simp [LiveAt, hfree] at hl
    exact .inl (by rwa [LiveAt, hs, List.getElem?_set_ne hne])
  · by_cases hni : n = i
    · subst hni
      obtain rfl : r' = r := by
        have := hn.symm.trans hl
        simp_all
      exact .inr (.inr ⟨rfl, by rw [hs, List.getElem?_set_self hl.lt]⟩)
    · exact .inl (by rwa [LiveAt, hs, List.getElem?_set_ne hni])

/-- A free slot stays free or is filled by `RT_SET` with its operands (R20). That `RT_INIT` leaves it a slot is R15. -/
theorem exec_free_slot {c : Instr} {s t : State} {i : Nat} (hc : s.slots.length = s.params.maxRoutes)
    (hfree : s.slots[i]? = some none) (h : exec c s = .next t) :
    t.slots[i]? = some none ∨ ∃ m r, c = .rtSet m r ∧ LiveAt t i m r := by
  have hi : i < s.slots.length := (List.getElem?_eq_some_iff.mp hfree).1
  rcases exec_slots_cases h with hs | ⟨-, hs⟩ | ⟨m, r, n, rfl, -, hs⟩ | ⟨r, n, m, -, -, hs⟩
  · exact .inl (by rwa [hs])
  · exact .inl (by rw [hs, List.getElem?_replicate_of_lt (hc ▸ hi)])
  · by_cases hni : n = i
    · subst hni
      exact .inr ⟨m, r, rfl, by rw [LiveAt, hs, List.getElem?_set_self hi]⟩
    · exact .inl (by rwa [hs, List.getElem?_set_ne hni])
  · by_cases hni : n = i
    · subst hni
      exact .inl (by rw [hs, List.getElem?_set_self hi])
    · exact .inl (by rwa [hs, List.getElem?_set_ne hni])

/-- The table does not grow or shrink (R15). -/
theorem exec_slots_length {c : Instr} {s t : State} (hc : s.slots.length = s.params.maxRoutes) (h : exec c s = .next t) :
    t.slots.length = s.slots.length := by
  rcases exec_slots_cases h with hs | ⟨-, hs⟩ | ⟨m, r, n, -, -, hs⟩ | ⟨r, n, m, -, -, hs⟩ <;> simp [hs, hc]

/-- Settles O57: an illegal word changes no slot, and for a command each clause is a lemma of its own. -/
theorem slotsChangeOnlyBySetDeregAndInit : Obligations.SlotsChangeOnlyBySetDeregAndInit := by
  intro p s t i hc h
  rcases runPacket_cases p s with ⟨c, hd, he⟩ | ⟨-, he⟩ <;> rw [he] at h
  · rw [hd]
    refine ⟨exec_slots_length hc h, fun m r hl => ?_, fun hfree => ?_⟩
    · have hi : i < s.params.maxRoutes := hc ▸ hl.lt
      rcases hl.exec_cases h with hkept | ⟨rfl, hs⟩ | ⟨rfl, hs⟩
      · exact .inl hkept
      · exact .inr ⟨by rw [hs, List.getElem?_replicate_of_lt hi], .inl rfl⟩
      · exact .inr ⟨hs, .inr rfl⟩
    · simpa using exec_free_slot hc hfree h
  · cases h
    exact ⟨rfl, fun m r hl => .inl hl, .inl⟩

/-! ## `RT_GET` and `RT_DEREG` -/

/-- `RT_GET` answers the route of its MessageId (R113). -/
theorem exec_rtGet {s : State} (m : Word) (hi : s.rtInited = true) :
    exec (.rtGet m) s = .next (s.respond .success (routeOf s.slots m) 0 0) := whenInited_true hi

/-- The route of a MessageId is the RouteId it is live with, whichever slot that is (R113). -/
theorem LiveAt.route_eq {s : State} {i : Nat} {m r : Word} (hl : LiveAt s i m r) (hu : keysUnique s.slots) :
    routeOf s.slots m = r := routeOf_eq hu hl.mem

/-- The route of a MessageId that is not live is the invalid one (R113). -/
theorem routeOf_eq_zero {s : State} {m : Word} (h : ∀ i r, ¬ LiveAt s i m r) : routeOf s.slots m = 0 := by
  refine routeOf_eq_invalid fun e he hm => ?_
  obtain ⟨i, hl⟩ := liveAt_of_mem he
  exact h i _ (hm ▸ hl)

/-- Settles O39, by what `routeOf` finds of live pairs. -/
theorem rtGetAnswersTheRegisteredRoute : Obligations.RtGetAnswersTheRegisteredRoute := by
  refine ⟨fun a0 a1 => by simp [decode, decodeRoute], fun s m hinv hi => ⟨fun i r hl => ?_, fun hno => ?_⟩⟩
  · rw [exec_rtGet m hi, hl.route_eq (hinv.table hi).keys]
    rfl
  · rw [exec_rtGet m hi, routeOf_eq_zero hno]
    rfl

/-- `RT_DEREG` of a RouteId outside `1 .. MAX_ROUTES` (R116). -/
theorem exec_rtDereg_illegal {s : State} {r : Word} (hi : s.rtInited = true)
    (hr : routeIdLegal s.params.maxRoutes r = false) : exec (.rtDereg r) s = .next (s.raise .badArgument) := by
  simp [exec, execRtDereg, hi, hr]

/-- `RT_DEREG` of a RouteId that no live slot holds (R116). -/
theorem exec_rtDereg_absent {s : State} {r : Word} (hi : s.rtInited = true) (hno : ∀ i m, ¬ LiveAt s i m r) :
    exec (.rtDereg r) s = .next (s.raise .badArgument) := by
  simp [exec, execRtDereg, hi, findIdx_holdsRoute_none.mpr hno]

/-- `RT_DEREG` of a legal RouteId frees the slot its search finds (R116). -/
theorem exec_rtDereg_found {s : State} {r : Word} {n : Nat} (hi : s.rtInited = true)
    (hr : routeIdLegal s.params.maxRoutes r = true) (hn : s.slots.findIdx? (holdsRoute r) = some n) :
    exec (.rtDereg r) s = .next (({ s with slots := s.slots.set n none } : State).respond .success 0 0 0) := by
  simp [exec, execRtDereg, hi, hr, hn]

/-- The search of `RT_DEREG` finds the slot of a live RouteId, which INV2 makes unique (R16, R116). -/
theorem LiveAt.findIdx_eq {s : State} {i : Nat} {m r : Word} (hl : LiveAt s i m r)
    (hu : handlesUnique s.slots) : s.slots.findIdx? (holdsRoute r) = some i := by
  cases hn : s.slots.findIdx? (holdsRoute r) with
  | none => exact absurd hl (findIdx_holdsRoute_none.mp hn i m)
  | some n =>
    obtain ⟨m', hl'⟩ := findIdx_holdsRoute hn
    rw [hl'.route_unique hl hu]

/-- A live RouteId is a legal one (INV3 of R16). -/
theorem LiveAt.route_legal {s : State} {i n : Nat} {m r : Word} (hl : LiveAt s i m r) (h : handlesLegal n s.slots) :
    routeIdLegal n r = true := routeIdLegal_iff.mpr (h _ hl.mem _ rfl)

/-- Settles O42: the range check, the search that finds nothing, and the search that finds the unique slot. -/
theorem rtDeregFreesTheSlotOfTheRoute : Obligations.RtDeregFreesTheSlotOfTheRoute := by
  refine ⟨fun a0 a1 => by simp [decode, decodeRoute], fun s r hinv hi =>
    ⟨fun hr => ?_, exec_rtDereg_absent hi, fun i m hl => ?_⟩⟩
  · refine exec_rtDereg_illegal hi (Bool.eq_false_iff.mpr fun hlegal => ?_)
    obtain ⟨hne, hle⟩ := routeIdLegal_iff_ne.mp hlegal
    rcases hr with h0 | hbig
    · exact hne h0
    · exact absurd hle (by omega)
  · have htab := hinv.table hi
    exact exec_rtDereg_found hi (hl.route_legal htab.legal) (hl.findIdx_eq htab.handles)

/-! ## A registration along a sequence of commands -/

/-- Running commands one after the other: the first answers a next state and the rest run from there. -/
theorem runAll_cons {c : Instr} {cs : List Instr} {s u : State} :
    runAll (c :: cs) s = some u ↔ ∃ t, exec c s = .next t ∧ runAll cs t = some u := by
  cases h : exec c s <;> simp [runAll, h]

/-- What R123 follows: in a state that meets the invariant, after `RT_INIT`, the pair is registered in some slot. -/
structure Registered (m r : Word) (s : State) : Prop where
  inv : StateInv s
  rtInited : s.rtInited = true
  live : ∃ i, LiveAt s i m r

/-- A successful `RT_SET` registers its pair (R114). -/
theorem registered_of_rtSet {s t : State} {m r k : Word} (hinv : StateInv s) (h : exec (.rtSet m r) s = .next t)
    (hk : t.response = some { status := .success, res0 := k, res1 := 0, res2 := 0 }) : Registered m r t := by
  have hroute : isRoute (.rtSet m r) = true := by simp [isRoute, opcode]
  have hinv' := exec_keeps_inv hinv h
  rcases exec_route_next hroute h with ⟨⟨⟩, -⟩ | ⟨hi, ⟨st, hst, -, rfl⟩ | ⟨m', ⟨⟩, -⟩ | ⟨m', r', n, ⟨⟩, -, -, hn, -, rfl⟩ |
    ⟨r', n, ⟨⟩, -⟩ | ⟨c, v0, v1, v2, ⟨⟩, -⟩⟩
  · simp [hst] at hk
  · have hlt := (List.getElem?_eq_some_iff.mp (firstFree_eq_some hn).2.1).1
    exact ⟨hinv', hi, _, List.getElem?_set_self hlt⟩

/-- A registration is kept by every command but `RT_INIT` and the `RT_DEREG` of its RouteId (R20). -/
theorem Registered.after_exec {m r : Word} {c : Instr} {s t : State} (hreg : Registered m r s) (hinit : c ≠ .rtInit)
    (hdereg : c ≠ .rtDereg r) (h : exec c s = .next t) : Registered m r t := by
  obtain ⟨i, hl⟩ := hreg.live
  refine ⟨exec_keeps_inv hreg.inv h, (exec_rtInited_of_ne_rtInit hinit h).trans hreg.rtInited, i, ?_⟩
  rcases hl.exec_cases h with hkept | ⟨hc, -⟩ | ⟨hc, -⟩
  · exact hkept
  · exact absurd hc hinit
  · exact absurd hc hdereg

/-- A registration is kept by every sequence of commands without `RT_INIT` and the `RT_DEREG` of its RouteId (R123). -/
theorem Registered.after_runAll {m r : Word} {cs : List Instr} {s u : State} (hreg : Registered m r s) (hinit : .rtInit ∉ cs)
    (hdereg : .rtDereg r ∉ cs) (h : runAll cs s = some u) : Registered m r u := by
  induction cs generalizing s with
  | nil => cases h; exact hreg
  | cons c cs ih =>
    obtain ⟨t, hc, ht⟩ := runAll_cons.mp h
    obtain ⟨hinit1, hinit2⟩ := List.ne_and_not_mem_of_not_mem_cons hinit
    obtain ⟨hdereg1, hdereg2⟩ := List.ne_and_not_mem_of_not_mem_cons hdereg
    exact ih (hreg.after_exec hinit1.symm hdereg1.symm hc) hinit2 hdereg2 ht

/-- `RT_GET` of a registered MessageId answers its RouteId (R113). -/
theorem Registered.resultOf_rtGet {m r : Word} {s : State} (hreg : Registered m r s) :
    resultOf (.rtGet m) s = some r := by
  obtain ⟨hinv, hi, i, hl⟩ := hreg
  simp [resultOf, answerOf, exec_rtGet m hi, hl.route_eq (hinv.table hi).keys]

/-- Settles O46: the registration holds after the `RT_SET`, along the commands, and when `RT_GET` looks it up. -/
theorem routeIsFoundUntilDeregisteredOrReinitialised : Obligations.RouteIsFoundUntilDeregisteredOrReinitialised := by
  rintro s t u m r cmds hinv hset ⟨k, hk⟩ hinit hdereg hrun
  exact ((registered_of_rtSet hinv hset hk).after_runAll hinit hdereg hrun).resultOf_rtGet

/-! ## `rt_inited` along a step -/

/-- A packet leaves `rt_inited` as it is, or sets it and is `RT_INIT` (R17). -/
theorem runPacket_rtInited {p : Packet} {s t : State} (h : runPacket p s = .next t) :
    t.rtInited = s.rtInited ∨ (decode p = some .rtInit ∧ t.rtInited = true) := by
  rcases runPacket_cases p s with ⟨c, hd, he⟩ | ⟨-, he⟩ <;> rw [he] at h
  · by_cases hc : c = .rtInit
    · subst hc
      exact .inr ⟨hd, (exec_rtInit_table h).1⟩
    · exact .inl (exec_rtInited_of_ne_rtInit hc h)
  · cases h; exact .inl rfl

/-- Everything a step can do to `rt_inited` (R17, R160): nothing, set it by an `RT_INIT`, or clear it by a reset. -/
theorem step_rtInited {s t : State} (h : step s = .next t) :
    t.rtInited = s.rtInited ∨
    (t.rtInited = true ∧
      ∃ k es p rest, s.events = .command k :: es ∧ s.queues[k]? = some (p :: rest) ∧ decode p = some .rtInit) ∨
    (t.rtInited = false ∧
      ((∃ es, s.events = .reset :: es) ∨ ∃ k done es, s.events = .resetDuring k done :: es)) := by
  rcases step_cases h with ⟨-, rfl⟩ | ⟨es, ⟨k, p, -, rfl⟩ | ⟨k, he, ⟨-, rfl⟩ | ⟨p, rest, hq, u, hu, rfl⟩⟩ | ⟨k, -, rfl⟩ |
    ⟨a, v, -, -, -, rfl⟩ | ⟨a, -, rfl⟩ | ⟨he, rfl⟩ | ⟨k, done, he, ⟨-, rfl⟩ | ⟨p, rest, u, -, -, rfl⟩⟩⟩
  · exact .inl rfl
  · exact .inl rfl
  · exact .inl rfl
  · -- command
    rw [deliver_rtInited]
    exact (runPacket_rtInited hu).imp_right fun ⟨hd, hset⟩ => .inl ⟨hset, k, es, p, rest, he, hq, hd⟩
  · exact .inl rfl
  · exact .inl rfl
  · exact .inl rfl
  · exact .inr (.inr ⟨rfl, .inl ⟨es, he⟩⟩)
  · exact .inr (.inr ⟨rfl, .inr ⟨k, done, es, he⟩⟩)
  · exact .inr (.inr ⟨rfl, .inr ⟨k, done, es, he⟩⟩)

/-- Settles O56, by what a step can do to `rt_inited`. -/
theorem onlyInitSetsAndOnlyResetClearsInited : Obligations.OnlyInitSetsAndOnlyResetClearsInited := by
  intro s t h
  rcases step_rtInited h with hsame | ⟨hset, hinit⟩ | ⟨hclear, hreset⟩
  · simp_all
  · exact ⟨fun _ _ => hinit, fun _ hclear => by simp [hset] at hclear⟩
  · exact ⟨fun _ hset => by simp [hclear] at hset, fun _ _ => hreset⟩

/-! ## Reset -/

/-- Before `RT_INIT` a route lookup has no meaning (R121). -/
theorem exec_rtGet_refused {s : State} (m : Word) (h : s.rtInited = false) :
    exec (.rtGet m) s = .refused .routeTableNotInitialised := by
  simp [exec, execRtGet, whenInited, h]

/-- Settles O54: the reset state's own fields, and `RT_INIT` in it, which reads no slot. -/
theorem resetStateIsUninitialised : Obligations.ResetStateIsUninitialised :=
  ⟨rfl, resetSlots_length .., rfl, fun m => exec_rtGet_refused m rfl, _, rfl, rfl⟩

/-- A step whose event is a reset does nothing else (R160). -/
theorem step_reset {s : State} {es : List Event} (h : s.events = .reset :: es) :
    step s = .next (s.begin es).resetBlock := step_cons h

/-- Settles O58, by what reset leaves of each field. -/
theorem resetClearsInitedAndLeavesMemory : Obligations.ResetClearsInitedAndLeavesMemory := by
  intro s es h
  exact ⟨_, step_reset h, rfl, resetSlots_length .., rfl, rfl, rfl, rfl, rfl, rfl, rfl⟩

end Sys2Proof.Machine
end

section
/-! SUPPORT. The Gets and the buffer a codec command names (R34, R37 to R39, R70, R78, R79, R90): a field's value as the bits of
its range in the header, `GET_MSGID`, the frames and accesses of Gets and Sets, and when R39 refuses them. -/

namespace Sys2Proof.Machine

/-! ## A field as bits of the header -/

/-- Bit `47 - i` of the 48-bit header is header bit `i` (R7, R9, R33). -/
theorem header48_testBit (B : Nat → Byte) {i : Nat} (hi : i < 48) :
    (header48 B).testBit (47 - i) = headerBit B i := by
  have hcons (x : Nat) (b : Byte) (j : Nat) :
      (x * 256 + b.toNat).testBit j = if j < 8 then b.getLsbD j else x.testBit (j - 8) := by
    rw [Nat.mul_comm]
    exact Nat.testBit_two_pow_mul_add x b.isLt j
  have hfirst (j : Nat) : (B 0).toNat.testBit j = (B 0).getLsbD j := rfl
  have hbyte : i / 8 = 0 ∨ i / 8 = 1 ∨ i / 8 = 2 ∨ i / 8 = 3 ∨ i / 8 = 4 ∨ i / 8 = 5 := by omega
  simp only [header48, headerBit, hcons, hfirst]
  rcases hbyte with h | h | h | h | h | h <;>
  · rw [h]
    simp (disch := omega) only [if_pos, if_neg]
    congr 1
    omega

/-- Bit `j` of a field's raw value is the header bit that many places above the field's last (R9, R34). -/
theorem rawField_testBit (f : HeaderField) (B : Nat → Byte) (j : Nat) :
    (rawField f B).testBit j =
      (decide (j < fieldWidth f) && headerBit B (fieldOffset f + fieldWidth f - 1 - j)) := by
  rw [rawField, Nat.testBit_mod_two_pow, Nat.testBit_div_two_pow]
  by_cases hj : j < fieldWidth f
  · have hfit : fieldOffset f + fieldWidth f ≤ 48 := by cases f <;> decide
    rw [← header48_testBit B (by omega)]
    congr 2
    omega
  · simp [hj]

/-- The value of a Get depends only on the header bits of its field (R79). -/
theorem fieldValue_congr_bits {p : Params} {f : HeaderField} {B C : Nat → Byte}
    (h : ∀ i, fieldOffset f ≤ i → i < fieldOffset f + fieldWidth f → headerBit B i = headerBit C i) :
    fieldValue p f B = fieldValue p f C := by
  have hraw : rawField f B = rawField f C := by
    refine Nat.eq_of_testBit_eq fun j => ?_
    rw [rawField_testBit, rawField_testBit]
    by_cases hj : j < fieldWidth f
    · rw [h _ (by omega) (by omega)]
    · simp [hj]
  rw [fieldValue_eq_wordSlice, fieldValue_eq_wordSlice, ← rawField_eq_wordSlice, ← rawField_eq_wordSlice, hraw]

/-- Settles O23: both Gets complete, and their values agree by `fieldValue_congr_bits`. -/
theorem getDependsOnlyOnItsFieldsBits : Obligations.GetDependsOnlyOnItsFieldsBits := by
  intro f s1 s2 b1 b2 hparams hread1 hread2 hbits
  refine ⟨⟨.success, fieldValue s1.params f (headerByte s1.mem b1), 0, 0⟩, ?_, ?_, rfl⟩
  · simp [answerOf, exec_getField_success hread1]
  · simp [answerOf, exec_getField_success hread2, fieldValue_congr_bits hbits, hparams]

/-! ## `GET_MSGID` -/

/-- The mask `0xF7FF` clears bit 11 and keeps the others (R78). -/
theorem toNat_and_msgIdMask (x : BitVec 16) :
    (x &&& 0xF7FF#16).toNat = x.toNat / 2 ^ 12 * 2 ^ 12 + x.toNat % 2 ^ 11 := by
  have hlow : x.toNat % 2 ^ 11 < 2 ^ 12 := by omega
  have hmask (j : Nat) : Nat.testBit 0xF7FF j = if j < 12 then decide (j < 11) else decide (j - 12 < 4) := by
    rw [show 0xF7FF = 2 ^ 12 * (2 ^ 4 - 1) + (2 ^ 11 - 1) from rfl, Nat.testBit_two_pow_mul_add _ (by decide),
      Nat.testBit_two_pow_sub_one, Nat.testBit_two_pow_sub_one]
  rw [BitVec.toNat_and, Nat.mul_comm]
  refine Nat.eq_of_testBit_eq fun j => ?_
  rw [Nat.testBit_and, BitVec.toNat_ofNat, Nat.mod_eq_of_lt (by decide), hmask, Nat.testBit_two_pow_mul_add _ hlow,
    Nat.testBit_mod_two_pow, Nat.testBit_div_two_pow]
  split_ifs with hj
  · exact Bool.and_comm ..
  · rw [show j - 12 + 12 = j by omega]
    by_cases hlt : j < 16
    · rw [decide_eq_true (by omega), Bool.and_true]
    · have h16 : x.toNat.testBit j = false := BitVec.getLsbD_of_ge x j (by omega)
      rw [h16, Bool.false_and]

/-- The MessageId of two header bytes as a sum of the fields' parts (R78). -/
theorem toNat_msgId (b0 b1 : Byte) :
    (((b0 ++ b1) &&& 0xF7FF#16).setWidth 32).toNat =
      b0.toNat / 2 ^ 5 * 2 ^ 13 + b0.toNat / 2 ^ 4 % 2 * 2 ^ 12 + (b0.toNat % 2 ^ 3 * 2 ^ 8 + b1.toNat) := by
  have h0 := b0.isLt
  have h1 := b1.isLt
  rw [BitVec.toNat_setWidth_of_le (by decide), toNat_and_msgIdMask, toNat_append_byte]
  omega

/-- A Get's failures (R70), from its being a `codecGet` of its touched bytes. -/
theorem getFailures_of_codecGet {mk : BufferRef → Bool → Instr} {ks : List Nat} {value : State → (Nat → Byte) → Word}
    (hexec : ∀ buf out s, exec (mk buf out) s = codecGet ks (value s) buf out s) : GetFailures mk ks :=
  ⟨fun s out => by rw [AnswersError, hexec]; rfl,
    fun s base hread => by rw [AnswersError, hexec, codecGet_noOut hread]; rfl⟩

/-- A Get's answer (R70), from its being a `codecGet` of its touched bytes. -/
theorem answersValue_of_codecGet {i : Instr} {ks : List Nat} {value : (Nat → Byte) → Word} {s : State} {base : Word}
    (hexec : exec i s = codecGet ks value (some base) true s) (hread : CanRead s base ks) :
    AnswersValue i s base ks (value (bytesRead (headerBytes s.mem base ks))).toNat :=
  ⟨_, _, hexec.trans (codecGet_success hread), rfl, rfl, rfl, rfl, rfl, ⟨rfl, rfl, rfl, rfl, rfl, rfl, rfl, rfl⟩, rfl⟩

/-- Settles O20: `GET_MSGID` is the `codecGet` of `B[0]` and `B[1]`, and its formula is the sum of the fields' parts. -/
theorem getMsgIdAnswersVersionTypeAndApid : Obligations.GetMsgIdAnswersVersionTypeAndApid := by
  refine ⟨fun bp out a0 a1 => ?_, getFailures_of_codecGet exec_getMsgId, fun s base hread => ?_⟩
  · cases bp <;> cases out <;> simp [decode, decodeGet, bufferRef]
  · have h := answersValue_of_codecGet (exec_getMsgId (some base) true s) hread
    rwa [toNat_msgId, bytesRead_map (by simp), bytesRead_map (by simp)] at h

/-! ## The frame of the Gets -/

/-- Settles O22: a Get answers an error or a value, and either leaves every other field of the state. -/
theorem getChangesOnlyTheResponse : Obligations.GetChangesOnlyTheResponse := by
  intro i s t hi h
  rcases exec_get_next hi h with rfl | ⟨base, ks, v, rfl⟩ <;>
    exact ⟨⟨rfl, rfl, rfl, rfl, rfl, rfl, rfl, rfl⟩, fun a => rfl⟩

/-! ## The buffer a command names, and the frame of the Sets -/

/-- A field's Get names its buffer and the field's touched bytes (R45). -/
@[simp] theorem namedBuffer_getField (f : HeaderField) (buf : BufferRef) (out : Bool) :
    namedBuffer (getField f buf out) = buf.map fun base => (base, touchedBytes f, false) := by
  cases f <;> rfl

/-- A field's Set names its buffer and the field's touched bytes, and writes them (R45). -/
@[simp] theorem namedBuffer_setField (f : HeaderField) (buf : BufferRef) (v : Word) :
    namedBuffer (setField f buf v) = buf.map fun base => (base, touchedBytes f, true) := by
  cases f <;> rfl

/-- A route command names no buffer (R55). -/
theorem namedBuffer_route {i : Instr} (hi : isRoute i = true) : namedBuffer i = none := by
  cases i with
  | getVersion | getType | getSecHdr | getApid | getSegFlag | getSeqCnt | getSize | getMsgId => simp [isRoute, opcode] at hi
  | setVersion | setType | setSecHdr | setApid | setSegFlag | setSeqCnt | setSize => simp [isRoute, opcode] at hi
  | rtInit | rtGet | rtSet | rtDereg | rtIter => rfl

/-- Settles O33: a Set answers an error, which writes nothing, or writes the touched bytes of the buffer it names. -/
theorem setChangesOnlyItsTouchedBytes : Obligations.SetChangesOnlyItsTouchedBytes := by
  intro i s t hi h
  obtain ⟨f, buf, v, rfl⟩ := isSet_cases hi
  rcases exec_set_next h with rfl | ⟨base, rfl, -, -, rfl⟩
  · exact ⟨⟨rfl, rfl, rfl, rfl, rfl, rfl, rfl⟩, fun a _ => rfl⟩
  · rw [writeHeader_eq]
    refine ⟨⟨rfl, rfl, rfl, rfl, rfl, rfl, rfl⟩, fun a ha => writeBytes_read_other fun w hw => ?_⟩
    exact ha base (touchedBytes f) true (namedBuffer_setField f (some base) v) w.1 (mergeField_fst hw)

/-! ## The accesses on record -/

/-- What a Set writes: to each touched byte the byte it leaves there (R38, R90). -/
theorem setWrites_eq_map (p : Params) (f : HeaderField) (v : Word) (B : Nat → Byte) :
    setWrites p f v B = (touchedBytes f).map fun k => (k, setByte p f v B k) := by
  cases f <;> rfl

/-- The writes a successful Set puts on record are those of the bytes memory then holds (R38). -/
theorem SetEffect.accesses_eq {f : HeaderField} {base v : Word} {s t : State} (h : SetEffect f base v s t) :
    t.accesses = s.accesses ++ readsOf s.mem base (touchedBytes f) ++ writesTo t.mem base (touchedBytes f) := by
  rw [h.accesses, setWrites_eq_map, writesTo, h.header, List.map_map]
  rfl

/-- Settles O32: each kind of command with the accesses its success puts on record. -/
theorem codecAccessesAreTheTouchedBytesInOrder : Obligations.CodecAccessesAreTheTouchedBytesInOrder := by
  refine ⟨fun f s base hread => ⟨_, exec_getField_success hread, rfl⟩,
    fun s base hread => ⟨_, (exec_getMsgId ..).trans (codecGet_success hread), rfl⟩,
    fun f s base v hm hwrite hv => ?_, fun f => by cases f <;> decide⟩
  obtain ⟨t, ht, heffect⟩ := exec_setField_effect hm hwrite hv
  exact ⟨t, ht, heffect.accesses_eq⟩

/-! ## R39 -/

/-- R39(a), as the model checks it and as the statements say it. -/
theorem windowFits_iff {base : Word} : windowFits base = true ↔ base.toNat + 5 ≤ 2 ^ 32 - 1 := by
  rw [windowFits, decide_eq_true_iff, hdrLen]
  omega

/-- R39(a): a window that runs past the last address is refused whatever the touched bytes are (U2). -/
theorem precondition_windowWraps (p : Params) {base : Word} (ks : List Nat) (h : 2 ^ 32 - 1 < base.toNat + 5) :
    readPrecondition p base ks = some .windowWraps ∧ writePrecondition p base ks = some .windowWraps := by
  have hfits : ¬ windowFits base = true := fun hf => absurd (windowFits_iff.mp hf) (by omega)
  exact ⟨if_neg hfits, if_neg hfits⟩

/-- R39(b): a touched byte that is not readable is refused (U3). -/
theorem readPrecondition_notPlain {p : Params} {base : Word} {ks : List Nat} (h : base.toNat + 5 ≤ 2 ^ 32 - 1)
    (hk : ∃ k ∈ ks, readable p (headerAddr base k) = false) : readPrecondition p base ks = some .notPlainMemory := by
  obtain ⟨k, hk, hr⟩ := hk
  have hall : (ks.all fun k => readable p (headerAddr base k)) = false := List.all_eq_false.mpr ⟨k, hk, by simp [hr]⟩
  simp [readPrecondition, windowFits_iff.mpr h, hall]

/-- R39(b): a touched byte that is not writable is refused (U3). -/
theorem writePrecondition_notPlain {p : Params} {base : Word} {ks : List Nat} (h : base.toNat + 5 ≤ 2 ^ 32 - 1)
    (hk : ∃ k ∈ ks, writable p (headerAddr base k) = false) : writePrecondition p base ks = some .notPlainMemory := by
  obtain ⟨k, hk, hr⟩ := hk
  have hall : (ks.all fun k => writable p (headerAddr base k)) = false := List.all_eq_false.mpr ⟨k, hk, by simp [hr]⟩
  simp [writePrecondition, windowFits_iff.mpr h, hall]

/-- A Get whose named buffer R39 does not allow is refused (log 6). -/
theorem exec_get_refused {i : Instr} {s : State} {base : Word} {ks : List Nat} {w : Bool} {r : Refusal} (hi : isGet i = true)
    (hn : namedBuffer i = some (base, ks, w)) (hr : readPrecondition s.params base ks = some r) :
    exec i s = .refused r := by
  rcases isGet_cases hi with ⟨f, buf, out, rfl⟩ | ⟨buf, out, rfl⟩
  · rw [namedBuffer_getField] at hn
    obtain ⟨base', rfl, ⟨⟩⟩ := Option.map_eq_some_iff.mp hn
    simp [exec_getField, codecGet, hr]
  · obtain ⟨base', rfl, ⟨⟩⟩ := Option.map_eq_some_iff.mp hn
    simp [exec_getMsgId, codecGet, show readPrecondition s.params base [0, 1] = some r from hr]

/-- A Set whose named buffer R39 does not allow is refused (log 6). -/
theorem exec_set_refused {i : Instr} {s : State} {base : Word} {ks : List Nat} {w : Bool} {r : Refusal} (hi : isSet i = true)
    (hn : namedBuffer i = some (base, ks, w)) (hr : writePrecondition s.params base ks = some r) :
    exec i s = .refused r := by
  obtain ⟨f, buf, v, rfl⟩ := isSet_cases hi
  rw [namedBuffer_setField] at hn
  obtain ⟨base', rfl, ⟨⟩⟩ := Option.map_eq_some_iff.mp hn
  simp [exec_setField, codecSet, hr]

/-- Settles O37: the three ways R39 fails, each a failed precondition of a Get or a Set. -/
theorem brokenBufferIsRefused : Obligations.BrokenBufferIsRefused := by
  intro i s base ks w hn
  refine ⟨fun hwrap => ?_, fun hle hget hk => exec_get_refused hget hn (readPrecondition_notPlain hle hk),
    fun hle hset hk => exec_set_refused hset hn (writePrecondition_notPlain hle hk)⟩
  obtain ⟨hread, hwrite⟩ := precondition_windowWraps s.params ks hwrap
  rcases group_cases i with hget | hset | hroute
  · exact exec_get_refused hget hn hread
  · exact exec_set_refused hset hn hwrite
  · rw [namedBuffer_route hroute] at hn
    cases hn

end Sys2Proof.Machine
end

section
/-! SUPPORT. What a Set leaves alone, and a codec command executed again (R34, R38, R41, R78, R90, R98): a Set as a merge under
its field's mask, the other fields and the MessageId after it, and the second execution. -/

namespace Sys2Proof.Machine

/-! ## A Set as a merge under the field's mask -/

/-- The mask of the field in byte `k`: 0 in a byte it does not touch (R34). -/
def fieldMask (f : HeaderField) (k : Nat) : Byte := ((fieldBytes f).lookup k).getD 0

/-- The encoded bits of a value at their header positions in byte `k` (R90). -/
def fieldBitsAt (p : Params) (f : HeaderField) (v : Word) (k : Nat) : Byte :=
  (((touchedBytes f).zip (fieldBits p f v)).lookup k).getD 0

/-- A merged byte, bit by bit: the new bit where the mask has one, else the old bit (R90). -/
theorem mergeBits_getLsbD (mask old new : Byte) (j : Nat) :
    (mergeBits mask old new).getLsbD j = if mask.getLsbD j then new.getLsbD j else old.getLsbD j := by
  simp only [mergeBits, BitVec.getLsbD_or, BitVec.getLsbD_and, BitVec.getLsbD_not]
  by_cases hj : j < 8
  · cases mask.getLsbD j <;> simp [hj]
  · simp [BitVec.getLsbD_of_ge _ j (show 8 ≤ j by omega)]

/-- A byte under the mask 0 stays (R90). -/
@[simp] theorem mergeBits_zero (old new : Byte) : mergeBits 0#8 old new = old := by
  refine BitVec.eq_of_getLsbD_eq fun j _ => ?_
  simp [mergeBits_getLsbD]

/-- Merging the same bits twice is merging them once (R41). -/
theorem mergeBits_idem (mask old new : Byte) : mergeBits mask (mergeBits mask old new) new = mergeBits mask old new := by
  refine BitVec.eq_of_getLsbD_eq fun j _ => ?_
  simp only [mergeBits_getLsbD]
  split <;> rfl

/-- Looking up a written byte: the merge of the mask and the bits that stand with it (R90). -/
theorem mergeField_lookup {masks : List (Nat × Byte)} {bits : List Byte} (B : Nat → Byte) (k : Nat)
    (hlen : masks.length = bits.length) :
    ((mergeField masks bits B).lookup k).getD (B k) =
      mergeBits ((masks.lookup k).getD 0) (B k) ((((masks.map Prod.fst).zip bits).lookup k).getD 0) := by
  induction masks generalizing bits with
  | nil => simp [mergeField]
  | cons c ms ih =>
    cases bits with
    | nil => cases hlen
    | cons b bs =>
      by_cases hk : k = c.1
      · subst hk; simp [mergeField, List.lookup]
      · have hb : (k == c.1) = false := by simpa using hk
        simpa [mergeField, List.lookup, hb] using ih (by simpa using hlen)

/-- The byte a Set leaves: the value's bits under the field's mask, the old byte outside it (R90). -/
theorem setByte_eq (p : Params) (f : HeaderField) (v : Word) (B : Nat → Byte) (k : Nat) :
    setByte p f v B k = mergeBits (fieldMask f k) (B k) (fieldBitsAt p f v k) :=
  mergeField_lookup B k (by cases f <;> rfl)

/-- The masks of a field together are its range of header bits (R34). -/
theorem fieldMask_getLsbD (f : HeaderField) :
    ∀ i < 48, (fieldMask f (i / 8)).getLsbD (7 - i % 8) =
      decide (fieldOffset f ≤ i ∧ i < fieldOffset f + fieldWidth f) := by
  cases f <;> decide

/-- A Set leaves every header bit outside its field's range (R98). -/
theorem headerBit_setByte_outside {p : Params} {f : HeaderField} {v : Word} {B : Nat → Byte} {i : Nat} (hi : i < 48)
    (hout : i < fieldOffset f ∨ fieldOffset f + fieldWidth f ≤ i) : headerBit (setByte p f v B) i = headerBit B i := by
  have hmask : (fieldMask f (i / 8)).getLsbD (7 - i % 8) = false := by
    rw [fieldMask_getLsbD f i hi, decide_eq_false_iff_not]
    omega
  rw [headerBit, setByte_eq, mergeBits_getLsbD, hmask]
  rfl

/-- Setting a field twice to one value is setting it once (R41). -/
theorem setByte_idem (p : Params) (f : HeaderField) (v : Word) (B : Nat → Byte) :
    setByte p f v (setByte p f v B) = setByte p f v B := by
  funext k
  rw [setByte_eq, setByte_eq, mergeBits_idem]

/-! ## A Set and the other fields -/

/-- The ranges of two fields have no header bit in common, and each ends inside the header (R34). -/
theorem field_ranges_disjoint {f g : HeaderField} (h : g ≠ f) :
    fieldOffset g + fieldWidth g ≤ 48 ∧
      (fieldOffset g + fieldWidth g ≤ fieldOffset f ∨ fieldOffset f + fieldWidth f ≤ fieldOffset g) := by
  revert h
  cases f <;> cases g <;> decide

/-- A Set of one field leaves the value of every other (R98). -/
theorem fieldValue_setByte_ne {p : Params} {f g : HeaderField} {v : Word} {B : Nat → Byte} (h : g ≠ f) :
    fieldValue p g (setByte p f v B) = fieldValue p g B := by
  obtain ⟨hfit, hdisj⟩ := field_ranges_disjoint h
  exact fieldValue_congr_bits fun i h1 h2 => headerBit_setByte_outside (by omega) (by omega)

/-- The MessageId by the values of its three fields (R78). -/
theorem toNat_msgId_fields (p : Params) (B : Nat → Byte) :
    (((B 0 ++ B 1) &&& 0xF7FF#16).setWidth 32).toNat =
      (fieldValue p .version B).toNat * 2 ^ 13 + (fieldValue p .type B).toNat * 2 ^ 12 + (fieldValue p .apid B).toNat := by
  have h0 := (B 0).isLt
  have h1 := (B 1).isLt
  rw [toNat_msgId]
  simp [fieldValue, toNat_append_byte, Nat.shiftRight_eq_div_pow]
  omega

/-- A field's value but Size's has the field's width (R34). -/
theorem fieldValue_lt (p : Params) {f : HeaderField} (B : Nat → Byte) (hf : f ≠ .size) :
    (fieldValue p f B).toNat < 2 ^ fieldWidth f := by
  rw [fieldValue_eq_wordSlice, ← rawField_eq_wordSlice, if_neg hf, Nat.add_zero, BitVec.toNat_ofNat]
  exact lt_of_le_of_lt (Nat.mod_le ..) (Nat.mod_lt _ (Nat.two_pow_pos _))

/-- The MessageIds of two headers are equal exactly when Version, Type and ApplicationId are (R78). -/
theorem msgId_eq_iff (p : Params) (B C : Nat → Byte) :
    ((B 0 ++ B 1) &&& 0xF7FF#16).setWidth 32 = (((C 0 ++ C 1) &&& 0xF7FF#16).setWidth 32 : Word) ↔
      ∀ g ∈ [HeaderField.version, .type, .apid], fieldValue p g B = fieldValue p g C := by
  have htypeB : (fieldValue p .type B).toNat < 2 := fieldValue_lt p B (by decide)
  have htypeC : (fieldValue p .type C).toNat < 2 := fieldValue_lt p C (by decide)
  have hapidB : (fieldValue p .apid B).toNat < 2 ^ 11 := fieldValue_lt p B (by decide)
  have hapidC : (fieldValue p .apid C).toNat < 2 ^ 11 := fieldValue_lt p C (by decide)
  simp only [← BitVec.toNat_inj, toNat_msgId_fields p, List.forall_mem_cons, List.not_mem_nil, false_imp_iff, implies_true,
    and_true]
  omega

/-- A Get's results before and after, on a buffer R39 allows or not, agree when its values do. -/
theorem resultOf_getField_congr {g : HeaderField} {base : Word} {s t : State} (hp : t.params = s.params)
    (hv : fieldValue s.params g (headerByte t.mem base) = fieldValue s.params g (headerByte s.mem base)) :
    resultOf (getField g (some base) true) t = resultOf (getField g (some base) true) s := by
  by_cases hread : CanRead s base (touchedBytes g)
  · rw [resultOf_getField hread, resultOf_getField ((CanRead.of_params hp).mpr hread), hp, hv]
  · rw [resultOf_getField_refused hread, resultOf_getField_refused fun h => hread ((CanRead.of_params hp).mp h)]

/-- The two bytes of `GET_MSGID` are the touched bytes of its three fields (R34, R78). -/
theorem touchedBytes_of_msgIdField {g : HeaderField} (hg : g ∈ [HeaderField.version, .type, .apid]) :
    ∀ k ∈ touchedBytes g, k ∈ [0, 1] := by
  cases g <;> simp_all [touchedBytes, fieldBytes]

/-- The MessageId is as before exactly when its three fields' Gets answer as before (R78, R98). -/
theorem resultOf_getMsgId_eq_iff {base : Word} {s t : State} (hp : t.params = s.params) (hread : CanRead s base [0, 1]) :
    resultOf (.getMsgId (some base) true) t = resultOf (.getMsgId (some base) true) s ↔
      ∀ g ∈ [HeaderField.version, .type, .apid],
        resultOf (getField g (some base) true) t = resultOf (getField g (some base) true) s := by
  have hfield (g) (hg : g ∈ [HeaderField.version, .type, .apid]) : CanRead s base (touchedBytes g) :=
    ⟨hread.1, fun k hk => hread.2 k (touchedBytes_of_msgIdField hg k hk)⟩
  rw [resultOf_getMsgId hread, resultOf_getMsgId ((CanRead.of_params hp).mpr hread), Option.some_inj,
    msgId_eq_iff s.params]
  refine forall₂_congr fun g hg => ?_
  rw [resultOf_getField (hfield g hg), resultOf_getField ((CanRead.of_params hp).mpr (hfield g hg)), hp, Option.some_inj]

/-- Settles O34: a successful Set leaves every header bit outside its field's range, and so every other field. -/
theorem setLeavesEveryOtherFieldAlone : Obligations.SetLeavesEveryOtherFieldAlone := by
  intro f s base v hm hwrite hv
  obtain ⟨t, ht, heffect⟩ := exec_setField_effect hm hwrite hv
  refine ⟨t, ht, heffect.response, fun g hne => resultOf_getField_congr heffect.params ?_, fun i hi hout => ?_,
    heffect.other, resultOf_getMsgId_eq_iff heffect.params⟩
  · rw [heffect.header, fieldValue_setByte_ne hne]
  · rw [heffect.header, headerBit_setByte_outside hi hout]

/-! ## Executing a codec command again -/

/-- A Get in a state with the same parameters and memory answers the same (R70). -/
theorem codecGet_congr {touched : List Nat} {value : (Nat → Byte) → Word} {buf : BufferRef} {out : Bool} {s s' t : State}
    (hp : s'.params = s.params) (hm : s'.mem = s.mem) (h : codecGet touched value buf out s = .next t) :
    ∃ u, codecGet touched value buf out s' = .next u ∧ u.mem = t.mem ∧ u.response = t.response := by
  cases buf with
  | none => cases h; exact ⟨_, rfl, hm, rfl⟩
  | some base =>
    simp only [codecGet, readHeader_eq, hp, hm] at h ⊢
    split at h
    · cases h
    · split at h <;> cases h
      · exact ⟨_, if_pos ‹_›, hm, rfl⟩
      · exact ⟨_, if_neg ‹_›, hm, rfl⟩

/-- A Set in a state with the same parameters and memory does the same (R90). -/
theorem codecSet_congr {f : HeaderField} {inRange : Bool} {bits : List Byte} {buf : BufferRef} {s s' t : State}
    (hp : s'.params = s.params) (hm : s'.mem = s.mem) (h : codecSet f inRange bits buf s = .next t) :
    ∃ u, codecSet f inRange bits buf s' = .next u ∧ u.mem = t.mem ∧ u.response = t.response := by
  cases buf with
  | none => cases h; exact ⟨_, rfl, hm, rfl⟩
  | some base =>
    simp only [codecSet, readHeader_eq, writeHeader_eq, hp, hm] at h ⊢
    split at h
    · cases h
    · split at h <;> cases h
      · exact ⟨_, if_pos ‹_›, by simp [hm], rfl⟩
      · exact ⟨_, if_neg ‹_›, hm, rfl⟩

/-- A Get leaves the parameters and buffer memory, and answers the same from what it leaves (R41). -/
theorem exec_get_again {i : Instr} {s t : State} (hi : isGet i = true) (h : exec i s = .next t) :
    ∃ u, exec i t = .next u ∧ u.mem = t.mem ∧ u.response = t.response := by
  have hframe : t.params = s.params ∧ t.mem = s.mem := by
    rcases exec_get_next hi h with rfl | ⟨base, ks, v, rfl⟩ <;> exact ⟨rfl, rfl⟩
  obtain ⟨hp, hm⟩ := hframe
  rcases isGet_cases hi with ⟨f, buf, out, rfl⟩ | ⟨buf, out, rfl⟩
  · rw [exec_getField] at h ⊢
    rw [hp]
    exact codecGet_congr hp hm h
  · rw [exec_getMsgId] at h ⊢
    exact codecGet_congr hp hm h

/-- A successful Set, done again on the memory it left, leaves it as it is (R41). -/
theorem SetEffect.again_mem {f : HeaderField} {base v : Word} {s t u : State} (h1 : SetEffect f base v s t)
    (h2 : SetEffect f base v t u) : u.mem = t.mem := by
  refine Memory.ext h2.wf h1.wf fun a => ?_
  by_cases ha : ∃ k ∈ touchedBytes f, a = headerAddr base k
  · obtain ⟨k, -, rfl⟩ := ha
    have hheader : headerByte u.mem base = headerByte t.mem base := by
      rw [h2.header, h1.header, h1.params, setByte_idem]
    exact congrFun hheader k
  · exact h2.other a fun k hk e => ha ⟨k, hk, e⟩

/-- Settles O36: a Get reads the same memory again; a Set answers the same error, or merges the same bits again. -/
theorem codecCommandsAreIdempotent : Obligations.CodecCommandsAreIdempotent := by
  intro i s t hi hm h
  rcases Bool.or_eq_true_iff.mp hi with hget | hset
  · exact exec_get_again hget h
  · obtain ⟨f, buf, v, rfl⟩ := isSet_cases hset
    rcases exec_setField_next hm h with rfl | ⟨base, rfl, hwrite, hv, heffect⟩
    · rw [exec_setField] at h ⊢
      rw [raise_params]
      exact codecSet_congr (s := s) rfl rfl h
    · have hp := heffect.params
      obtain ⟨u, hu, hagain⟩ := exec_setField_effect heffect.wf ((CanWrite.of_params hp).mpr hwrite) (hp.symm ▸ hv)
      exact ⟨u, hu, heffect.again_mem hagain, hagain.response.trans heffect.response.symm⟩

end Sys2Proof.Machine
end

section
/-! SUPPORT. The command port and the agents (R42, R43, R45, R46, R164): a step that takes, sends or receives, each issuer's
commands in the order sent, an agent's access event by event; and the second registration of a MessageId (R49). -/

namespace Sys2Proof.Machine

/-! ## Taking, sending and receiving -/

/-- A packet that decodes is executed as its command (R57). -/
theorem runPacket_of_decode {p : Packet} {i : Instr} (h : decode p = some i) (s : State) : runPacket p s = exec i s := by
  simp [runPacket, h]

/-- Settles O6: taking a command executes its packet, which is the command it decodes to. -/
theorem stepExecutesTheDecodedCommand : Obligations.StepExecutesTheDecodedCommand := by
  intro s k es p rest i he hq hd
  rw [step_command he hq, runPacket_of_decode hd]
  rfl

/-- A step whose event is a receipt only takes the oldest response off the issuer's inbox (R46). -/
theorem step_receive {s : State} {k : Nat} {es : List Event} (h : s.events = .receive k :: es) :
    step s = .next ((s.begin es).receive k) := step_cons h

/-- A state with the queues of another has its pending commands. -/
theorem pending_congr {s t : State} {k : Nat} (h : t.queues = s.queues) : t.pending k = s.pending k := by
  rw [State.pending, State.pending, h]

/-- Taking the oldest command of issuer `j`: what waits with `k` is what is taken from `k` and what waits then (R43(a)). -/
theorem pending_eq_take_append {s : State} {j : Nat} {p : Packet} {rest : List Packet} (h : s.queues[j]? = some (p :: rest))
    (k : Nat) : s.pending k = (if j = k then (s.pending k).take 1 else []) ++ (s.taken j rest).pending k := by
  have hone : (s.pending j).take 1 = [p] := by simp [State.pending, h]
  by_cases hk : j = k
  · subst hk
    simpa [hone] using pending_taken h j
  · simpa [hk] using pending_taken h k

/-- Taking from an issuer that has sent none takes nothing (log 7). -/
theorem pending_eq_take_append_of_nil {s : State} {j : Nat} (h : s.pending j = []) (k : Nat) :
    s.pending k = (if j = k then (s.pending k).take 1 else []) ++ s.pending k := by
  split
  · subst j; simp [h]
  · rfl

/-- One step, for one issuer: what waited followed by what is sent is what is taken followed by what waits then (R43(a)). -/
theorem step_pending {s t : State} (h : step s = .next t) (k : Nat) :
    s.pending k ++ sentBy k s = takenBy k s ++ t.pending k := by
  rcases step_cases h with ⟨he, rfl⟩ | ⟨es, ⟨j, p, he, rfl⟩ | ⟨j, he, ⟨hnone, rfl⟩ | ⟨p, rest, hq, u, hu, rfl⟩⟩ |
    ⟨j, he, rfl⟩ | ⟨a, v, he, -, -, rfl⟩ | ⟨a, he, rfl⟩ | ⟨he, rfl⟩ |
    ⟨j, done, he, ⟨hnone, rfl⟩ | ⟨p, rest, u, hq, -, rfl⟩⟩⟩ <;>
    simp only [sentBy, takenBy, he, List.append_nil, List.nil_append]
  · -- no event
    rfl
  · -- send
    by_cases hk : j = k
    · subst hk; simp
    · simp [hk, Ne.symm hk]
  · -- command, of an issuer that has sent none
    exact pending_eq_take_append_of_nil hnone k
  · -- command: the packet itself leaves the queues
    have hqueues : (u.deliver j p).queues = ((s.begin es).taken j rest).queues :=
      (deliver_queues ..).trans (runPacket_queues hu)
    rw [pending_congr (k := k) hqueues]
    exact pending_eq_take_append hq k
  · -- receive
    rfl
  · -- store
    rfl
  · -- load
    rfl
  · -- reset
    rfl
  · -- reset during the command of an issuer that has sent none
    exact pending_eq_take_append_of_nil hnone k
  · -- reset during a command
    exact pending_eq_take_append hq k

/-- What a run of steps sends and takes: the first step's traffic, then that of the others. -/
theorem traffic_succ {n k : Nat} {s u : State} {sent taken : List Packet} (h : traffic (n + 1) k s = some (sent, taken, u)) :
    ∃ t sent' taken', step s = .next t ∧ traffic n k t = some (sent', taken', u) ∧
      sent = sentBy k s ++ sent' ∧ taken = takenBy k s ++ taken' := by
  cases hs : step s with
  | next t =>
    cases ht : traffic n k t with
    | none => simp [traffic, hs, ht] at h
    | some r =>
      obtain ⟨sent', taken', v⟩ := r
      simp only [traffic, hs, ht, Option.some.injEq, Prod.mk.injEq] at h
      obtain ⟨rfl, rfl, rfl⟩ := h
      exact ⟨t, sent', taken', rfl, ht, rfl, rfl⟩
  | fault f => simp [traffic, hs] at h
  | refused r => simp [traffic, hs] at h

/-- A run of steps, for one issuer: `step_pending` along the steps (R43(a)). -/
theorem traffic_pending {n k : Nat} {s u : State} {sent taken : List Packet} (h : traffic n k s = some (sent, taken, u)) :
    s.pending k ++ sent = taken ++ u.pending k := by
  induction n generalizing s sent taken with
  | zero => cases h; simp
  | succ n ih =>
    obtain ⟨t, sent', taken', hstep, ht, rfl, rfl⟩ := traffic_succ h
    calc s.pending k ++ (sentBy k s ++ sent') = takenBy k s ++ (t.pending k ++ sent') := by
          rw [← List.append_assoc, step_pending hstep, List.append_assoc]
      _ = takenBy k s ++ taken' ++ u.pending k := by rw [ih ht, List.append_assoc]

/-- Settles O7: the order is `traffic_pending`; sending and receiving are steps that do nothing else. -/
theorem commandsOfAnIssuerAreTakenInTheOrderSent : Obligations.CommandsOfAnIssuerAreTakenInTheOrderSent :=
  ⟨fun _ _ _ _ _ _ h => traffic_pending h,
    fun _ _ _ _ h => ⟨_, step_send h, by simp, fun j hj => by simp [hj], rfl⟩,
    fun _ _ _ h => ⟨_, step_receive h, by simp, fun j hj => by simp [hj], rfl⟩⟩

/-! ## Agents -/

/-- No race by the model's check is no race by the statement's (R45(b)): for a store. -/
theorem claimed_store_eq_false {s : State} {a : Nat} (h : ¬ TouchedByOutstanding s a) : claimed false a s = false :=
  Bool.eq_false_iff.mpr fun hc => h (claimed_store_iff.mp hc)

/-- No race by the model's check is no race by the statement's (R45(b)): for a load. -/
theorem claimed_load_eq_false {s : State} {a : Nat} (h : ¬ TouchedByOutstandingSet s a) : claimed true a s = false :=
  Bool.eq_false_iff.mpr fun hc => h (claimed_load_iff.mp hc)

/-- A race looks at what is sent and not received, which the event itself does not change (R45(b)). -/
@[simp] theorem begin_claimed (s : State) (es : List Event) (setsOnly : Bool) (a : Nat) :
    claimed setsOnly a (s.begin es) = claimed setsOnly a s := rfl

/-- Settles O60: an agent's access event by event, in the order of the model's checks. -/
theorem agentAccessIsARaceOrRefusedOrTakesEffect : Obligations.AgentAccessIsARaceOrRefusedOrTakesEffect := by
  refine ⟨fun s a v es h => ?_, fun s a es h => ?_⟩
  · have hstep : step s = agentStore a v (s.begin es) := step_cons h
    rw [hstep]
    refine ⟨fun hrace => ?_, fun hfree hw => ?_, fun hm hfree hw => ⟨{ s.begin es with mem := s.mem.write a.toNat v }, ?_,
      read_write_same s.mem _ v hm, fun b hb => read_write_other s.mem v hb, rfl⟩⟩
    · simp [agentStore, claimed_store_iff.mpr hrace]
    · simp [agentStore, claimed_store_eq_false hfree, hw]
    · simp [agentStore, claimed_store_eq_false hfree, hw]
  · have hstep : step s = agentLoad a (s.begin es) := step_cons h
    rw [hstep]
    refine ⟨fun hrace => ?_, fun hfree hr => ?_, fun hfree hr => ?_⟩
    · simp [agentLoad, claimed_load_iff.mpr hrace]
    · simp [agentLoad, claimed_load_eq_false hfree, hr]
    · simp [agentLoad, claimed_load_eq_false hfree, hr]
      rfl

/-! ## The second registration -/

/-- `RT_SET` with a legal RouteId of a MessageId that is live (R114, check 2). -/
theorem exec_rtSet_duplicate {s : State} {m r : Word} (hi : s.rtInited = true) (hr : routeIdLegal s.params.maxRoutes r = true)
    (hm : s.slots.any (holdsMsg m) = true) : exec (.rtSet m r) s = .next (s.raise .duplicateRegistration) := by
  simp only [exec, execRtSet, whenInited_true hi, hr, hm, Bool.not_true, Bool.false_eq_true, if_false, if_true]

/-- Settles O49: the first registration is live in the state it leaves, so the second meets check 2. -/
theorem secondRegistrationOfAMessageIsDuplicate : Obligations.SecondRegistrationOfAMessageIsDuplicate := by
  rintro s t m r1 r2 hinv hset ⟨k, hk⟩ hne hle
  obtain ⟨-, hi, i, hlive⟩ := registered_of_rtSet hinv hset hk
  have hlegal : routeIdLegal t.params.maxRoutes r2 = true := by
    rw [exec_params hset]
    exact routeIdLegal_iff_ne.mpr ⟨hne, hle⟩
  exact exec_rtSet_duplicate hi hlegal (any_holdsMsg.mpr ⟨i, r1, hlive⟩)

end Sys2Proof.Machine
end

section
/-! SUPPORT. Encoding and decoding (R50 to R58): the decoder group by group, what a command's packet decodes to and what a
packet that decodes is the encoding of, the packets it refuses, and the rows of the opcode table. -/

namespace Sys2Proof.Machine

/-! ## The fields of a command word -/

/-- The opcode is its group followed by its selector (R52, R53). -/
theorem group_append_selector {w : Nat} (c : BitVec w) (h : 8 ≤ w) :
    c.extractLsb' 4 4 ++ c.extractLsb' 0 4 = c.setWidth 8 := by
  rw [BitVec.setWidth_eq_extractLsb' h]
  exact BitVec.extractLsb'_append_extractLsb'_eq_extractLsb' rfl

/-- `OPC` of a command word is the opcode it was put together from (R52). -/
@[simp] theorem commandWord_setWidth (opc : Byte) (bp out : Bool) : (commandWord opc bp out).setWidth 8 = opc := by
  rw [← group_append_selector _ (by decide), (commandWord_opc opc bp out).1, (commandWord_opc opc bp out).2,
    group_append_selector _ (by decide), BitVec.setWidth_eq]

/-- `BP` of a command word (R52). -/
theorem commandWord_bp (opc : Byte) (bp out : Bool) : (commandWord opc bp out).getLsbD 8 = bp := by
  simp [commandWord]

/-- `OP` of a command word (R52). -/
theorem commandWord_op (opc : Byte) (bp out : Bool) : (commandWord opc bp out).getLsbD 9 = out := by
  simp [commandWord]

/-- A command word has no reserved bit set (R52). -/
@[simp] theorem commandWord_rsv (opc : Byte) (bp out : Bool) : (commandWord opc bp out).extractLsb' 10 22 = 0 := by
  apply BitVec.eq_of_getLsbD_eq
  intro i hi
  have hopc : opc.getLsbD (10 + i) = false := BitVec.getLsbD_of_ge _ _ (by omega)
  simp [commandWord, hopc, BitVec.getLsbD_ofBool]
  omega

/-- `OPC` as a byte of `CMD` (R52). -/
theorem opc_eq (p : Packet) : p.opc = (p.cmd.setWidth 8).toNat := (BitVec.toNat_setWidth ..).symm

/-- The opcode's group as four bits of `CMD` (R52). -/
theorem opc_div (p : Packet) : p.opc / 16 = (p.cmd.extractLsb' 4 4).toNat := by
  simp only [Packet.opc, BitVec.extractLsb'_toNat, Nat.shiftRight_eq_div_pow]
  omega

/-- A packet's group by number (R52). -/
theorem group_eq_iff {p : Packet} {g : BitVec 4} : p.cmd.extractLsb' 4 4 = g ↔ p.opc / 16 = g.toNat := by
  rw [opc_div, BitVec.toNat_inj]

/-- The opcode's selector as four bits of `CMD` (R53). -/
theorem opc_mod (p : Packet) : p.opc % 16 = (p.cmd.extractLsb' 0 4).toNat := by
  simp only [Packet.opc, BitVec.extractLsb'_toNat, Nat.shiftRight_eq_div_pow]
  omega

/-- No reserved bit is set, by number (R52). -/
theorem rsv_eq_zero_iff (p : Packet) : p.cmd.toNat / 2 ^ 10 = 0 ↔ p.cmd.extractLsb' 10 22 = 0 := by
  rw [← BitVec.toNat_inj, BitVec.extractLsb'_toNat, Nat.shiftRight_eq_div_pow]
  simp only [BitVec.ofNat_eq_ofNat, BitVec.toNat_ofNat]
  omega

/-- A buffer reference from its own flag and address (R30). -/
@[simp] theorem bufferRef_isSome_getD (buf : BufferRef) : bufferRef buf.isSome (buf.getD 0) = buf := by
  cases buf <;> rfl

/-! ## The decoder, group by group -/

section groups
variable {p : Packet}

/-- R57 cause 1. -/
theorem decode_reserved (h : p.cmd.extractLsb' 10 22 ≠ 0) : decode p = none := if_pos h

/-- The Get group (R53). -/
theorem decode_get (hr : p.cmd.extractLsb' 10 22 = 0) (hg : p.cmd.extractLsb' 4 4 = 1#4) :
    decode p = decodeGet (p.cmd.extractLsb' 0 4) (bufferRef p.bp p.arg1) p.op := by
  simp only [decode, hr, hg, ne_eq, not_true_eq_false, if_false, Packet.bp, Packet.op]

/-- The Set group (R53). -/
theorem decode_set (hr : p.cmd.extractLsb' 10 22 = 0) (hg : p.cmd.extractLsb' 4 4 = 2#4) :
    decode p = decodeSet (p.cmd.extractLsb' 0 4) (bufferRef p.bp p.arg1) p.op p.arg0 := by
  simp only [decode, hr, hg, ne_eq, not_true_eq_false, if_false, Packet.bp, Packet.op]

/-- The route group (R53). -/
theorem decode_route (hr : p.cmd.extractLsb' 10 22 = 0) (hg : p.cmd.extractLsb' 4 4 = 3#4) :
    decode p = decodeRoute (p.cmd.extractLsb' 0 4) p.bp p.op p.arg0 p.arg1 := by
  simp only [decode, hr, hg, ne_eq, not_true_eq_false, if_false, Packet.bp, Packet.op]

/-- Every other group is reserved (R57 cause 2). -/
theorem decode_no_group (h1 : p.cmd.extractLsb' 4 4 ≠ 1#4) (h2 : p.cmd.extractLsb' 4 4 ≠ 2#4)
    (h3 : p.cmd.extractLsb' 4 4 ≠ 3#4) : decode p = none := by
  unfold decode
  split
  · rfl
  · split
    case h_4 => rfl
    all_goals contradiction

end groups

/-- Everything the decoder can do with a packet (R52, R53, R57). -/
theorem decode_cases (p : Packet) :
    (p.cmd.extractLsb' 10 22 ≠ 0 ∧ decode p = none) ∨
    p.cmd.extractLsb' 10 22 = 0 ∧
      ((p.cmd.extractLsb' 4 4 = 1#4 ∧ decode p = decodeGet (p.cmd.extractLsb' 0 4) (bufferRef p.bp p.arg1) p.op) ∨
      (p.cmd.extractLsb' 4 4 = 2#4 ∧
        decode p = decodeSet (p.cmd.extractLsb' 0 4) (bufferRef p.bp p.arg1) p.op p.arg0) ∨
      (p.cmd.extractLsb' 4 4 = 3#4 ∧ decode p = decodeRoute (p.cmd.extractLsb' 0 4) p.bp p.op p.arg0 p.arg1) ∨
      (p.cmd.extractLsb' 4 4 ≠ 1#4 ∧ p.cmd.extractLsb' 4 4 ≠ 2#4 ∧ p.cmd.extractLsb' 4 4 ≠ 3#4 ∧ decode p = none)) := by
  by_cases hr : p.cmd.extractLsb' 10 22 = 0
  · refine .inr ⟨hr, ?_⟩
    by_cases h1 : p.cmd.extractLsb' 4 4 = 1#4
    · exact .inl ⟨h1, decode_get hr h1⟩
    by_cases h2 : p.cmd.extractLsb' 4 4 = 2#4
    · exact .inr (.inl ⟨h2, decode_set hr h2⟩)
    by_cases h3 : p.cmd.extractLsb' 4 4 = 3#4
    · exact .inr (.inr (.inl ⟨h3, decode_route hr h3⟩))
    · exact .inr (.inr (.inr ⟨h1, h2, h3, decode_no_group h1 h2 h3⟩))
  · exact .inl ⟨hr, decode_reserved hr⟩

/-! ## Decoding what was encoded -/

/-- A Get's packet is read by the Get group (R54, R55). -/
theorem decode_encodeGet {opc : Byte} (h : opc.extractLsb' 4 4 = 1#4) (buf : BufferRef) (out : Bool) :
    decode (encodeGet opc buf out) = decodeGet (opc.extractLsb' 0 4) buf out := by
  rw [decode_get (by simp [encodeGet]) (by simpa [encodeGet] using h)]
  simp only [encodeGet, Packet.bp, Packet.op, commandWord_opc, commandWord_bp, commandWord_op, bufferRef_isSome_getD]

/-- A Set's packet is read by the Set group (R54, R55). -/
theorem decode_encodeSet {opc : Byte} (h : opc.extractLsb' 4 4 = 2#4) (buf : BufferRef) (v : Word) :
    decode (encodeSet opc buf v) = decodeSet (opc.extractLsb' 0 4) buf false v := by
  rw [decode_set (by simp [encodeSet]) (by simpa [encodeSet] using h)]
  simp only [encodeSet, Packet.bp, Packet.op, commandWord_opc, commandWord_bp, commandWord_op, bufferRef_isSome_getD]

/-- A route command's packet is read by the route group (R54, R55). -/
theorem decode_encodeRoute {opc : Byte} (h : opc.extractLsb' 4 4 = 3#4) (arg0 arg1 : Word) :
    decode (encodeRoute opc arg0 arg1) = decodeRoute (opc.extractLsb' 0 4) false false arg0 arg1 := by
  rw [decode_route (by simp [encodeRoute]) (by simpa [encodeRoute] using h)]
  simp only [encodeRoute, Packet.bp, Packet.op, commandWord_opc, commandWord_bp, commandWord_op]

/-- A command's packet is that command (R52 to R55): the group's decoder, on the selector of its opcode. -/
theorem decode_encode (i : Instr) : decode (encode i) = some i := by
  cases i with
  | getVersion buf out | getType buf out | getSecHdr buf out | getApid buf out | getSegFlag buf out | getSeqCnt buf out
  | getSize buf out | getMsgId buf out => simp [encode, opcode, decode_encodeGet, decodeGet]
  | setVersion buf v | setType buf v | setSecHdr buf v | setApid buf v | setSegFlag buf v | setSeqCnt buf v
  | setSize buf v => simp [encode, opcode, decode_encodeSet, decodeSet]
  | rtInit | rtGet | rtSet | rtDereg | rtIter => simp [encode, opcode, decode_encodeRoute, decodeRoute]

/-- Settles O1: the packet is `decode_encode`, and R50's pattern carries the packet whole. -/
theorem decodeOfEncodeIsTheCommand : Obligations.DecodeOfEncodeIsTheCommand := by
  intro i
  refine ⟨decode_encode i, ?_⟩
  rw [decodePattern, encodePattern, ofPattern_pattern, decode_encode]

/-! ## Encoding what was decoded -/

/-- What the Get group reads is a Get with the packet's command word and the operands of R55. -/
theorem encode_of_decodeGet {sel : BitVec 4} {bp out : Bool} {arg1 : Word} {i : Instr}
    (h : decodeGet sel (bufferRef bp arg1) out = some i) :
    isGet i = true ∧ encode i = ⟨commandWord (1#4 ++ sel) bp out, 0, if bp then arg1 else 0⟩ := by
  unfold decodeGet at h
  split at h <;> cases h <;> cases bp <;> exact ⟨by simp [isGet, opcode], rfl⟩

/-- What the Set group reads is a Set with the packet's command word and the operands of R55. -/
theorem encode_of_decodeSet {sel : BitVec 4} {bp out : Bool} {arg0 arg1 : Word} {i : Instr}
    (h : decodeSet sel (bufferRef bp arg1) out arg0 = some i) :
    isSet i = true ∧ encode i = ⟨commandWord (2#4 ++ sel) bp out, arg0, if bp then arg1 else 0⟩ := by
  unfold decodeSet at h
  cases out with
  | true => cases h
  | false =>
    simp only [Bool.false_eq_true, if_false] at h
    split at h <;> cases h <;> cases bp <;> exact ⟨by simp [isSet, opcode], rfl⟩

/-- What the route group reads is a route command with the packet's command word and the operands of R55. -/
theorem encode_of_decodeRoute {sel : BitVec 4} {bp out : Bool} {arg0 arg1 : Word} {i : Instr}
    (h : decodeRoute sel bp out arg0 arg1 = some i) :
    isRoute i = true ∧ encode i = ⟨commandWord (3#4 ++ sel) bp out,
      if i == .rtInit || opcode i == 0x33 then 0 else arg0,
      if opcode i == 0x32 || opcode i == 0x33 then arg1 else 0⟩ := by
  unfold decodeRoute at h
  split at h
  · cases h
  · rename_i hflags
    obtain ⟨rfl, rfl⟩ : bp = false ∧ out = false := by simpa using hflags
    split at h <;> cases h <;> exact ⟨by simp [isRoute, opcode], rfl⟩

/-- A Get is no command of another group. -/
theorem isRoute_of_isGet {i : Instr} (h : isGet i = true) : isRoute i = false := by
  simp_all [isGet, isRoute]

/-- A Set is no command of another group, and so has none of the route commands' ignored fields (R55). -/
theorem not_other_group_of_isSet {i : Instr} (h : isSet i = true) :
    isGet i = false ∧ isRoute i = false ∧ i ≠ .rtInit ∧ opcode i ≠ 0x33#8 := by
  obtain ⟨f, buf, v, rfl⟩ := isSet_cases h
  cases f <;> simp [setField, isGet, isRoute, opcode]

/-- A route command is no Get. -/
theorem isGet_of_isRoute {i : Instr} (h : isRoute i = true) : isGet i = false := by
  simp_all [isGet, isRoute]

/-- The command word of a packet with no reserved bit set, from its own fields (R52). -/
theorem cmd_eq_commandWord {p : Packet} {g : BitVec 4} (hr : p.cmd.extractLsb' 10 22 = 0) (hg : p.cmd.extractLsb' 4 4 = g) :
    commandWord (g ++ p.cmd.extractLsb' 0 4) p.bp p.op = p.cmd := by
  subst hg
  exact (commandWord_of_fields p.cmd hr).symm

/-- Settles O2, by the group the packet decodes in: each group's decoder keeps the fields its command uses. -/
theorem encodeOfDecodedZeroesIgnoredFieldsOnly : Obligations.EncodeOfDecodedZeroesIgnoredFieldsOnly := by
  intro p i h
  rcases decode_cases p with ⟨-, hd⟩ | ⟨hr, ⟨hg, hd⟩ | ⟨hg, hd⟩ | ⟨hg, hd⟩ | ⟨-, -, -, hd⟩⟩ <;> rw [hd] at h
  · cases h
  · obtain ⟨hget, he⟩ := encode_of_decodeGet h
    rw [he]
    exact ⟨cmd_eq_commandWord hr hg, by simp [hget], by simp [isRoute_of_isGet hget]⟩
  · obtain ⟨hset, he⟩ := encode_of_decodeSet h
    obtain ⟨hnotGet, hnotRoute, hne, hne'⟩ := not_other_group_of_isSet hset
    rw [he]
    exact ⟨cmd_eq_commandWord hr hg, by simp [hnotGet, hne, hne'], by simp [hnotRoute]⟩
  · obtain ⟨hroute, he⟩ := encode_of_decodeRoute h
    rw [he]
    exact ⟨cmd_eq_commandWord hr hg, by simp [isGet_of_isRoute hroute], by simp [hroute]⟩
  · cases h

/-! ## The packets the decoder refuses -/

/-- The Get group has the selectors 0 to 7 (R53). -/
theorem decodeGet_eq_none_iff {sel : BitVec 4} {buf : BufferRef} {out : Bool} :
    decodeGet sel buf out = none ↔ 8 ≤ sel.toNat := by
  unfold decodeGet
  split
  case h_9 => simp only [true_iff, imp_false, ← BitVec.toNat_inj, BitVec.toNat_ofNat] at *; omega
  all_goals simp

/-- The Set group has the selectors 0 to 6 and no out reference (R53, R54). -/
theorem decodeSet_eq_none_iff {sel : BitVec 4} {buf : BufferRef} {out : Bool} {v : Word} :
    decodeSet sel buf out v = none ↔ out = true ∨ 7 ≤ sel.toNat := by
  unfold decodeSet
  cases out with
  | true => simp
  | false =>
    simp only [Bool.false_eq_true, if_false, false_or]
    split
    case h_8 => simp only [true_iff, imp_false, ← BitVec.toNat_inj, BitVec.toNat_ofNat] at *; omega
    all_goals simp

/-- The route group has the selectors 0 to 4 and no reference (R53, R54). -/
theorem decodeRoute_eq_none_iff {sel : BitVec 4} {bp out : Bool} {arg0 arg1 : Word} :
    decodeRoute sel bp out arg0 arg1 = none ↔ (bp = true ∨ out = true) ∨ 5 ≤ sel.toNat := by
  unfold decodeRoute
  by_cases hflags : bp = true ∨ out = true
  · simp [hflags]
  · simp only [Bool.or_eq_true, hflags, if_false, false_or]
    split
    case h_6 => simp only [true_iff, imp_false, ← BitVec.toNat_inj, BitVec.toNat_ofNat] at *; omega
    all_goals simp

/-- Settles O3: with no reserved bit set, the opcode is 16 times its group and its selector, and each group refuses by its
selector and its flags. -/
theorem decoderRefusesExactlyTheIllegalWords : Obligations.DecoderRefusesExactlyTheIllegalWords := by
  intro p
  rcases decode_cases p with ⟨hr, hd⟩ | ⟨hr, hcase⟩
  · exact iff_of_true hd (.inl (mt (rsv_eq_zero_iff p).mp hr))
  · have hrsv := (rsv_eq_zero_iff p).mpr hr
    rcases hcase with ⟨hg, hd⟩ | ⟨hg, hd⟩ | ⟨hg, hd⟩ | ⟨h1, h2, h3, hd⟩
    · have hgroup : p.opc / 16 = 1 := group_eq_iff.mp hg
      rw [hd, decodeGet_eq_none_iff, ← opc_mod]
      omega
    · have hgroup : p.opc / 16 = 2 := group_eq_iff.mp hg
      rw [hd, decodeSet_eq_none_iff, ← opc_mod]
      cases p.op <;> simp <;> omega
    · have hgroup : p.opc / 16 = 3 := group_eq_iff.mp hg
      rw [hd, decodeRoute_eq_none_iff, ← opc_mod]
      cases p.bp <;> cases p.op <;> simp <;> omega
    · have h1 : p.opc / 16 ≠ 1 := mt (group_eq_iff (g := 1#4)).mpr h1
      have h2 : p.opc / 16 ≠ 2 := mt (group_eq_iff (g := 2#4)).mpr h2
      have h3 : p.opc / 16 ≠ 3 := mt (group_eq_iff (g := 3#4)).mpr h3
      exact iff_of_true hd (.inr (.inl (by omega)))

/-- R57's list as `WellFormed.lean` has it is R57's list as the decoder meets it. -/
theorem decode_eq_none_iff_illegal (p : Packet) : decode p = none ↔ p.illegal = true := by
  rw [decoderRefusesExactlyTheIllegalWords p]
  simp only [Packet.illegal, Packet.reservedBitSet, Packet.reservedOpcode, Packet.setWithOut, Packet.routeWithRef, Packet.rsv,
    Packet.group, Bool.or_eq_true, Bool.and_eq_true, bne_iff_ne, beq_iff_eq, decide_eq_true_eq, Bool.not_eq_true',
    ← Bool.not_eq_true, or_assoc]

/-! ## The opcode table -/

/-- The opcode of a command is `OPC` of its packet (R53). -/
theorem encode_cmd_setWidth (i : Instr) : (encode i).cmd.setWidth 8 = opcode i := by
  cases i <;> exact commandWord_setWidth ..

/-- The opcode of the command a packet decodes to is the packet's `OPC` (R53). -/
theorem opcode_of_decode {p : Packet} {i : Instr} (h : decode p = some i) : opcode i = p.cmd.setWidth 8 := by
  rw [← encode_cmd_setWidth, (encodeOfDecodedZeroesIgnoredFieldsOnly p i h).1]

/-- A packet decodes to a command with a given opcode when it is legal and has that `OPC` (R53, R57). -/
theorem exists_decode_iff {p : Packet} {o : Byte} :
    (∃ i, decode p = some i ∧ opcode i = o) ↔ p.illegal = false ∧ p.cmd.setWidth 8 = o := by
  rw [← Bool.not_eq_true, ← decode_eq_none_iff_illegal, ← ne_eq, Option.ne_none_iff_exists']
  constructor
  · rintro ⟨i, hd, rfl⟩
    exact ⟨⟨i, hd⟩, (opcode_of_decode hd).symm⟩
  · rintro ⟨⟨i, hd⟩, rfl⟩
    exact ⟨i, hd, opcode_of_decode hd⟩

/-- Two words are equal when their fields `RSV`, `OP`, `BP`, `OPC` are (R52). -/
theorem word_eq_iff_fields {c d : Word} : c = d ↔ c.extractLsb' 10 22 = d.extractLsb' 10 22 ∧
    c.getLsbD 9 = d.getLsbD 9 ∧ c.getLsbD 8 = d.getLsbD 8 ∧ c.setWidth 8 = d.setWidth 8 := by
  refine ⟨fun h => h ▸ ⟨rfl, rfl, rfl, rfl⟩, fun ⟨hrsv, hop, hbp, hopc⟩ => BitVec.eq_of_getLsbD_eq fun i hi => ?_⟩
  obtain h8 | rfl | rfl | h10 : i < 8 ∨ i = 8 ∨ i = 9 ∨ 10 ≤ i := by omega
  · simpa [h8] using congrArg (fun x => x.getLsbD i) hopc
  · exact hbp
  · exact hop
  · have hlt : i - 10 < 22 := by omega
    have hbit := congrArg (fun x => x.getLsbD (i - 10)) hrsv
    simpa only [BitVec.getLsbD_extractLsb', hlt, decide_true, Bool.true_and, Nat.add_sub_cancel' h10] using hbit

/-- The mask of a row: all of `RSV` and `OPC`, and those of `OP` and `BP` that R54 makes 0. -/
def rowMask (op bp : Bool) : Word := BitVec.allOnes 22 ++ BitVec.ofBool op ++ BitVec.ofBool bp ++ BitVec.allOnes 8

/-- The fields of a row's mask (R52). -/
theorem rowMask_fields (op bp : Bool) : (rowMask op bp).extractLsb' 10 22 = BitVec.allOnes 22 ∧
    (rowMask op bp).getLsbD 9 = op ∧ (rowMask op bp).getLsbD 8 = bp ∧
    (rowMask op bp).setWidth 8 = BitVec.allOnes 8 := by
  cases op <;> cases bp <;> decide

/-- The row of an opcode in spec/opcode_table.json, match and mask: `OP` must be 0 but for the Get group, `BP` for the route
group (R54). -/
def tableRow (o : Byte) : Word × Word := (o.setWidth 32, rowMask (o.toNat / 16 != 1) (o.toNat / 16 == 3))

/-- What a mask and an opcode ask of a command word, field by field (R50, R52). -/
theorem and_rowMask_eq_iff {c : Word} {o : Byte} {op bp : Bool} : c &&& rowMask op bp = o.setWidth 32 ↔
    c.extractLsb' 10 22 = 0 ∧ (c.getLsbD 9 && op) = false ∧ (c.getLsbD 8 && bp) = false ∧ c.setWidth 8 = o := by
  obtain ⟨hrsv, hop, hbp, hopc⟩ := rowMask_fields op bp
  have hzero : (o.setWidth 32).extractLsb' 10 22 = 0 := by
    simpa [commandWord] using commandWord_rsv o false false
  rw [word_eq_iff_fields, BitVec.extractLsb'_and, hrsv, hzero]
  simp only [BitVec.getLsbD_and, BitVec.setWidth_and, hop, hbp, hopc, BitVec.and_allOnes]
  simp

/-- The twenty opcodes (R53). -/
def opcodes : List Byte :=
  [0x10, 0x11, 0x12, 0x13, 0x14, 0x15, 0x16, 0x17, 0x20, 0x21, 0x22, 0x23, 0x24, 0x25, 0x26, 0x30, 0x31, 0x32, 0x33, 0x34]

/-- None of the twenty is reserved (R57 cause 2). -/
theorem opcodes_range : ∀ o ∈ opcodes, (0x10 ≤ o.toNat ∧ o.toNat ≤ 0x17) ∨ (0x20 ≤ o.toNat ∧ o.toNat ≤ 0x26) ∨
    (0x30 ≤ o.toNat ∧ o.toNat ≤ 0x34) := by decide

/-- A packet with one of the twenty opcodes is legal when it sets no reserved bit and no flag that R54 forbids its group. -/
theorem illegal_eq_false_iff {p : Packet} {o : Byte} (hmem : o ∈ opcodes) (ho : p.cmd.setWidth 8 = o) :
    p.illegal = false ↔
      p.cmd.extractLsb' 10 22 = 0 ∧ (p.op && o.toNat / 16 != 1) = false ∧ (p.bp && o.toNat / 16 == 3) = false := by
  have hrange := opcodes_range o hmem
  rw [← ho, ← opc_eq] at hrange ⊢
  rw [← Bool.not_eq_true, ← decode_eq_none_iff_illegal, decoderRefusesExactlyTheIllegalWords p, ← rsv_eq_zero_iff]
  have hgroup : p.opc / 16 = 1 ∨ p.opc / 16 = 2 ∨ p.opc / 16 = 3 := by omega
  rcases hgroup with hg | hg | hg <;> cases p.op <;> cases p.bp <;> simp only [hrange, hg] <;> simp

/-- Settles O4: the table has the `tableRow` of each of the twenty opcodes, and to match it is to be legal with that `OPC`. -/
theorem decoderAgreesWithOpcodeTable : Obligations.DecoderAgreesWithOpcodeTable := by
  intro p row hrow
  obtain ⟨o, hmem, rfl⟩ : ∃ o ∈ opcodes, tableRow o = row := List.mem_map.mp hrow
  have hinj (i : Instr) : (opcode i).setWidth 32 = o.setWidth 32 ↔ opcode i = o :=
    ⟨fun h => by simpa using congrArg (fun w => w.setWidth 8) h, congrArg _⟩
  simp only [tableRow, hinj, exists_decode_iff, and_rowMask_eq_iff]
  constructor
  · rintro ⟨hrsv, hop, hbp, ho⟩
    exact ⟨(illegal_eq_false_iff hmem ho).mpr ⟨hrsv, hop, hbp⟩, ho⟩
  · rintro ⟨hlegal, ho⟩
    obtain ⟨hrsv, hop, hbp⟩ := (illegal_eq_false_iff hmem ho).mp hlegal
    exact ⟨hrsv, hop, hbp, ho⟩

/-- Settles O5: the nine rows of the table of encoding examples and two of their patterns, each evaluated. -/
theorem encodingExamplesDecode : Obligations.EncodingExamplesDecode := by
  unfold Obligations.EncodingExamplesDecode
  decide

end Sys2Proof.Machine
end

section
/-! SUPPORT. The responses that commands and illegal words send, and to whom (R51, R58, R140, R151). -/

namespace Sys2Proof.Machine

/-- Everything a completing command's response can be (R51): `RES1` and `RES2` are 0 but for `RT_ITER`, which has no error,
and `RES0` is 0 on an error. -/
theorem exec_response {i : Instr} {s t : State} (h : exec i s = .next t) :
    (∃ st r0, t.response = some ⟨st, r0, 0, 0⟩ ∧ (st ≠ .success → r0 = 0)) ∨
      ∃ c r0 r1 r2, i = .rtIter c ∧ t.response = some ⟨.success, r0, r1, r2⟩ := by
  rcases group_cases i with hg | hg | hg
  · rcases exec_get_next hg h with rfl | ⟨base, ks, v, rfl⟩
    · exact .inl ⟨_, _, rfl, fun _ => rfl⟩
    · exact .inl ⟨_, _, rfl, nofun⟩
  · obtain ⟨f, buf, v, rfl⟩ := isSet_cases hg
    rcases exec_set_next h with rfl | ⟨base, -, -, -, rfl⟩ <;> exact .inl ⟨_, _, rfl, fun _ => rfl⟩
  · rcases exec_route_next hg h with ⟨-, rfl⟩ | ⟨-, ⟨st, -, -, rfl⟩ | ⟨m, -, rfl⟩ | ⟨m, r, k, -, -, -, -, -, rfl⟩ |
      ⟨r, n, -, -, -, rfl⟩ | ⟨c, v0, v1, v2, rfl, rfl⟩⟩
    · exact .inl ⟨_, _, rfl, fun _ => rfl⟩
    · exact .inl ⟨_, _, rfl, fun _ => rfl⟩
    · exact .inl ⟨_, _, rfl, nofun⟩
    · exact .inl ⟨_, _, rfl, nofun⟩
    · exact .inl ⟨_, _, rfl, fun _ => rfl⟩
    · exact .inr ⟨c, v0, v1, v2, rfl, rfl⟩

/-- Everything a completing packet's response can be (R51, R58). -/
theorem runPacket_response {p : Packet} {s t : State} (h : runPacket p s = .next t) :
    (∃ st r0, t.response = some ⟨st, r0, 0, 0⟩ ∧ (st ≠ .success → r0 = 0)) ∨
      ∃ c r0 r1 r2, decode p = some (.rtIter c) ∧ t.response = some ⟨.success, r0, r1, r2⟩ := by
  rcases runPacket_cases p s with ⟨i, hd, he⟩ | ⟨-, he⟩ <;> rw [he] at h
  · rcases exec_response h with hplain | ⟨c, r0, r1, r2, rfl, hr⟩
    · exact .inl hplain
    · exact .inr ⟨c, r0, r1, r2, hd, hr⟩
  · cases h
    exact .inl ⟨_, _, rfl, fun _ => rfl⟩

/-- Settles O9: what the response is, by `runPacket_response`; and the step delivers it to the command's issuer. -/
theorem everyCompletedCommandSendsOneResponse : Obligations.EveryCompletedCommandSendsOneResponse := by
  refine ⟨fun p s t h => ?_, fun s t k es p rest he hq hstep => ?_⟩
  · rcases runPacket_response h with ⟨st, r0, hr, hzero⟩ | ⟨c, r0, r1, r2, hd, hr⟩
    · exact ⟨_, hr, fun herr => ⟨hzero herr, rfl, rfl⟩, fun _ => ⟨rfl, rfl⟩⟩
    · exact ⟨_, hr, fun herr => absurd rfl herr, fun hne => absurd hd (hne c)⟩
  · rw [step_command he hq] at hstep
    obtain ⟨u, hu, rfl⟩ := mapNext_next_iff.mp hstep
    obtain ⟨r, hr⟩ : ∃ r, u.response = some r := by
      rcases runPacket_response hu with ⟨st, r0, hr, -⟩ | ⟨c, r0, r1, r2, -, hr⟩ <;> exact ⟨_, hr⟩
    have hinbox (j : Nat) : u.inbox j = s.inbox j := by
      rw [State.inbox, runPacket_inboxes hu]
      rfl
    refine ⟨r, (deliver_response ..).trans hr, by simp [deliver_inbox hr, hinbox], fun j hj => ?_⟩
    simp [deliver_inbox hr, hinbox, hj]

/-- Settles O8: the decoder refuses the packet, and its answer goes to its issuer. -/
theorem illegalCommandIsAnsweredBadArgument : Obligations.IllegalCommandIsAnsweredBadArgument := by
  intro s k es p rest he hq hill
  rw [step_command he hq, runPacket, (decode_eq_none_iff_illegal p).mpr hill]
  rfl

/-- Settles O11: `STATUS` is the first word and the codes are R140's, the largest 3. -/
theorem statusCodesAreTheFour : Obligations.StatusCodesAreTheFour := by
  refine ⟨fun r => rfl, rfl, rfl, rfl, rfl, fun st => ?_⟩
  cases st <;> decide

end Sys2Proof.Machine
end

section
/-! SUPPORT. The contracts of the fields' Gets (R52, R54, R55, R70 to R77): the encoding of a Get, the contract of R70 from the
field's value as a number, and the Gets of two buffers (R78). -/

namespace Sys2Proof.Machine

/-! ## The encoding of a Get -/

/-- `CMD` as the sum of its parts (R52): no two of them have a bit in common. -/
theorem commandWord_eq_ofNat (opc : Byte) (bp out : Bool) :
    commandWord opc bp out =
      BitVec.ofNat 32 (opc.toNat + (if bp then 2 ^ 8 else 0) + (if out then 2 ^ 9 else 0)) := by
  have hopc := opc.isLt
  have hor {i n : Nat} (h : n < 2 ^ i) : n ||| 2 ^ i = n + 2 ^ i := by
    rw [Nat.or_comm, Nat.add_comm]
    simpa using (Nat.two_pow_add_eq_or_of_lt h 1).symm
  have hbp : opc.toNat ||| 256 = opc.toNat + 256 := hor (i := 8) (by omega)
  have hout : opc.toNat ||| 512 = opc.toNat + 512 := hor (i := 9) (by omega)
  have hboth : (opc.toNat + 256) ||| 512 = opc.toNat + 256 + 512 := hor (i := 9) (by omega)
  apply BitVec.eq_of_toNat_eq
  cases bp <;> cases out <;> simp (disch := omega) [commandWord, Nat.mod_eq_of_lt, hbp, hout, hboth]

/-- A packet of the Get group is read by its selector and flags, whatever `ARG0` is (R52 to R55). -/
theorem decode_get_commandWord {opc : Byte} (h : opc.extractLsb' 4 4 = 1#4) (bp out : Bool) (a0 a1 : Word) :
    decode ⟨commandWord opc bp out, a0, a1⟩ = decodeGet (opc.extractLsb' 0 4) (bufferRef bp a1) out := by
  rw [decode_get (p := ⟨commandWord opc bp out, a0, a1⟩) (commandWord_rsv ..) ((commandWord_opc ..).1.trans h)]
  simp only [Packet.bp, Packet.op, commandWord_opc, commandWord_bp, commandWord_op]

/-- Any `BP`, `OP` and `ARG0` with a field's Get opcode encode that Get (R52 to R55). -/
theorem getEncoding_getField (f : HeaderField) : GetEncoding (opcode (getField f none false)).toNat (getField f) := by
  intro bp out a0 a1
  rw [← commandWord_eq_ofNat, decode_get_commandWord (by cases f <;> rfl)]
  cases f <;> rfl

/-! ## The contract of a field's Get -/

/-- The answer of a field's Get (R70). -/
theorem answersValue_getField {f : HeaderField} {s : State} {base : Word} (hread : CanRead s base (touchedBytes f)) :
    AnswersValue (getField f (some base) true) s base (touchedBytes f)
      (fieldValue s.params f (headerByte s.mem base)).toNat := by
  rw [← fieldValue_congr fun k hk => bytesRead_map hk]
  exact answersValue_of_codecGet (exec_getField ..) hread

/-- The contract of R70 for a field's Get, from its value as a number. -/
theorem getContract_getField {f : HeaderField} {value : (Nat → Byte) → Nat}
    (hvalue : ∀ p B, (fieldValue p f B).toNat = value B) :
    GetContract (opcode (getField f none false)).toNat (getField f) (touchedBytes f) value := by
  refine ⟨getEncoding_getField f, getFailures_of_codecGet (exec_getField f), fun s base hread => ?_⟩
  rw [← hvalue s.params]
  exact answersValue_getField hread

/-- Settles O13: the three top bits of a byte are its quotient by `2 ^ 5`. -/
theorem getVersionAnswersBits7to5OfByte0 : Obligations.GetVersionAnswersBits7to5OfByte0 := by
  refine getContract_getField (f := .version) fun p B => ?_
  have h0 := (B 0).isLt
  simp [fieldValue, Nat.shiftRight_eq_div_pow]
  omega

/-- Settles O14: bit 4 is the quotient by `2 ^ 4`, modulo 2. -/
theorem getTypeAnswersBit4OfByte0 : Obligations.GetTypeAnswersBit4OfByte0 := by
  refine getContract_getField (f := .type) fun p B => ?_
  have h0 := (B 0).isLt
  simp [fieldValue, Nat.shiftRight_eq_div_pow]
  omega

/-- Settles O15: bit 3 is the quotient by `2 ^ 3`, modulo 2. -/
theorem getSecHdrAnswersBit3OfByte0 : Obligations.GetSecHdrAnswersBit3OfByte0 := by
  refine getContract_getField (f := .secHdr) fun p B => ?_
  have h0 := (B 0).isLt
  simp [fieldValue, Nat.shiftRight_eq_div_pow]
  omega

/-- Settles O16: the byte appended below the three bits leaves them `2 ^ 8` times their value. -/
theorem getApidAnswersLow3BitsOfByte0ThenByte1 : Obligations.GetApidAnswersLow3BitsOfByte0ThenByte1 := by
  refine getContract_getField (f := .apid) fun p B => ?_
  have h0 := (B 0).isLt
  have h1 := (B 1).isLt
  simp [fieldValue, toNat_append_byte]
  omega

/-- Settles O17: the two top bits of a byte are its quotient by `2 ^ 6`. -/
theorem getSegFlagAnswersBits7to6OfByte2 : Obligations.GetSegFlagAnswersBits7to6OfByte2 := by
  refine getContract_getField (f := .segFlag) fun p B => ?_
  have h2 := (B 2).isLt
  simp [fieldValue, Nat.shiftRight_eq_div_pow]
  omega

/-- Settles O18: the byte appended below the six bits leaves them `2 ^ 8` times their value. -/
theorem getSeqCntAnswersLow6BitsOfByte2ThenByte3 : Obligations.GetSeqCntAnswersLow6BitsOfByte2ThenByte3 := by
  refine getContract_getField (f := .seqCnt) fun p B => ?_
  have h2 := (B 2).isLt
  have h3 := (B 3).isLt
  simp [fieldValue, toNat_append_byte]
  omega

/-- Settles O19: by R5 the offset is at most `2 ^ 32 - 2 ^ 16`, so that the sum of R77 does not wrap. -/
theorem getSizeAnswersSizeFieldPlusOffset : Obligations.GetSizeAnswersSizeFieldPlusOffset := by
  refine ⟨getEncoding_getField .size, getFailures_of_codecGet (exec_getField .size), fun s base hlegal hread => ?_⟩
  have h := answersValue_getField (f := .size) hread
  rwa [fieldValue, BitVec.toNat_ofNat, toNat_append_byte, Nat.mod_eq_of_lt] at h
  obtain ⟨-, hoffset, -, -⟩ := legal_iff.mp hlegal
  have h4 := (headerByte s.mem base 4).isLt
  have h5 := (headerByte s.mem base 5).isLt
  omega

/-! ## The Gets of two buffers -/

/-- R39 for some bytes of a buffer, from R39 for all of them. -/
theorem CanRead.subset {s : State} {base : Word} {ks js : List Nat} (h : CanRead s base ks) (hsub : ∀ j ∈ js, j ∈ ks) :
    CanRead s base js := ⟨h.1, fun j hj => h.2 j (hsub j hj)⟩

/-- A MessageId has bit 11 clear (R78). -/
theorem msgId_getLsbD_eleven (x : BitVec 16) : ((x &&& 0xF7FF#16).setWidth 32).getLsbD 11 = false := by
  simp

/-- A MessageId is at most its mask (R78). -/
theorem msgId_toNat_le (x : BitVec 16) : ((x &&& 0xF7FF#16).setWidth 32).toNat ≤ 0xF7FF := by
  rw [BitVec.toNat_setWidth_of_le (by decide), BitVec.toNat_and]
  exact Nat.and_le_right

/-- Settles O21: by `msgId_eq_iff` MessageIds agree when the three fields' values do, and those are what the Gets answer. -/
theorem msgIdsAgreeExactlyWhenTheirFieldsDo : Obligations.MsgIdsAgreeExactlyWhenTheirFieldsDo := by
  intro s b1 b2 hread1 hread2
  refine ⟨?_, _, resultOf_getMsgId hread1, msgId_getLsbD_eleven _, msgId_toNat_le _⟩
  have hfield (g) (hg : g ∈ [HeaderField.version, .type, .apid]) :
      resultOf (getField g (some b1) true) s = resultOf (getField g (some b2) true) s ↔
        fieldValue s.params g (headerByte s.mem b1) = fieldValue s.params g (headerByte s.mem b2) := by
    have hsub := touchedBytes_of_msgIdField hg
    rw [resultOf_getField (hread1.subset hsub), resultOf_getField (hread2.subset hsub), Option.some_inj]
  rw [resultOf_getMsgId hread1, resultOf_getMsgId hread2, Option.some_inj, msgId_eq_iff s.params,
    ← forall₂_congr hfield]
  simp [getField]

end Sys2Proof.Machine
end

section
/-! SUPPORT. Set and Get of one field (R90, R99): the number a Set encodes, bit by bit at the field's header positions; the Get
of what a Set left, and the Set of what a Get answered. -/

namespace Sys2Proof.Machine

/-! ## The number a Set encodes -/

/-- The raw value a Set of a field encodes: the operand, for Size less the offset (R90, R97). -/
def encodedValue (p : Params) (f : HeaderField) (v : Word) : Nat := v.toNat - if f = .size then p.sizeOffset else 0

/-- In range is what fits the field's width and, for Size, gives the operand when the offset is added (R34, R97). -/
theorem encodedValue_of_inRange {p : Params} {f : HeaderField} {v : Word} (hv : InRange p f v) :
    encodedValue p f v < 2 ^ fieldWidth f ∧ encodedValue p f v + (if f = .size then p.sizeOffset else 0) = v.toNat := by
  cases f with
  | size =>
    obtain ⟨hlow, hhigh⟩ := hv
    simp only [encodedValue, fieldWidth, if_true]
    omega
  | version | type | secHdr | apid | segFlag | seqCnt => exact ⟨hv, rfl⟩

/-- The byte of a header bit in a field's range is a touched byte (R34). -/
theorem byte_mem_touchedBytes {f : HeaderField} {i : Nat} (hlow : fieldOffset f ≤ i)
    (hhigh : i < fieldOffset f + fieldWidth f) : i / 8 ∈ touchedBytes f := by
  cases f <;> simp [touchedBytes, fieldBytes, fieldOffset, fieldWidth] at hlow hhigh ⊢ <;> omega

/-- A Set's bits are those of the encoded number, its last bit at the field's last header position (R9, R90). -/
theorem fieldBitsAt_getLsbD {p : Params} {f : HeaderField} {v : Word} {i : Nat} (hlow : fieldOffset f ≤ i)
    (hhigh : i < fieldOffset f + fieldWidth f) :
    (fieldBitsAt p f v (i / 8)).getLsbD (7 - i % 8) =
      (encodedValue p f v).testBit (fieldOffset f + fieldWidth f - 1 - i) := by
  have hbyte := byte_mem_touchedBytes hlow hhigh
  have hbit (n : Nat) : v.toNat.testBit n = v.getLsbD n := rfl
  have hof (m n : Nat) : (BitVec.ofNat 8 m).getLsbD n = (decide (n < 8) && m.testBit n) := BitVec.getLsbD_ofNat ..
  have hdiv (m n : Nat) : (m / 256).testBit n = m.testBit (n + 8) := Nat.testBit_div_two_pow (n := 8) m n
  cases f <;>
    simp only [touchedBytes, fieldBytes, fieldOffset, fieldWidth, List.map, List.mem_cons, List.not_mem_nil, or_false]
      at hlow hhigh hbyte ⊢
  case version | type | secHdr | segFlag =>
    simp (disch := omega) only [hbyte, fieldBitsAt, touchedBytes, fieldBytes, fieldBits, List.map, List.zip_cons_cons,
      List.lookup_cons_self, Option.getD_some, encodedValue, reduceCtorEq, if_false, Nat.sub_zero, hbit,
      BitVec.getLsbD_shiftLeft, BitVec.getLsbD_setWidth, decide_eq_false, decide_eq_true, Bool.not_false, Bool.true_and]
    congr 1
    omega
  case apid | seqCnt | size =>
    rcases hbyte with hbyte | hbyte <;>
    · simp (disch := omega) [hbyte, fieldBitsAt, touchedBytes, fieldBytes, fieldBits, List.lookup, encodedValue, hbit, hof,
        hdiv, decide_eq_true, -BitVec.getLsbD_eq_getElem]
      congr 1
      omega

/-- What a Set leaves in its field's range is the encoded number (R90). -/
theorem headerBit_setByte_inside {p : Params} {f : HeaderField} {v : Word} {B : Nat → Byte} {i : Nat} (hi : i < 48)
    (hlow : fieldOffset f ≤ i) (hhigh : i < fieldOffset f + fieldWidth f) :
    headerBit (setByte p f v B) i = (encodedValue p f v).testBit (fieldOffset f + fieldWidth f - 1 - i) := by
  have hmask : (fieldMask f (i / 8)).getLsbD (7 - i % 8) = true := by
    rw [fieldMask_getLsbD f i hi]
    exact decide_eq_true ⟨hlow, hhigh⟩
  rw [headerBit, setByte_eq, mergeBits_getLsbD, if_pos hmask, fieldBitsAt_getLsbD hlow hhigh]

/-! ## The Get after a Set -/

/-- A Get's value is the raw value, for Size with the offset (R9, R77). -/
theorem fieldValue_eq_rawField (p : Params) (f : HeaderField) (B : Nat → Byte) :
    fieldValue p f B = BitVec.ofNat 32 (rawField f B + if f = .size then p.sizeOffset else 0) := by
  rw [fieldValue_eq_wordSlice, rawField_eq_wordSlice]

/-- Every field ends inside the six bytes (R34). -/
theorem fieldEnd_le (f : HeaderField) : fieldOffset f + fieldWidth f ≤ 48 := by
  cases f <;> decide

/-- The raw value of what a Set in range leaves is the encoded number (R90). -/
theorem rawField_setByte {p : Params} {f : HeaderField} {v : Word} (B : Nat → Byte) (hv : InRange p f v) :
    rawField f (setByte p f v B) = encodedValue p f v := by
  have hend := fieldEnd_le f
  refine Nat.eq_of_testBit_eq fun j => ?_
  rw [rawField_testBit]
  by_cases hj : j < fieldWidth f
  · rw [headerBit_setByte_inside (by omega) (by omega) (by omega), decide_eq_true hj, Bool.true_and]
    congr 1
    omega
  · have hpow : 2 ^ fieldWidth f ≤ 2 ^ j := Nat.pow_le_pow_right (by decide) (by omega)
    rw [decide_eq_false hj, Bool.false_and,
      Nat.testBit_lt_two_pow (lt_of_lt_of_le (encodedValue_of_inRange hv).1 hpow)]

/-- The Get after a Set in range answers the value set (R99). -/
theorem fieldValue_setByte_same {p : Params} {f : HeaderField} {v : Word} (B : Nat → Byte) (hv : InRange p f v) :
    fieldValue p f (setByte p f v B) = v := by
  rw [fieldValue_eq_rawField, rawField_setByte B hv, (encodedValue_of_inRange hv).2, BitVec.ofNat_toNat, BitVec.setWidth_eq]

/-! ## The Set of what a Get answered -/

/-- A raw value has the field's width (R9). -/
theorem rawField_lt (f : HeaderField) (B : Nat → Byte) : rawField f B < 2 ^ fieldWidth f :=
  Nat.mod_lt _ (Nat.two_pow_pos _)

/-- A Get's value as a number: with the offset R5 allows, the sum does not wrap (R77). -/
theorem toNat_fieldValue {p : Params} (hlegal : p.legal = true) (f : HeaderField) (B : Nat → Byte) :
    (fieldValue p f B).toNat = rawField f B + if f = .size then p.sizeOffset else 0 := by
  obtain ⟨-, hoffset, -, -⟩ := legal_iff.mp hlegal
  have hraw := rawField_lt f B
  rw [fieldValue_eq_rawField, BitVec.toNat_ofNat, Nat.mod_eq_of_lt]
  cases f <;> simp [fieldWidth] at hraw ⊢ <;> omega

/-- What a Get answers is in range (R99). -/
theorem fieldValue_inRange {p : Params} (hlegal : p.legal = true) (f : HeaderField) (B : Nat → Byte) :
    InRange p f (fieldValue p f B) := by
  have hraw := rawField_lt f B
  have hvalue := toNat_fieldValue hlegal f B
  cases f <;> simp [InRange, fieldWidth] at hraw hvalue ⊢ <;> omega

/-- A Set of what a Get answers encodes the raw value it read (R99). -/
theorem encodedValue_fieldValue {p : Params} (hlegal : p.legal = true) (f : HeaderField) (B : Nat → Byte) :
    encodedValue p f (fieldValue p f B) = rawField f B := by
  rw [encodedValue, toNat_fieldValue hlegal, Nat.add_sub_cancel]

/-- Headers with the same bits have the same six bytes (R7, R33). -/
theorem byte_eq_of_headerBit {B C : Nat → Byte} (h : ∀ i < 48, headerBit B i = headerBit C i) {k : Nat} (hk : k ≤ 5) :
    B k = C k := by
  refine BitVec.eq_of_getLsbD_eq fun j hj => ?_
  have hbit := h (8 * k + (7 - j)) (by omega)
  rwa [headerBit, headerBit, show (8 * k + (7 - j)) / 8 = k by omega, show 7 - (8 * k + (7 - j)) % 8 = j by omega] at hbit

/-- A Set of what a Get answers leaves every header bit (R99). -/
theorem headerBit_setByte_fieldValue {p : Params} (hlegal : p.legal = true) (f : HeaderField) (B : Nat → Byte) {i : Nat}
    (hi : i < 48) : headerBit (setByte p f (fieldValue p f B) B) i = headerBit B i := by
  by_cases hin : fieldOffset f ≤ i ∧ i < fieldOffset f + fieldWidth f
  · obtain ⟨hlow, hhigh⟩ := hin
    rw [headerBit_setByte_inside hi hlow hhigh, encodedValue_fieldValue hlegal, rawField_testBit, decide_eq_true (by omega),
      Bool.true_and]
    congr 1
    omega
  · exact headerBit_setByte_outside hi (by omega)

/-- A successful Set that leaves its touched bytes as they were leaves buffer memory as it was. -/
theorem SetEffect.mem_eq {f : HeaderField} {base v : Word} {s t : State} (h : SetEffect f base v s t) (hm : s.mem.wf)
    (hsame : ∀ k ∈ touchedBytes f, headerByte t.mem base k = headerByte s.mem base k) : t.mem = s.mem := by
  refine Memory.ext h.wf hm fun a => ?_
  by_cases ha : ∃ k ∈ touchedBytes f, a = headerAddr base k
  · obtain ⟨k, hk, rfl⟩ := ha
    exact hsame k hk
  · exact h.other a fun k hk e => ha ⟨k, hk, e⟩

/-- Settles O35: `fieldValue_setByte_same` in range; out of range only the response changes; and what a Get answers is in range,
and a Set of it leaves every header bit. -/
theorem getAndSetRoundTrip : Obligations.GetAndSetRoundTrip := by
  refine ⟨fun f s base v hm hwrite hv => ?_, fun f s base v hwrite hv => ?_, fun f s base hlegal hm hwrite => ?_⟩
  · obtain ⟨t, ht, heffect⟩ := exec_setField_effect hm hwrite hv
    refine ⟨t, ht, heffect.response, ?_⟩
    rw [resultOf_getField ((CanRead.of_params heffect.params).mpr hwrite.canRead), heffect.params, heffect.header,
      fieldValue_setByte_same _ hv]
  · exact ⟨_, exec_setField_outOfRange hwrite hv, rfl, rfl, resultOf_getField_congr rfl rfl⟩
  · obtain ⟨t, ht, heffect⟩ := exec_setField_effect hm hwrite (fieldValue_inRange hlegal f (headerByte s.mem base))
    refine ⟨_, t, resultOf_getField hwrite.canRead, ht, heffect.response, heffect.mem_eq hm fun k hk => ?_⟩
    rw [heffect.header]
    exact byte_eq_of_headerBit (fun i hi => headerBit_setByte_fieldValue hlegal f _ hi) (touchedBytes_le hk)

end Sys2Proof.Machine
end

section
/-! SUPPORT. The contracts of the Sets (R52, R54, R90 to R97): the encoding of a Set, the byte a Set leaves as a number, and the
contract of R90 from a field's range and those numbers. -/

namespace Sys2Proof.Machine

/-! ## The encoding of a Set -/

/-- A packet of the Set group is read by its selector, its flags and `ARG0` (R52 to R55). -/
theorem decode_set_commandWord {opc : Byte} (h : opc.extractLsb' 4 4 = 2#4) (bp out : Bool) (a0 a1 : Word) :
    decode ⟨commandWord opc bp out, a0, a1⟩ = decodeSet (opc.extractLsb' 0 4) (bufferRef bp a1) out a0 := by
  rw [decode_set (p := ⟨commandWord opc bp out, a0, a1⟩) (commandWord_rsv ..) ((commandWord_opc ..).1.trans h)]
  simp only [Packet.bp, Packet.op, commandWord_opc, commandWord_bp, commandWord_op]

/-- A field's Set opcode with any `BP` encodes that Set when `OP = 0`, and nothing when `OP = 1` (R52 to R55, R57). -/
theorem decode_setField_word (f : HeaderField) (bp out : Bool) (a0 a1 : Word) :
    decode ⟨BitVec.ofNat 32 ((opcode (setField f none 0)).toNat + (if bp then 2 ^ 8 else 0) + (if out then 2 ^ 9 else 0)),
        a0, a1⟩ =
      if out then none else some (setField f (if bp then some a1 else none) a0) := by
  rw [← commandWord_eq_ofNat, decode_set_commandWord (by cases f <;> rfl)]
  cases f <;> rfl

/-! ## The byte a Set leaves, as a number -/

/-- A byte that has the bits of `x` from bit `lo` up to bit `hi` and those of `old` elsewhere, as a sum of the three parts. -/
theorem toNat_eq_of_replaced_bits {b old : Byte} {lo hi x : Nat} (hle : lo ≤ hi) (hx : x < 2 ^ (hi - lo))
    (hin : ∀ j < 8, lo ≤ j → j < hi → b.getLsbD j = x.testBit (j - lo))
    (hout : ∀ j < 8, j < lo ∨ hi ≤ j → b.getLsbD j = old.getLsbD j) (hhi : hi ≤ 8) :
    b.toNat = old.toNat / 2 ^ hi * 2 ^ hi + x * 2 ^ lo + old.toNat % 2 ^ lo := by
  have hlow : old.toNat % 2 ^ lo < 2 ^ lo := Nat.mod_lt _ (Nat.two_pow_pos _)
  have hbelow : 2 ^ lo * x + old.toNat % 2 ^ lo < 2 ^ hi := by
    calc 2 ^ lo * x + old.toNat % 2 ^ lo < 2 ^ lo * (x + 1) := by rw [Nat.mul_succ]; omega
      _ ≤ 2 ^ lo * 2 ^ (hi - lo) := Nat.mul_le_mul_left _ hx
      _ = 2 ^ hi := by rw [← Nat.pow_add, Nat.add_sub_cancel' hle]
  rw [Nat.add_assoc, Nat.mul_comm, Nat.mul_comm x]
  refine Nat.eq_of_testBit_eq fun j => ?_
  rw [Nat.testBit_two_pow_mul_add _ hbelow, Nat.testBit_two_pow_mul_add _ hlow, Nat.testBit_div_two_pow,
    Nat.testBit_mod_two_pow]
  have hbit (c : Byte) : c.toNat.testBit j = c.getLsbD j := rfl
  by_cases hj : j < hi
  · by_cases hj' : j < lo
    · simp [hj, hj', hbit, hout j (by omega) (.inl hj')]
    · simp [hj, hj', hbit, hin j (by omega) (by omega) hj]
  · rw [if_neg hj, Nat.sub_add_cancel (by omega), hbit, hbit]
    by_cases hj8 : j < 8
    · exact hout j hj8 (.inr (by omega))
    · rw [BitVec.getLsbD_of_ge _ j (by omega), BitVec.getLsbD_of_ge _ j (by omega)]

/-- How many of the low bits of byte `k` lie below the field (R34). -/
@[simp] def bitsBelow (f : HeaderField) (k : Nat) : Nat := 8 * (k + 1) - (fieldOffset f + fieldWidth f)

/-- How many of the low bits of byte `k` lie below the field or in it (R34). -/
@[simp] def bitsUpTo (f : HeaderField) (k : Nat) : Nat := 8 - (fieldOffset f - 8 * k)

/-- How many bits of the field lie in the bytes after byte `k` (R34). -/
@[simp] def bitsAfter (f : HeaderField) (k : Nat) : Nat := fieldOffset f + fieldWidth f - 8 * (k + 1)

/-- Byte `k` of the header after the number `e` is put in the field's place, the byte being `b` before (R90). -/
@[simp] def replacedByte (f : HeaderField) (e b k : Nat) : Nat :=
  b / 2 ^ bitsUpTo f k * 2 ^ bitsUpTo f k +
    e / 2 ^ bitsAfter f k % 2 ^ (bitsUpTo f k - bitsBelow f k) * 2 ^ bitsBelow f k + b % 2 ^ bitsBelow f k

/-- Bit `j` of byte `k` is header bit `8 * k + (7 - j)` (R7, R33). -/
theorem getLsbD_eq_headerBit (B : Nat → Byte) (k : Nat) {j : Nat} (hj : j < 8) :
    (B k).getLsbD j = headerBit B (8 * k + (7 - j)) := by
  rw [headerBit, show (8 * k + (7 - j)) / 8 = k by omega, show 7 - (8 * k + (7 - j)) % 8 = j by omega]

/-- The byte a Set leaves is the old byte with the encoded number in the field's place (R90). -/
theorem toNat_setByte (p : Params) {f : HeaderField} (v : Word) (B : Nat → Byte) {k : Nat} (hk : k ∈ touchedBytes f) :
    (setByte p f v B k).toNat = replacedByte f (encodedValue p f v) (B k).toNat k := by
  have hk5 := touchedBytes_le hk
  have hmeets : bitsBelow f k ≤ bitsUpTo f k := by
    revert k
    cases f <;> decide
  refine toNat_eq_of_replaced_bits hmeets (Nat.mod_lt _ (Nat.two_pow_pos _)) (fun j hj8 hlow hhigh => ?_)
    (fun j hj8 hout => ?_) (Nat.sub_le ..)
  · rw [getLsbD_eq_headerBit _ _ hj8, Nat.testBit_mod_two_pow, Nat.testBit_div_two_pow, decide_eq_true (by omega),
      Bool.true_and]
    unfold bitsBelow bitsUpTo bitsAfter at *
    rw [headerBit_setByte_inside (by omega) (by omega) (by omega)]
    congr 1
    omega
  · unfold bitsBelow bitsUpTo at *
    rw [getLsbD_eq_headerBit _ _ hj8, getLsbD_eq_headerBit _ _ hj8]
    exact headerBit_setByte_outside (by omega) (by omega)

/-! ## The contract of a field's Set -/

/-- The contract of R90 for a field's Set, from its range and the bytes it leaves as numbers. -/
theorem setContract_setField {f : HeaderField} {inRange : Params → Nat → Prop}
    {newByte : Params → (Nat → Byte) → Nat → Nat → Nat} (hrange : ∀ p v, InRange p f v ↔ inRange p v.toNat)
    (hnew : ∀ p v B, inRange p v.toNat → ∀ k ∈ touchedBytes f,
      replacedByte f (encodedValue p f v) (B k).toNat k = newByte p B v.toNat k) :
    SetContract (opcode (setField f none 0)).toNat (setField f) (touchedBytes f) inRange newByte := by
  refine ⟨fun bp => decode_setField_word f bp false, fun bp => decode_setField_word f bp true, fun s v => ?_,
    fun s base v hwrite hv => exec_setField_outOfRange hwrite (mt (hrange ..).mp hv), fun s base v hm hwrite hv => ?_⟩
  · rw [AnswersError, exec_setField]
    rfl
  · obtain ⟨t, ht, heffect⟩ := exec_setField_effect hm hwrite ((hrange ..).mpr hv)
    refine ⟨t, ht, heffect.response, fun k hk => ?_, heffect.other,
      ⟨heffect.params, heffect.rtInited, heffect.slots, heffect.queues, heffect.inboxes, heffect.events, heffect.resets⟩,
      heffect.accesses_eq⟩
    rw [heffect.header, toNat_setByte _ _ _ hk, hnew _ _ _ hv k hk]

/-- Settles O25: the field is the top of `B[0]`. -/
theorem setVersionReplacesBits7to5OfByte0 : Obligations.SetVersionReplacesBits7to5OfByte0 := by
  refine setContract_setField (f := .version) (fun p v => Nat.lt_succ_iff) fun p v B hv k hk => ?_
  obtain rfl := List.mem_singleton.mp hk
  have h0 := (B 0).isLt
  simp [fieldOffset, fieldWidth, encodedValue]
  omega

/-- Settles O26: the field is bit 4 of `B[0]`, and its two values are the numbers below 2. -/
theorem setTypeReplacesBit4OfByte0 : Obligations.SetTypeReplacesBit4OfByte0 := by
  refine setContract_setField (f := .type) (fun p v => Nat.lt_succ_iff.trans Nat.le_one_iff_eq_zero_or_eq_one)
    fun p v B hv k hk => ?_
  obtain rfl := List.mem_singleton.mp hk
  simp [fieldOffset, fieldWidth, encodedValue]
  omega

/-- Settles O27: the field is bit 3 of `B[0]`, and its two values are the numbers below 2. -/
theorem setSecHdrReplacesBit3OfByte0 : Obligations.SetSecHdrReplacesBit3OfByte0 := by
  refine setContract_setField (f := .secHdr) (fun p v => Nat.lt_succ_iff.trans Nat.le_one_iff_eq_zero_or_eq_one)
    fun p v B hv k hk => ?_
  obtain rfl := List.mem_singleton.mp hk
  simp [fieldOffset, fieldWidth, encodedValue]
  omega

/-- Settles O28: the field is the low end of `B[0]` and all of `B[1]`. -/
theorem setApidReplacesLow3BitsOfByte0AndByte1 : Obligations.SetApidReplacesLow3BitsOfByte0AndByte1 := by
  refine setContract_setField (f := .apid) (fun p v => Nat.lt_succ_iff) fun p v B hv k hk => ?_
  obtain rfl | rfl : k = 0 ∨ k = 1 := List.mem_pair.mp hk
  · simp [fieldOffset, fieldWidth, encodedValue]
    omega
  · have h1 := (B 1).isLt
    simp [fieldOffset, fieldWidth, encodedValue]
    omega

/-- Settles O29: the field is the top of `B[2]`. -/
theorem setSegFlagReplacesBits7to6OfByte2 : Obligations.SetSegFlagReplacesBits7to6OfByte2 := by
  refine setContract_setField (f := .segFlag) (fun p v => Nat.lt_succ_iff) fun p v B hv k hk => ?_
  obtain rfl := List.mem_singleton.mp hk
  have h2 := (B 2).isLt
  simp [fieldOffset, fieldWidth, encodedValue]
  omega

/-- Settles O30: the field is the low end of `B[2]` and all of `B[3]`. -/
theorem setSeqCntReplacesLow6BitsOfByte2AndByte3 : Obligations.SetSeqCntReplacesLow6BitsOfByte2AndByte3 := by
  refine setContract_setField (f := .seqCnt) (fun p v => Nat.lt_succ_iff) fun p v B hv k hk => ?_
  obtain rfl | rfl : k = 2 ∨ k = 3 := List.mem_pair.mp hk
  · simp [fieldOffset, fieldWidth, encodedValue]
    omega
  · have h3 := (B 3).isLt
    simp [fieldOffset, fieldWidth, encodedValue]
    omega

/-- Settles O31: the field is `B[4]` and `B[5]` whole; and 0 is below the window, as R5 puts the offset above 0. -/
theorem setSizeWritesTotalLengthMinusOffset : Obligations.SetSizeWritesTotalLengthMinusOffset := by
  refine ⟨setContract_setField (f := .size) (fun p v => Iff.rfl) fun p v B hv k hk => ?_, fun s base hlegal hwrite =>
    exec_setField_outOfRange (f := .size) hwrite fun hv => ?_⟩
  · obtain rfl | rfl : k = 4 ∨ k = 5 := List.mem_pair.mp hk
    · have h4 := (B 4).isLt
      simp [fieldOffset, fieldWidth, encodedValue]
      omega
    · have h5 := (B 5).isLt
      simp [fieldOffset, fieldWidth, encodedValue]
      omega
  · obtain ⟨hoffset, -⟩ := legal_iff.mp hlegal
    exact absurd (hoffset.trans hv.1) (by decide)

end Sys2Proof.Machine
end

section
/-! SUPPORT. `RT_INIT`, the probe sequence and `RT_SET` (R111, R112, R114, R115, R121, R122): the slots a probe sequence visits,
which check of `RT_SET` answers in terms of live pairs and free slots, and where a registration is placed. -/

namespace Sys2Proof.Machine

/-! ## `RT_INIT`, and the commands before it -/

/-- Settles O38: the command's own packet, and the table it leaves. -/
theorem rtInitEmptiesTheTable : Obligations.RtInitEmptiesTheTable := by
  refine ⟨fun a0 a1 => by simp [decode, decodeRoute], fun s => ⟨_, rfl, rfl, rfl, List.length_replicate, fun i hi => ?_,
    exec_route_onlyChangesTable (i := .rtInit) rfl rfl⟩⟩
  exact List.getElem?_replicate_of_lt hi

/-- Before `RT_INIT` a route command has no meaning, whatever it would answer (R121). -/
theorem whenInited_false {s : State} (a : Answer) (h : s.rtInited = false) :
    whenInited s a = .refused .routeTableNotInitialised := by
  simp [whenInited, h]

/-- A packet that R57 makes illegal is answered `BAD_ARGUMENT` in every state (R58). -/
theorem runPacket_illegal {p : Packet} (s : State) (h : p.illegal = true) :
    runPacket p s = .next (s.raise .badArgument) := by
  rw [runPacket, (decode_eq_none_iff_illegal p).mpr h]
  rfl

/-- Settles O44: the four commands are refused by their common check, and the decoder comes before it. -/
theorem routeCommandsBeforeInitAreRefused : Obligations.RouteCommandsBeforeInitAreRefused := by
  intro s h
  exact ⟨fun m => exec_rtGet_refused m h, fun _ _ => whenInited_false _ h, fun _ => whenInited_false _ h,
    fun _ => whenInited_false _ h, ⟨_, rfl, rfl⟩, fun _ hp => runPacket_illegal s hp⟩

/-! ## The probe sequence -/

/-- No slot is probed at two displacements below `MAX_ROUTES` (R111). -/
theorem probe_inj {p : Params} {m : Word} {j k : Nat} (hj : j < p.maxRoutes) (hk : k < p.maxRoutes)
    (h : probe p m j = probe p m k) : j = k := by
  have hhome := homeSlot_lt (p := p) (by omega) m
  rw [probe_eq_sub hj, probe_eq_sub hk] at h
  split at h <;> split at h <;> omega

/-- Settles O41: every slot is probed, and not twice. -/
theorem probeSequenceVisitsEverySlotOnce : Obligations.ProbeSequenceVisitsEverySlotOnce := by
  intro p m hp
  refine ⟨homeSlot_lt hp m, ?_, fun i hi => ?_, fun k hk => probe_eq_sub hk⟩
  · rw [probe_eq_sub hp, Nat.add_zero, if_pos (homeSlot_lt hp m)]
  · obtain ⟨k, hk, hprobe⟩ := probe_surj m hi
    exact ⟨k, ⟨hk, hprobe⟩, fun j ⟨hj, hprobe'⟩ => probe_inj hj hk (hprobe'.trans hprobe.symm)⟩

/-! ## The checks of `RT_SET` -/

/-- Check (2) of R114 passes when the MessageId is not live. -/
theorem any_holdsMsg_eq_false {s : State} {m : Word} (h : ∀ i q, ¬ LiveAt s i m q) : s.slots.any (holdsMsg m) = false :=
  Bool.eq_false_iff.mpr fun hany => (any_holdsMsg.mp hany).elim fun i ⟨q, hl⟩ => h i q hl

/-- Check (4) of R114 passes when the RouteId is not live. -/
theorem any_holdsRoute_eq_false {s : State} {r : Word} (h : ∀ i n, ¬ LiveAt s i n r) :
    s.slots.any (holdsRoute r) = false :=
  Bool.eq_false_iff.mpr fun hany => (any_holdsRoute.mp hany).elim fun i ⟨n, hl⟩ => h i n hl

section rtSet
variable {s : State} {m r : Word} {k : Nat}

/-- `RT_SET` of a RouteId outside `1 .. MAX_ROUTES` (R114, check 1). -/
theorem exec_rtSet_illegal (hi : s.rtInited = true) (hr : routeIdLegal s.params.maxRoutes r = false) :
    exec (.rtSet m r) s = .next (s.raise .badArgument) := by
  simp [exec, execRtSet, hi, hr]

/-- `RT_SET` of a new MessageId when no slot of its probe sequence is free (R114, check 3). -/
theorem exec_rtSet_full (hi : s.rtInited = true) (hr : routeIdLegal s.params.maxRoutes r = true)
    (hm : s.slots.any (holdsMsg m) = false) (hk : firstFree s.params s.slots m = none) :
    exec (.rtSet m r) s = .next (s.raise .capacityExceeded) := by
  simp only [exec, execRtSet, whenInited_true hi, hr, hm, hk, Bool.not_true, Bool.false_eq_true, if_false]

/-- `RT_SET` of a RouteId in use, where there is room (R114, check 4). -/
theorem exec_rtSet_routeInUse (hi : s.rtInited = true) (hr : routeIdLegal s.params.maxRoutes r = true)
    (hm : s.slots.any (holdsMsg m) = false) (hk : firstFree s.params s.slots m = some k)
    (hq : s.slots.any (holdsRoute r) = true) : exec (.rtSet m r) s = .next (s.raise .badArgument) := by
  simp only [exec, execRtSet, whenInited_true hi, hr, hm, hk, hq, Bool.not_true, Bool.false_eq_true, if_false, if_true]

/-- `RT_SET` when all four checks pass fills the first free slot and answers its displacement (R114, R115). -/
theorem exec_rtSet_fills (hi : s.rtInited = true) (hr : routeIdLegal s.params.maxRoutes r = true)
    (hm : s.slots.any (holdsMsg m) = false) (hk : firstFree s.params s.slots m = some k)
    (hq : s.slots.any (holdsRoute r) = false) :
    exec (.rtSet m r) s = .next
      (({ s with slots := s.slots.set (probe s.params m k) (some { msgid := m, routeid := r }) } : State).respond .success
        (BitVec.ofNat 32 k) 0 0) := by
  simp only [exec, execRtSet, whenInited_true hi, hr, hm, hk, hq, Bool.not_true, Bool.false_eq_true, if_false]

end rtSet

/-- Where a slot is free, every probe sequence meets one (R111, R114). -/
theorem exists_firstFree {p : Params} {slots : List Slot} (m : Word) (hl : slots.length = p.maxRoutes)
    (hfree : ∃ i < p.maxRoutes, slots[i]? = some none) : ∃ k, firstFree p slots m = some k := by
  obtain ⟨i, hi, hslot⟩ := hfree
  exact Option.ne_none_iff_exists'.mp fun hnone => (firstFree_eq_none m hl).mp hnone i hi hslot

/-- Settles O40: each clause is one check of `RT_SET`, in terms of live pairs and free slots. -/
theorem rtSetChecksThenFillsTheFirstFreeSlot : Obligations.RtSetChecksThenFillsTheFirstFreeSlot := by
  refine ⟨fun a0 a1 => by simp [decode, decodeRoute], fun s m r hinv hi =>
    ⟨fun hr => ?_, fun h0 hle hm => ?_, fun h0 hle hm hfull => ?_, fun h0 hle hm hfree hq => ?_,
      fun h0 hle hm hfree hq => ?_⟩⟩
  · -- check (1)
    refine exec_rtSet_illegal hi (Bool.eq_false_iff.mpr fun hlegal => ?_)
    obtain ⟨hne, hle⟩ := routeIdLegal_iff_ne.mp hlegal
    rcases hr with h0 | hbig
    · exact hne h0
    · omega
  · -- check (2)
    exact exec_rtSet_duplicate hi (routeIdLegal_iff_ne.mpr ⟨h0, hle⟩) (any_holdsMsg.mpr hm)
  · -- check (3)
    have hnone : firstFree s.params s.slots m = none :=
      (firstFree_eq_none m hinv.slotCount).mpr fun i hlt => (not_free_iff (by rwa [hinv.slotCount])).mpr (hfull i hlt)
    exact exec_rtSet_full hi (routeIdLegal_iff_ne.mpr ⟨h0, hle⟩) (any_holdsMsg_eq_false hm) hnone
  · -- check (4)
    obtain ⟨k, hk⟩ := exists_firstFree m hinv.slotCount hfree
    exact exec_rtSet_routeInUse hi (routeIdLegal_iff_ne.mpr ⟨h0, hle⟩) (any_holdsMsg_eq_false hm) hk (any_holdsRoute.mpr hq)
  · -- no check fails
    obtain ⟨k, hk⟩ := exists_firstFree m hinv.slotCount hfree
    obtain ⟨hlt, hslot, hbefore⟩ := firstFree_eq_some hk
    have hprobe (j : Nat) : probe s.params m j < s.slots.length := by
      rw [hinv.slotCount]
      exact probe_lt (by omega) m j
    exact ⟨k, hlt, hslot, fun j hj => (not_free_iff (hprobe j)).mp (hbefore j hj),
      exec_rtSet_fills hi (routeIdLegal_iff_ne.mpr ⟨h0, hle⟩) (any_holdsMsg_eq_false hm) hk (any_holdsRoute_eq_false hq)⟩

/-! ## Where a registration is placed -/

/-- Everything an `RT_SET` can do when it answers a next state (R114): an error that changes nothing, or the first free slot of
the probe sequence filled and its displacement answered. -/
theorem exec_rtSet_next {s t : State} {m r : Word} (h : exec (.rtSet m r) s = .next t) :
    (∃ st, st ≠ .success ∧ t = s.raise st) ∨
    ∃ k, firstFree s.params s.slots m = some k ∧
      t = ({ s with slots := s.slots.set (probe s.params m k) (some { msgid := m, routeid := r }) } : State).respond .success
        (BitVec.ofNat 32 k) 0 0 := by
  have hroute : isRoute (.rtSet m r) = true := by simp [isRoute, opcode]
  rcases exec_route_next hroute h with ⟨⟨⟩, -⟩ | ⟨-, ⟨st, hst, -, rfl⟩ | ⟨m', ⟨⟩, -⟩ | ⟨m', r', k, ⟨⟩, -, -, hk, -, rfl⟩ |
    ⟨r', n, ⟨⟩, -⟩ | ⟨c, v0, v1, v2, ⟨⟩, -⟩⟩
  · exact .inl ⟨st, hst, rfl⟩
  · exact .inr ⟨k, hk, rfl⟩

/-- What a `SUCCESS` of `RT_SET` says: the first free slot was filled, and its displacement is the answer (R114, R115). -/
theorem exec_rtSet_success {s t : State} {m r k : Word} (h : exec (.rtSet m r) s = .next t)
    (hk : t.response = some { status := .success, res0 := k, res1 := 0, res2 := 0 }) :
    ∃ n, firstFree s.params s.slots m = some n ∧ k = BitVec.ofNat 32 n ∧
      t.slots = s.slots.set (probe s.params m n) (some { msgid := m, routeid := r }) := by
  rcases exec_rtSet_next h with ⟨st, hst, rfl⟩ | ⟨n, hn, rfl⟩
  · simp [hst] at hk
  · cases hk
    exact ⟨n, hn, rfl, rfl⟩

/-- Which slots are live, by index (R122). -/
def occupancy (slots : List Slot) : List Bool := slots.map Option.isSome

/-- A slot is free where the occupancy says so. -/
theorem free_iff_occupancy {slots : List Slot} {i : Nat} : slots[i]? = some none ↔ (occupancy slots)[i]? = some false := by
  simp [occupancy]

/-- The search of `RT_SET` looks at the occupancy only (R122). -/
theorem firstFree_congr {p : Params} {slots slots' : List Slot} (m : Word) (h : occupancy slots = occupancy slots') :
    firstFree p slots m = firstFree p slots' m := by
  refine List.find?_congr fun k _ => ?_
  rw [Bool.eq_iff_iff, beq_iff_eq, beq_iff_eq, free_iff_occupancy, free_iff_occupancy, h]

/-- The occupancy after a slot is filled. -/
theorem occupancy_set_some (slots : List Slot) (i : Nat) (e : RouteEntry) :
    occupancy (slots.set i (some e)) = (occupancy slots).set i true := List.map_set

/-- Equal occupancy, index by index as R122 is stated. -/
theorem occupancy_eq_iff {slots slots' : List Slot} : occupancy slots = occupancy slots' ↔
    ∀ i : Nat, slots[i]?.map Option.isSome = slots'[i]?.map Option.isSome := by
  simp only [List.ext_getElem?_iff, occupancy, List.getElem?_map]

/-- Settles O48: the displacement and the occupancy it leaves are functions of the parameters, the MessageId and the
occupancy. -/
theorem placementDependsOnlyOnOccupancy : Obligations.PlacementDependsOnlyOnOccupancy := by
  intro s1 s2 t1 t2 m r1 r2 k1 k2 hp hocc h1 h2 hk1 hk2
  rw [← occupancy_eq_iff] at hocc ⊢
  obtain ⟨n1, hn1, rfl, ht1⟩ := exec_rtSet_success h1 hk1
  obtain ⟨n2, hn2, rfl, ht2⟩ := exec_rtSet_success h2 hk2
  obtain rfl : n1 = n2 := by
    rw [hp, firstFree_congr m hocc, hn2] at hn1
    exact (Option.some.inj hn1).symm
  exact ⟨rfl, by rw [ht1, ht2, occupancy_set_some, occupancy_set_some, hocc, hp]⟩

end Sys2Proof.Machine
end

section
/-! SUPPORT. The route table along sequences of commands (R20, R120, R123): a MessageId that stays unregistered, and
registrations from the empty table until no slot is free. -/

namespace Sys2Proof.Machine

/-! ## A MessageId that stays unregistered -/

/-- A pair that is live after a command was live before it, or the command registered it (R20). -/
theorem LiveAt.of_exec {c : Instr} {s t : State} {i : Nat} {m r : Word} (hl : LiveAt t i m r) (h : exec c s = .next t) :
    LiveAt s i m r ∨ c = .rtSet m r := by
  rcases exec_slots_cases h with hs | ⟨-, hs⟩ | ⟨m', r', n, rfl, -, hs⟩ | ⟨r', n, m', -, -, hs⟩ <;> rw [LiveAt, hs] at hl
  · exact .inl hl
  · simp [List.getElem?_replicate] at hl
  · rw [List.getElem?_set] at hl
    split_ifs at hl
    · cases hl; exact .inr rfl
    · exact .inl hl
  · rw [List.getElem?_set] at hl
    split_ifs at hl
    · cases hl
    · exact .inl hl

/-- An `RT_SET` that does not answer `SUCCESS` changes no slot (R114, R147). -/
theorem exec_rtSet_slots_of_failed {s t : State} {m r : Word} (h : exec (.rtSet m r) s = .next t)
    (hfail : resultOf (.rtSet m r) s = none) : t.slots = s.slots := by
  rcases exec_rtSet_next h with ⟨st, -, rfl⟩ | ⟨n, -, rfl⟩
  · rfl
  · simp [resultOf, answerOf, h] at hfail

/-- Once `RT_INIT` has run, no command undoes it (R17). -/
theorem exec_keeps_rtInited {c : Instr} {s t : State} (hi : s.rtInited = true) (h : exec c s = .next t) :
    t.rtInited = true := by
  by_cases hc : c = .rtInit
  · subst hc; exact (exec_rtInit_table h).1
  · exact (exec_rtInited_of_ne_rtInit hc h).trans hi

/-- What the second half of R123 follows: after `RT_INIT`, the MessageId is live in no slot. -/
structure Unregistered (m : Word) (s : State) : Prop where
  rtInited : s.rtInited = true
  absent : ∀ i q, ¬ LiveAt s i m q

/-- The `RT_DEREG` that frees the slot of a MessageId unregisters it, by INV1 (R16, R116). -/
theorem unregistered_of_rtDereg {s t : State} {i : Nat} {m r : Word} (hinv : StateInv s) (hi : s.rtInited = true)
    (hl : LiveAt s i m r) (h : exec (.rtDereg r) s = .next t) : Unregistered m t := by
  have hfree := (rtDeregFreesTheSlotOfTheRoute.2 s r hinv hi).2.2 i m hl
  rw [h, Host.Outcome.next.injEq] at hfree
  refine ⟨exec_keeps_rtInited hi h, fun j q hj => ?_⟩
  have hold : LiveAt s j m q := (hj.of_exec h).resolve_right nofun
  obtain rfl := hold.msg_unique hl (hinv.table hi).keys
  simp [LiveAt, hfree, List.getElem?_set_self hl.lt] at hj

/-- A MessageId stays unregistered along every command but a successful `RT_SET` of it (R20). -/
theorem Unregistered.after_exec {m : Word} {c : Instr} {s t : State} (hun : Unregistered m s) (h : exec c s = .next t)
    (hfail : ∀ q, c = .rtSet m q → resultOf (.rtSet m q) s = none) : Unregistered m t := by
  refine ⟨exec_keeps_rtInited hun.rtInited h, fun i q hl => ?_⟩
  rcases hl.of_exec h with hold | rfl
  · exact hun.absent i q hold
  · rw [LiveAt, exec_rtSet_slots_of_failed h (hfail q rfl)] at hl
    exact hun.absent i q hl

/-- A MessageId stays unregistered along every sequence of commands in which no `RT_SET` of it succeeds (R123). -/
theorem Unregistered.after_runAll {m : Word} {cs : List Instr} {s u : State} (hun : Unregistered m s)
    (hfail : ∀ pre q post v, cs = pre ++ .rtSet m q :: post → runAll pre s = some v → resultOf (.rtSet m q) v = none)
    (h : runAll cs s = some u) : Unregistered m u := by
  induction cs generalizing s with
  | nil => cases h; exact hun
  | cons c cs ih =>
    obtain ⟨t, hc, ht⟩ := runAll_cons.mp h
    have hun' : Unregistered m t := hun.after_exec hc fun q hq => hfail [] q cs s (by rw [hq]; rfl) rfl
    refine ih hun' (fun pre q post v hcs hv => ?_) ht
    exact hfail (c :: pre) q post v (by rw [hcs]; rfl) (runAll_cons.mpr ⟨t, hc, hv⟩)

/-- `RT_GET` of a MessageId that is not registered answers 0 (R113). -/
theorem Unregistered.resultOf_rtGet {m : Word} {s : State} (hun : Unregistered m s) : resultOf (.rtGet m) s = some 0 := by
  simp [resultOf, answerOf, exec_rtGet m hun.rtInited, routeOf_eq_zero hun.absent]

/-- Settles O47: the MessageId is unregistered after the `RT_DEREG`, along the commands, and when `RT_GET` looks it up. -/
theorem routeIsGoneUntilRegisteredAgain : Obligations.RouteIsGoneUntilRegisteredAgain := by
  intro s t u i m r cmds hinv hi hl hdereg hfail hrun
  exact ((unregistered_of_rtDereg hinv hi hl hdereg).after_runAll hfail hrun).resultOf_rtGet

/-! ## Filling the table -/

/-- A sequence of commands registers nothing but the pairs of its `RT_SET`s (R20). -/
theorem LiveAt.of_runAll {cs : List Instr} {s u : State} {i : Nat} {m r : Word} (hl : LiveAt u i m r)
    (h : runAll cs s = some u) : LiveAt s i m r ∨ .rtSet m r ∈ cs := by
  induction cs generalizing s with
  | nil => cases h; exact .inl hl
  | cons c cs ih =>
    obtain ⟨t, hc, ht⟩ := runAll_cons.mp h
    rcases ih ht with hl' | hmem
    · exact (hl'.of_exec hc).imp_right fun heq => by simp [heq]
    · exact .inr (List.mem_cons_of_mem _ hmem)

/-- A sequence of commands keeps the invariant and, after `RT_INIT`, `rt_inited`, and changes no parameter (R5, R17, R119). -/
theorem runAll_keeps {cs : List Instr} {s u : State} (hinv : StateInv s) (hi : s.rtInited = true)
    (h : runAll cs s = some u) : StateInv u ∧ u.rtInited = true ∧ u.params = s.params := by
  induction cs generalizing s with
  | nil => cases h; exact ⟨hinv, hi, rfl⟩
  | cons c cs ih =>
    obtain ⟨t, hc, ht⟩ := runAll_cons.mp h
    obtain ⟨hinv', hi', hp⟩ := ih (exec_keeps_inv hinv hc) (exec_keeps_rtInited hi hc) ht
    exact ⟨hinv', hi', hp.trans (exec_params hc)⟩

/-- The `RT_SET`s that register some pairs, in order. -/
def registrations (ps : List (Word × Word)) : List Instr := ps.map fun p => .rtSet p.1 p.2

/-- Where the first of the pairs registers with `SUCCESS`, the others are registered after it. -/
theorem registerAll_cons {s t : State} {m r k : Word} (ps : List (Word × Word)) (h : exec (.rtSet m r) s = .next t)
    (hk : t.response = some { status := .success, res0 := k, res1 := 0, res2 := 0 }) :
    registerAll ((m, r) :: ps) s = registerAll ps t := by
  simp [registerAll, h, hk]

/-- How many slots are free. -/
def freeSlots (s : State) : Nat := s.slots.count none

/-- Filling a free slot leaves one free slot less. -/
theorem count_none_set {slots : List Slot} {i : Nat} (e : RouteEntry) (h : slots[i]? = some none) :
    (slots.set i (some e)).count none + 1 = slots.count none := by
  obtain ⟨hi, hslot⟩ := List.getElem?_eq_some_iff.mp h
  have hpos : 0 < slots.count none := List.count_pos_iff.mpr (List.mem_of_getElem? h)
  simpa [List.count_set hi, hslot] using Nat.sub_add_cancel hpos

/-- What the registrations of R120 need of a state: room for all of them, new distinct MessageIds, and new distinct legal
RouteIds. -/
structure Accepts (ps : List (Word × Word)) (s : State) : Prop where
  inv : StateInv s
  rtInited : s.rtInited = true
  room : ps.length ≤ freeSlots s
  msgs : (ps.map Prod.fst).Nodup
  routes : (ps.map Prod.snd).Nodup
  legal : ∀ p ∈ ps, routeIdLegal s.params.maxRoutes p.2 = true
  newMsg : ∀ p ∈ ps, ∀ i q, ¬ LiveAt s i p.1 q
  newRoute : ∀ p ∈ ps, ∀ i n, ¬ LiveAt s i n p.2

/-- The first of the pairs is registered with `SUCCESS` (R114). -/
theorem Accepts.exec_head {m r : Word} {ps : List (Word × Word)} {s : State} (h : Accepts ((m, r) :: ps) s) :
    ∃ t k, exec (.rtSet m r) s = .next t ∧
      t.response = some { status := .success, res0 := k, res1 := 0, res2 := 0 } ∧ freeSlots t + 1 = freeSlots s := by
  have hhead : (m, r) ∈ (m, r) :: ps := List.mem_cons_self
  have hsome : (none : Slot) ∈ s.slots := by
    have hroom := h.room
    rw [List.length_cons] at hroom
    exact List.count_pos_iff.mp (Nat.lt_of_lt_of_le (Nat.succ_pos _) hroom)
  obtain ⟨i, hslot⟩ := List.mem_iff_getElem?.mp hsome
  have hi : i < s.params.maxRoutes := h.inv.slotCount ▸ (List.getElem?_eq_some_iff.mp hslot).1
  obtain ⟨k, hk⟩ := exists_firstFree m h.inv.slotCount ⟨i, hi, hslot⟩
  exact ⟨_, _, exec_rtSet_fills h.rtInited (h.legal _ hhead) (any_holdsMsg_eq_false (h.newMsg _ hhead)) hk
    (any_holdsRoute_eq_false (h.newRoute _ hhead)), rfl, count_none_set _ (firstFree_eq_some hk).2.1⟩

/-- After the first of the pairs the state accepts the others. -/
theorem Accepts.tail {m r : Word} {ps : List (Word × Word)} {s t : State} (h : Accepts ((m, r) :: ps) s)
    (ht : exec (.rtSet m r) s = .next t) (hfree : freeSlots t + 1 = freeSlots s) : Accepts ps t := by
  obtain ⟨(hm : m ∉ ps.map Prod.fst), hms⟩ := List.nodup_cons.mp h.msgs
  obtain ⟨(hr : r ∉ ps.map Prod.snd), hrs⟩ := List.nodup_cons.mp h.routes
  have hroom := h.room
  rw [List.length_cons] at hroom
  refine ⟨exec_keeps_inv h.inv ht, exec_keeps_rtInited h.rtInited ht, by omega, hms, hrs, fun p hp => ?_,
    fun p hp i q hl => ?_, fun p hp i n hl => ?_⟩
  · rw [exec_params ht]
    exact h.legal p (List.mem_cons_of_mem _ hp)
  · rcases hl.of_exec ht with hold | heq
    · exact h.newMsg p (List.mem_cons_of_mem _ hp) i q hold
    · cases heq
      exact hm (List.mem_map_of_mem hp)
  · rcases hl.of_exec ht with hold | heq
    · exact h.newRoute p (List.mem_cons_of_mem _ hp) i n hold
    · cases heq
      exact hr (List.mem_map_of_mem hp)

/-- Pairs that a state accepts register throughout: their `RT_SET`s all run, each takes one free slot, and each pair is then
registered (R120). -/
theorem Accepts.registers {ps : List (Word × Word)} {s : State} (h : Accepts ps s) :
    ∃ u, registerAll ps s = some u ∧ runAll (registrations ps) s = some u ∧ freeSlots u + ps.length = freeSlots s ∧
      ∀ p ∈ ps, Registered p.1 p.2 u := by
  induction ps generalizing s with
  | nil => exact ⟨s, rfl, rfl, rfl, nofun⟩
  | cons p ps ih =>
    obtain ⟨m, r⟩ := p
    obtain ⟨t, k, ht, hk, hfree⟩ := h.exec_head
    obtain ⟨u, hreg, hrun, hcount, hall⟩ := ih (h.tail ht hfree)
    have hfirst : Registered m r u :=
      (registered_of_rtSet h.inv ht hk).after_runAll (by simp [registrations]) (by simp [registrations]) hrun
    refine ⟨u, (registerAll_cons ps ht hk).trans hreg, runAll_cons.mpr ⟨t, ht, hrun⟩, ?_,
      List.forall_mem_cons.mpr ⟨hfirst, hall⟩⟩
    rw [List.length_cons]
    omega

/-- After `RT_INIT` every slot is free (R112). -/
theorem freeSlots_of_rtInit {s t : State} (h : exec .rtInit s = .next t) : freeSlots t = s.params.maxRoutes := by
  rw [freeSlots, (exec_rtInit_table h).2, List.count_replicate_self]

/-- After `RT_INIT` nothing is registered (R112). -/
theorem not_liveAt_of_rtInit {s t : State} (h : exec .rtInit s = .next t) (i : Nat) (m r : Word) : ¬ LiveAt t i m r := by
  rw [LiveAt, (exec_rtInit_table h).2, List.getElem?_replicate]
  split <;> simp

/-- With no free slot, `RT_SET` of a new MessageId with a legal RouteId gets `CAPACITY_EXCEEDED` (R114, check 3). -/
theorem exec_rtSet_of_freeSlots_eq_zero {s : State} {m r : Word} (hinv : StateInv s) (hi : s.rtInited = true)
    (hr : routeIdLegal s.params.maxRoutes r = true) (hm : ∀ i q, ¬ LiveAt s i m q) (hfull : freeSlots s = 0) :
    AnswersError (.rtSet m r) s .capacityExceeded := by
  refine exec_rtSet_full hi hr (any_holdsMsg_eq_false hm) ((firstFree_eq_none m hinv.slotCount).mpr fun i _ hslot => ?_)
  exact List.count_eq_zero.mp hfull (List.mem_of_getElem? hslot)

/-- Settles O50: the empty table accepts the pairs; when they are `MAX_ROUTES` they leave no slot free, and none but they are
live. -/
theorem maxRoutesRegistrationsFitAndNoMore : Obligations.MaxRoutesRegistrationsFitAndNoMore := by
  intro s t ps hinv hinit hlen hms hrs hlegal
  have hp : t.params = s.params := exec_params hinit
  have hempty := freeSlots_of_rtInit hinit
  have hacc : Accepts ps t :=
    { inv := exec_keeps_inv hinv hinit
      rtInited := (exec_rtInit_table hinit).1
      room := by omega
      msgs := hms
      routes := hrs
      legal := fun p hmem => by rw [hp]; exact routeIdLegal_iff_ne.mpr (hlegal p hmem)
      newMsg := fun p _ i q => not_liveAt_of_rtInit hinit i _ q
      newRoute := fun p _ i n => not_liveAt_of_rtInit hinit i n _ }
  obtain ⟨u, hreg, hrun, hcount, hall⟩ := hacc.registers
  obtain ⟨hinv', hi', hp'⟩ := runAll_keeps hacc.inv hacc.rtInited hrun
  refine ⟨u, hreg, fun p hmem => (hall p hmem).resultOf_rtGet, fun hfull m r hm h0 hle => ?_⟩
  have hnew : ∀ i q, ¬ LiveAt u i m q := fun i q hl => by
    rcases hl.of_runAll hrun with hold | hmem
    · exact not_liveAt_of_rtInit hinit i m q hold
    · obtain ⟨p, hps, heq⟩ := List.mem_map.mp hmem
      cases heq
      exact hm (List.mem_map_of_mem hps)
  have hr : routeIdLegal u.params.maxRoutes r = true := by
    rw [hp', hp]
    exact routeIdLegal_iff_ne.mpr ⟨h0, hle⟩
  exact exec_rtSet_of_freeSlots_eq_zero hinv' hi' hr hnew (by omega)

end Sys2Proof.Machine
end

section
/-! SUPPORT. `RT_ITER` and the iteration protocol (R117, R118): the live pairs from a slot on, in ascending order, of which the
command answers the first and the protocol emits all. -/

namespace Sys2Proof.Machine

/-- `RT_ITER` where a live slot stands at or after the cursor (R117). -/
theorem exec_rtIter_some {s : State} {c : Word} {i : Nat} {e : RouteEntry} (hi : s.rtInited = true)
    (h : nextLive s.slots 0 c.toNat = some (i, e)) :
    exec (.rtIter c) s = .next (s.respond .success e.msgid e.routeid (BitVec.ofNat 32 (i + 1))) := by
  simp [exec, execRtIter, hi, h]

/-- `RT_ITER` where none does: the end response (R117). -/
theorem exec_rtIter_none {s : State} {c : Word} (hi : s.rtInited = true) (h : nextLive s.slots 0 c.toNat = none) :
    exec (.rtIter c) s = .next (s.respond .success 0 0 (BitVec.ofNat 32 s.params.maxRoutes)) := by
  simp [exec, execRtIter, hi, h]

/-- The first live pair at or after a cursor is what `nextLive` finds (R117). -/
theorem LiveAt.nextLive_eq {s : State} {i c : Nat} {m r : Word} (hl : LiveAt s i m r) (hc : c ≤ i)
    (hfirst : ∀ j n q, c ≤ j → j < i → ¬ LiveAt s j n q) :
    nextLive s.slots 0 c = some (i, { msgid := m, routeid := r }) := by
  cases hn : nextLive s.slots 0 c with
  | none => exact absurd hl (nextLive_eq_none.mp hn i _ (Nat.zero_le i) hc)
  | some found =>
    obtain ⟨j, e⟩ := found
    obtain ⟨-, hcj, hslot, hfree⟩ := nextLive_eq_some hn
    rw [Nat.sub_zero] at hslot
    have hle : i ≤ j := Nat.le_of_not_lt fun hlt => hfirst j e.msgid e.routeid hcj hlt hslot
    have hge : j ≤ i := Nat.le_of_not_lt fun hlt => by
      have hnone : s.slots[i]? = some none := hfree i (Nat.zero_le i) hc hlt
      simp [LiveAt, hnone] at hl
    obtain rfl : i = j := Nat.le_antisymm hle hge
    rw [LiveAt, hslot] at hl
    cases hl
    rfl

/-- A slot index and its successor fit in a word (R5, R15). -/
theorem StateInv.maxRoutes_lt {s : State} (h : StateInv s) : s.params.maxRoutes < 2 ^ 32 := by
  obtain ⟨-, -, -, hmax⟩ := legal_iff.mp h.params
  omega

/-- A next cursor is a word (R117). -/
theorem StateInv.toNat_cursor {s : State} {n : Nat} (h : StateInv s) (hn : n ≤ s.params.maxRoutes) :
    (BitVec.ofNat 32 n).toNat = n := by
  rw [BitVec.toNat_ofNat, Nat.mod_eq_of_lt (lt_of_le_of_lt hn h.maxRoutes_lt)]

/-- Settles O43, by what `nextLive` finds of live pairs. -/
theorem rtIterAnswersTheNextLivePair : Obligations.RtIterAnswersTheNextLivePair := by
  refine ⟨fun a0 a1 => by simp [decode, decodeRoute], fun s c hinv hi => ⟨fun i m r hc hl hfirst => ?_, fun hno => ?_⟩⟩
  · have hlt : i + 1 ≤ s.params.maxRoutes := hinv.slotCount ▸ hl.lt
    exact ⟨_, hinv.toNat_cursor hlt, exec_rtIter_some hi (hl.nextLive_eq hc hfirst)⟩
  · have hnone : nextLive s.slots 0 c.toNat = none :=
      nextLive_eq_none.mpr fun n e _ hc hslot => hno n e.msgid e.routeid hc hslot
    exact ⟨_, hinv.toNat_cursor le_rfl, exec_rtIter_none hi hnone⟩

/-- The live pairs at slot index `c` and after, in ascending slot order. -/
def liveFrom (slots : List Slot) (c : Nat) : List RouteEntry := (slots.drop c).filterMap id

/-- At a free slot the live pairs are those after it. -/
theorem liveFrom_free {slots : List Slot} {i : Nat} (h : slots[i]? = some none) :
    liveFrom slots i = liveFrom slots (i + 1) := by
  obtain ⟨hi, hslot⟩ := List.getElem?_eq_some_iff.mp h
  simp [liveFrom, List.drop_eq_getElem_cons hi, hslot]

/-- At a live slot the live pairs are its own and those after it. -/
theorem liveFrom_live {slots : List Slot} {i : Nat} {e : RouteEntry} (h : slots[i]? = some (some e)) :
    liveFrom slots i = e :: liveFrom slots (i + 1) := by
  obtain ⟨hi, hslot⟩ := List.getElem?_eq_some_iff.mp h
  simp [liveFrom, List.drop_eq_getElem_cons hi, hslot]

/-- Free slots at the start contribute no pair. -/
theorem liveFrom_of_free_between {slots : List Slot} {c j : Nat} (hcj : c ≤ j)
    (h : ∀ n, c ≤ n → n < j → slots[n]? = some none) : liveFrom slots c = liveFrom slots j := by
  induction j, hcj using Nat.le_induction with
  | base => rfl
  | succ j hcj ih =>
    calc liveFrom slots c = liveFrom slots j := ih fun n hn hlt => h n hn (by omega)
      _ = liveFrom slots (j + 1) := liveFrom_free (h j hcj (by omega))

/-- The pair `nextLive` finds is the first of the live pairs from the cursor on (R117). -/
theorem liveFrom_of_nextLive_some {slots : List Slot} {c j : Nat} {e : RouteEntry}
    (h : nextLive slots 0 c = some (j, e)) : liveFrom slots c = e :: liveFrom slots (j + 1) := by
  obtain ⟨-, hcj, hslot, hfree⟩ := nextLive_eq_some h
  calc liveFrom slots c = liveFrom slots j := liveFrom_of_free_between hcj fun n => hfree n (Nat.zero_le n)
    _ = e :: liveFrom slots (j + 1) := liveFrom_live hslot

/-- Where `nextLive` finds nothing there are no live pairs from the cursor on (R117). -/
theorem liveFrom_of_nextLive_none {slots : List Slot} {c : Nat} (h : nextLive slots 0 c = none) :
    liveFrom slots c = [] := by
  refine List.filterMap_eq_nil_iff.mpr fun sl hsl => ?_
  obtain ⟨n, hn⟩ := List.mem_iff_getElem?.mp hsl
  rw [List.getElem?_drop] at hn
  cases sl with
  | none => rfl
  | some e => exact absurd hn (nextLive_eq_none.mp h (c + n) e (Nat.zero_le _) (Nat.le_add_right c n))

/-- The iteration ends at a response whose RouteId is 0 (R118). -/
theorem dump_end {n : Nat} {c v0 v2 : Word} {s t : State} (h : exec (.rtIter c) s = .next t)
    (ht : t.response = some { status := .success, res0 := v0, res1 := 0, res2 := v2 }) : dump (n + 1) c s = [] := by
  simp [dump, h, ht]

/-- The iteration emits a pair and goes on at the next cursor (R118). -/
theorem dump_pair {n : Nat} {c v0 v1 v2 : Word} {s t : State} (h : exec (.rtIter c) s = .next t)
    (ht : t.response = some { status := .success, res0 := v0, res1 := v1, res2 := v2 }) (hne : v1 ≠ 0) :
    dump (n + 1) c s = { msgid := v0, routeid := v1 } :: dump n v2 t := by
  simp only [dump, h, ht, if_neg hne]

/-- From a cursor on, the iteration emits the live pairs from that slot on, if it may use one command for each slot left and
one more (R118). Each command moves the cursor past a live slot or ends. -/
theorem dump_eq_liveFrom {fuel : Nat} {c : Word} {s : State} (hinv : StateInv s) (hi : s.rtInited = true)
    (hc : c.toNat ≤ s.params.maxRoutes) (hfuel : s.params.maxRoutes + 1 ≤ fuel + c.toNat) :
    dump fuel c s = liveFrom s.slots c.toNat := by
  induction fuel generalizing c s with
  | zero => omega
  | succ n ih =>
    cases hn : nextLive s.slots 0 c.toNat with
    | none => rw [liveFrom_of_nextLive_none hn, dump_end (exec_rtIter_none hi hn) rfl]
    | some found =>
      obtain ⟨j, e⟩ := found
      obtain ⟨-, hcj, hslot, -⟩ := nextLive_eq_some hn
      have hl : LiveAt s j e.msgid e.routeid := hslot
      have hne : e.routeid ≠ 0 := (routeIdLegal_iff_ne.mp (hl.route_legal (hinv.table hi).legal)).1
      have hj : j + 1 ≤ s.params.maxRoutes := hinv.slotCount ▸ hl.lt
      have hnext := hinv.toNat_cursor hj
      have hrest := ih (c := BitVec.ofNat 32 (j + 1))
        (s := s.respond .success e.msgid e.routeid (BitVec.ofNat 32 (j + 1))) (hinv.of_same rfl rfl rfl rfl) hi
      rw [hnext, respond_params, respond_slots] at hrest
      rw [liveFrom_of_nextLive_some hn, dump_pair (exec_rtIter_some hi hn) rfl hne, hrest hj (by omega)]

/-- Settles O51: from cursor 0 the live pairs are all of them. -/
theorem iterationEmitsExactlyTheLivePairs : Obligations.IterationEmitsExactlyTheLivePairs := by
  intro s fuel hinv hi hfuel
  exact dump_eq_liveFrom hinv hi (Nat.zero_le _) hfuel

end Sys2Proof.Machine
end

section
/-! SUPPORT. What an error leaves (R145, R147): a command or packet that completes has either raised an error, which changes
nothing but the response, or succeeded. -/

namespace Sys2Proof.Machine

/-- A completing command raises an error and does nothing else, or its status is `SUCCESS` (R145). -/
theorem exec_raise_or_success {i : Instr} {s t : State} (h : exec i s = .next t) :
    (∃ st, t = s.raise st) ∨ ∃ r0 r1 r2, t.response = some ⟨.success, r0, r1, r2⟩ := by
  rcases group_cases i with hg | hg | hg
  · rcases exec_get_next hg h with herr | ⟨base, ks, v, rfl⟩
    · exact .inl ⟨_, herr⟩
    · exact .inr ⟨_, _, _, rfl⟩
  · obtain ⟨f, buf, v, rfl⟩ := isSet_cases hg
    rcases exec_set_next h with herr | ⟨base, -, -, -, rfl⟩
    · exact .inl ⟨_, herr⟩
    · exact .inr ⟨_, _, _, rfl⟩
  · rcases exec_route_next hg h with ⟨-, rfl⟩ | ⟨-, ⟨st, -, -, herr⟩ | ⟨m, -, rfl⟩ | ⟨m, r, k, -, -, -, -, -, rfl⟩ |
      ⟨r, n, -, -, -, rfl⟩ | ⟨c, v0, v1, v2, -, rfl⟩⟩
    · exact .inr ⟨_, _, _, rfl⟩
    · exact .inl ⟨st, herr⟩
    · exact .inr ⟨_, _, _, rfl⟩
    · exact .inr ⟨_, _, _, rfl⟩
    · exact .inr ⟨_, _, _, rfl⟩
    · exact .inr ⟨_, _, _, rfl⟩

/-- A completing packet raises an error and does nothing else, or its status is `SUCCESS` (R58, R145). -/
theorem runPacket_raise_or_success {p : Packet} {s t : State} (h : runPacket p s = .next t) :
    (∃ st, t = s.raise st) ∨ ∃ r0 r1 r2, t.response = some ⟨.success, r0, r1, r2⟩ := by
  rcases runPacket_cases p s with ⟨i, -, he⟩ | ⟨-, he⟩ <;> rw [he] at h
  · exact exec_raise_or_success h
  · cases h
    exact .inl ⟨_, rfl⟩

/-- Settles O10: only a raised error has another status than `SUCCESS`, and it puts its response in the old state. -/
theorem errorChangesNothing : Obligations.ErrorChangesNothing := by
  intro p s t r h hr herr
  rcases runPacket_raise_or_success h with ⟨st, rfl⟩ | ⟨r0, r1, r2, hsucc⟩
  · obtain rfl : _ = r := Option.some.inj hr
    rfl
  · obtain rfl : _ = r := Option.some.inj (hsucc.symm.trans hr)
    exact absurd rfl herr

end Sys2Proof.Machine
end

section
/-! SUPPORT. A command cut by reset (R160, U7): every write a command puts on record leaves its byte as the completed command
does, and a byte after some of the writes is as before or as one of them left it. -/

namespace Sys2Proof.Machine

/-- The writes on record for some touched bytes, as addresses with the bytes memory holds there (R38). -/
@[simp] theorem writesOf_writesTo (m : Memory) (base : Word) (ks : List Nat) :
    writesOf (writesTo m base ks) = ks.map fun k => (headerAddr base k, m.read (headerAddr base k)) := by
  simp [writesOf, writesTo, headerByte]

/-- A byte after some of a list of writes is as before, or is what one of them wrote (U7). -/
theorem performMarked_read {m : Memory} {ws : List (Nat × Byte)} (done : List Bool) (a : Nat) (h : m.wf)
    (hw : ∀ w ∈ ws, w.1 < 2 ^ 32) :
    (performMarked m ws done).read a = m.read a ∨ (a, (performMarked m ws done).read a) ∈ ws := by
  induction ws generalizing m done with
  | nil => exact .inl (performMarked_read_other [] done nofun)
  | cons w ws ih =>
    obtain ⟨b, v⟩ := w
    have hws : ∀ w ∈ ws, w.1 < 2 ^ 32 := fun w hmem => hw w (List.mem_cons_of_mem _ hmem)
    match done with
    | [] => exact .inl rfl
    | false :: ds => exact (ih ds h hws).imp_right (List.mem_cons_of_mem _)
    | true :: ds =>
      simp only [performMarked]
      rcases ih ds (write_wf v h (hw _ (List.mem_cons_self ..))) hws with hold | hnew
      · by_cases hab : a = b
        · subst hab
          rw [hold, read_write_same m a v h]
          exact .inr (List.mem_cons_self ..)
        · exact .inl (hold.trans (read_write_other m v hab))
      · exact .inr (List.mem_cons_of_mem _ hnew)

/-- Every write a command puts on record leaves its byte as the completed command does: a Set writes each touched byte once,
and nothing else writes (R37, R38). -/
theorem exec_writes_read {i : Instr} {s t : State} (hm : s.mem.wf) (h : exec i s = .next t) {w : Nat × Byte}
    (hw : w ∈ writesOf t.accesses) : w ∈ writesOf s.accesses ∨ t.mem.read w.1 = w.2 := by
  rcases group_cases i with hg | hg | hg
  · rcases exec_get_next hg h with rfl | ⟨base, ks, v, rfl⟩ <;> exact .inl (by simpa using hw)
  · obtain ⟨f, buf, v, rfl⟩ := isSet_cases hg
    rcases exec_setField_next hm h with rfl | ⟨base, -, -, -, heffect⟩
    · exact .inl hw
    · simp only [heffect.accesses_eq, writesOf_append, writesOf_readsOf, writesOf_writesTo, List.append_nil,
        List.mem_append, List.mem_map] at hw
      rcases hw with hw | ⟨k, -, rfl⟩
      · exact .inl hw
      · exact .inr rfl
  · obtain ⟨-, -, -, -, -, haccesses, -⟩ := exec_route_onlyChangesTable hg h
    exact .inl (haccesses ▸ hw)

/-- Every write a packet puts on record leaves its byte as the completed command does. -/
theorem runPacket_writes_read {p : Packet} {s t : State} (hm : s.mem.wf) (h : runPacket p s = .next t) {w : Nat × Byte}
    (hw : w ∈ writesOf t.accesses) : w ∈ writesOf s.accesses ∨ t.mem.read w.1 = w.2 := by
  rcases runPacket_cases p s with ⟨i, -, hi⟩ | ⟨-, hi⟩ <;> rw [hi] at h
  · exact exec_writes_read hm h hw
  · cases h
    exact .inl hw

/-- A step whose event cuts a command by reset: the command has a meaning or the step has none, and of its writes those that
are marked have been performed (R160, U7). -/
theorem step_resetDuring {s : State} {k : Nat} {done : List Bool} {es : List Event} {p : Packet} {rest : List Packet}
    (he : s.events = .resetDuring k done :: es) (hq : s.queues[k]? = some (p :: rest)) :
    step s = mapNext
      (fun u => { (s.begin es).taken k rest with mem := performMarked s.mem (writesOf u.accesses) done }.resetBlock)
      (runPacket p ((s.begin es).taken k rest)) := by
  rw [step_cons he]
  simp only [runEvent, resetDuringCommand, takeCommand_cons (s := s.begin es) hq]
  cases runPacket p ((s.begin es).taken k rest) <;> rfl

/-- Settles O59: the cut command's record starts empty, so a byte that one of its writes left holds what the completed command
leaves there. -/
theorem commandCutByResetLeavesOldOrNewBytes : Obligations.CommandCutByResetLeavesOldOrNewBytes := by
  intro s t k done es p rest hm he hq hstep
  rw [step_resetDuring he hq, mapNext_next_iff] at hstep
  obtain ⟨u, hu, rfl⟩ := hstep
  have hnone (w : Nat × Byte) : w ∉ writesOf ((s.begin es).taken k rest).accesses := by simp [writesOf]
  have hrange : ∀ w ∈ writesOf u.accesses, w.1 < 2 ^ 32 := fun w hw =>
    (runPacket_writes_lt hu hw).resolve_left (hnone w)
  refine ⟨rfl, rfl, rfl, rfl, rfl, rfl, fun a => ?_⟩
  rcases performMarked_read done a hm hrange with hold | hnew
  · exact .inl hold
  · have hread := (runPacket_writes_read (s := (s.begin es).taken k rest) hm hu hnew).resolve_left (hnone _)
    exact .inr ⟨u, hu, hread.symm⟩

end Sys2Proof.Machine
end
